-- ==== Sys2Proof/Word.lean ====
section
/-! DEFINITION. The widths of the machine: the byte, the halfword and the word of R31, and the
32-bit register and address of R11 and R30. -/

namespace Sys2Proof

/-- A byte is 8 bits (R31). -/
abbrev Byte := BitVec 8

/-- A halfword is 2 bytes (R31); also the width of the immediate field (R54). -/
abbrev Half := BitVec 16

/-- A word is 4 bytes (R31); also the width of a general register, of PC, HI, LO and of an
address (R11, R17, R20, R30). -/
abbrev Word := BitVec 32

end Sys2Proof
end

