-- ==== Sys2Proof/Config.lean ====
section
/-! DEFINITION. What the spec leaves OPEN: the three parameters of 00_scope.md section 5
(`MAPPED`, `RESET_PC`, `HILO_HAZARD_DISTANCE`), and the source of the values `any` (R7). -/

namespace Sys2Proof

/-- A run of byte addresses `base`, `base + 1`, ..., `base + size - 1`. -/
structure Region where
  base : Nat
  size : Nat
deriving DecidableEq, Repr

/-- The legal values of `HILO_HAZARD_DISTANCE` (R204): 0, no restriction, or 2, the classic one. -/
inductive HazardDistance where
  | none
  | two
deriving DecidableEq, Repr

/-- The number of instructions the distance asks for (R204). -/
def HazardDistance.toNat : HazardDistance → Nat
  | .none => 0
  | .two => 2

/-- The parameters the spec leaves open. They are arguments of the model (00_scope.md section 5):
`State` carries them, no step changes them, and a statement about every state holds for every
value of them (log 6). -/
structure Params where
  /-- `MAPPED` (R36): the byte addresses that exist. -/
  mapped : List Region
  /-- `RESET_PC` (R28): the first instruction's address. -/
  resetPc : Word
  /-- `HILO_HAZARD_DISTANCE` (R204). -/
  hazard : HazardDistance
deriving DecidableEq, Repr

namespace Config

/-- The n-th value `any` (R7: "a value the spec does not fix; a model draws it ... and a proof must
hold for every draw"). It has no body: nothing can be proved of which value it is (log 10). -/
opaque anyWord : Nat → Word

/-- The parameters of `State.reset`. DESIGN CHOICE, all three: the whole 32-bit space exists
(log 2), execution starts at 0x00001000, as in every example of 95_test_vectors.md (log 1), and the
hazard distance has its conservative value 2 (log 3). -/
def resetParams : Params where
  mapped := [⟨0, 2 ^ 32⟩]
  resetPc := 0x00001000#32
  hazard := .two

/-- What a byte of memory reads as that neither the launch image nor a store gave. DESIGN CHOICE
(log 5): the spec says `any` (Table R28). -/
def unlistedByte : Byte := 0x00#8

end Config

end Sys2Proof
end

