-- ==== Sys2Proof/Machine/Memory.lean ====
section
/-! DEFINITION. Memory as a list of (address, byte) pairs in one canonical form (R25), the set of
stored-to addresses (R26(b)), and which addresses are mapped (R36). -/

namespace Sys2Proof.Machine

/-- Memory: the bytes that differ from what an unlisted address reads as. -/
abbrev Memory := List Host.Cell

/-- One byte: the first pair with that address, or else the unlisted byte (log 5). -/
def Memory.get : Memory → Nat → Byte
  | [], _ => Config.unlistedByte
  | c :: m, a => if c.1 = a then c.2 else Memory.get m a

/-- Puts a pair before the first pair of a higher address. -/
def Memory.insertCell (a : Nat) (v : Byte) : Memory → Memory
  | [] => [(a, v)]
  | c :: m => if a < c.1 then (a, v) :: c :: m else c :: Memory.insertCell a v m

/-- Writes one byte; writing what an unlisted address reads as removes the pair (log 17). -/
def Memory.set (m : Memory) (a : Nat) (v : Byte) : Memory :=
  let rest := m.filter (fun c => c.1 != a)
  if v = Config.unlistedByte then rest else Memory.insertCell a v rest

/-- Numbers that strictly rise. -/
def rising : List Nat → Bool
  | [] => true
  | [_] => true
  | a :: b :: l => decide (a < b) && rising (b :: l)

/-- The canonical form: addresses strictly rising and below 2^32 (R30), no pair that says what an
unlisted address reads as. -/
def Memory.wf (m : Memory) : Bool :=
  rising (m.map Prod.fst) && m.all (fun c => decide (c.1 < 2 ^ 32) && c.2 != Config.unlistedByte)

/-- The memory with the given pairs, the first of two pairs with one address winning: how the launch
image is placed (R28, R201). Addresses outside the space of R30 are dropped. -/
def Memory.ofCells : List Host.Cell → Memory
  | [] => []
  | c :: cs => if c.1 < 2 ^ 32 then Memory.set (Memory.ofCells cs) c.1 c.2 else Memory.ofCells cs

/-- A finite set of addresses, as the list of its members, rising (log 17). -/
abbrev AddrSet := List Nat

/-- Adds one address. -/
def AddrSet.insert (a : Nat) : AddrSet → AddrSet
  | [] => [a]
  | b :: s => if a < b then a :: b :: s else if a = b then b :: s else b :: AddrSet.insert a s

/-- The canonical form: members strictly rising, below 2^32 (R30). -/
def AddrSet.wf (s : AddrSet) : Bool := rising s && s.all (fun a => decide (a < 2 ^ 32))

/-- `MAPPED(a)` (R36): some region holds the address. -/
def mappedAt (p : Params) (a : Nat) : Bool :=
  p.mapped.any (fun r => decide (r.base ≤ a) && decide (a < r.base + r.size))

end Sys2Proof.Machine
end

