-- ==== Sys2Proof/Machine/State.lean ====
section
/-! DEFINITION. The state of the machine (10_state.md), why a step can stop, and the state after
reset (R28). -/

namespace Sys2Proof.Machine

/-- What an access that raised AddressError was for (Table R180). -/
inductive AccessKind where
  | fetch
  | load
  | store
deriving DecidableEq, Repr

/-- The five exceptions of Table R180, each with what it records besides `epc` and `bd`. -/
inductive Cause where
  /-- A misaligned fetch, load or store, and its address (R34). -/
  | addressError (kind : AccessKind) (addr : Word)
  /-- SYSCALL (R155); `code = w[25:6]`. -/
  | systemCall (code : BitVec 20)
  /-- BREAK (R156); `code = w[25:6]`. -/
  | breakpoint (code : BitVec 20)
  /-- ADD, SUB or ADDI whose exact result does not fit (R90). -/
  | integerOverflow
  /-- A trap whose condition holds (R160); `code = w[15:6]`, none for the immediate forms. -/
  | trap (code : Option (BitVec 10))
deriving DecidableEq, Repr

/-- The fault record of R181(b). `epc` is the address of the faulting instruction itself, `bd`
whether it stood in a delay slot. -/
structure FaultRecord where
  cause : Cause
  epc : Word
  bd : Bool
deriving DecidableEq, Repr

/-- Why a step gives a situation no meaning (R181(c)). Every one is SAFE: nothing can be proved of
what the hardware does there. -/
inductive Refusal where
  /-- An instruction whose meaning is not written yet. Raised by no arm of `exec`. Safe. -/
  | notModelled (mnemonic : String)
  /-- The fetched word is no row of the opcode table (R61, R62). Raised by `step`. Safe. -/
  | notInSpec (w : Word)
  /-- The fetched word holds a byte the program has stored to (R43). Raised by `step`. Safe. -/
  | fetchAfterStore
  /-- J, JAL, JR or JALR in a delay slot (R150). Raised by the four jumps. Safe. -/
  | jumpInDelaySlot
  /-- JALR with rd = rs (R149). Raised by JALR. Safe. -/
  | jalrSameRegister
  /-- A write of HI or LO too soon after MFHI or MFLO (R204). Raised by MULT, MULTU, DIV, DIVU, MTHI
  and MTLO. Safe. -/
  | hiLoHazard
deriving DecidableEq, Repr

/-- Why no step exists. Both are SAFE: nothing can be proved of what comes after. -/
inductive Fault where
  /-- Stuck (R36, R181(d)): the byte at `addr` is needed and is not mapped. Raised by `step` at the
  fetch, and by loads and stores. Safe. -/
  | stuck (addr : Word)
  /-- The run has ended with an exception (R181(b), R182): no step exists. Raised by `step`. Safe. -/
  | halted (record : FaultRecord)
deriving DecidableEq, Repr

/-- `outcome` (R26(a), R181). A refused step has no next state, so no step of the model leaves
`refused` here: `step` answers the refusal itself (log 8). -/
inductive RunOutcome where
  | running
  | fault (record : FaultRecord)
  | refused (why : Refusal)
deriving DecidableEq, Repr

/-- The whole state (10_state.md's state table), the parameters (log 6), and the model's own counter
of draws (log 10). -/
structure State where
  /-- `x[0..31]` (R10, R11). Read and written through `readReg` and `writeReg` only (R12). -/
  regs : Vector Word 32
  /-- The address of the current instruction (R17). -/
  pc : Word
  /-- The address of the instruction after the current one (R19). -/
  npc : Word
  /-- Whether the current instruction stands in a delay slot (R19). -/
  bd : Bool
  /-- HI (R20). -/
  hi : Word
  /-- LO (R20). -/
  lo : Word
  /-- `M` (R25). -/
  mem : Memory
  /-- The byte addresses stored to since reset (R26(b)). -/
  dirty : AddrSet
  /-- Instructions executed since the last MFHI or MFLO, saturating (R26(c)). -/
  hiloAge : Nat
  /-- Running, or how the run ended (R26(a)). -/
  outcome : RunOutcome
  /-- `MAPPED`, `RESET_PC`, `HILO_HAZARD_DISTANCE` (00_scope.md section 5). -/
  params : Params
  /-- MODEL'S OWN: how many values `any` have been drawn so far (R7, log 10). -/
  draws : Nat
deriving DecidableEq, Repr

/-- What a launcher fixes before the first step (R28, R201): the parameters, the launch image, and
the values `any` that registers, HI, LO and the draws start from. -/
structure Launch where
  params : Params
  image : List Host.Cell
  regs : Vector Word 32
  hi : Word
  lo : Word
  draws : Nat

/-- Table R28 for every choice of what it leaves open. -/
def State.launch (l : Launch) : State where
  regs := l.regs.set 0 0#32
  pc := l.params.resetPc
  npc := l.params.resetPc + 4#32
  bd := false
  hi := l.hi
  lo := l.lo
  mem := Memory.ofCells l.image
  dirty := []
  hiloAge := l.params.hazard.toNat
  outcome := .running
  params := l.params
  draws := l.draws

/-- The launch behind `State.reset`. DESIGN CHOICE where Table R28 says `any`: every register, HI and
LO hold zero (log 4), the image is empty (log 5), no value has been drawn (log 10). -/
def Launch.atReset : Launch where
  params := Config.resetParams
  image := []
  regs := Vector.replicate 32 0#32
  hi := 0#32
  lo := 0#32
  draws := 0

/-- The machine right after reset (R28, R200). -/
def State.reset : State := State.launch Launch.atReset

end Sys2Proof.Machine
end

