-- ==== Sys2Proof/Machine/Flags.lean ====
section
/-! DEFINITION. The machine has no flags (R22): a comparison's truth value goes to a general register
(R99, R100, R103, R104) or is consumed by a trap (R160), and a signed overflow is an exception (R90).
Here stand those conditions. -/

namespace Sys2Proof.Machine

/-- Whether an exact integer result fits 32 bits two's complement, -2^31 to 2^31 - 1 (R90). -/
def fitsSigned (t : Int) : Bool := decide (-2147483648 ≤ t) && decide (t ≤ 2147483647)

/-- `a <s b` (R6). -/
def ltSigned (a b : Word) : Bool := decide (a.toInt < b.toInt)

/-- `a <u b` (R6). -/
def ltUnsigned (a b : Word) : Bool := decide (a.toNat < b.toNat)

/-- A truth value as the 32-bit 1 or 0 (R99). -/
def truthWord (b : Bool) : Word := if b then 1#32 else 0#32

/-- The operands of a signed division whose results the spec leaves open: a zero divisor, and
-2^31 / -1 (R132). -/
def divUndefined (n d : Word) : Bool := decide (d = 0#32) || (decide (n = 0x80000000#32) && decide (d = 0xFFFFFFFF#32))

end Sys2Proof.Machine
end

