-- ==== Sys2Proof/Syntax.lean ====
section
/-! DEFINITION. The instructions: one constructor for each of the 62 rows of spec/opcode_table.json,
with the operands of R59 and R64. -/

namespace Sys2Proof

/-- A general register r0 to r31, by its number (R10). -/
abbrev Reg := Fin 32

/-- A shift amount, 0 to 31: the sa field (R56), or `x[rs][4:0]` (R120). -/
abbrev Shamt := BitVec 5

/-- The 62 admitted instructions (R4). Operands stand in assembler order (R64); `imm` is the 16-bit
field as encoded, `target` the 26-bit field, `code` the uninterpreted code field (R59). -/
inductive Instr where
  -- Loads (R71 to R77)
  | lb (rt rs : Reg) (imm : Half)
  | lbu (rt rs : Reg) (imm : Half)
  | lh (rt rs : Reg) (imm : Half)
  | lhu (rt rs : Reg) (imm : Half)
  | lw (rt rs : Reg) (imm : Half)
  | lwl (rt rs : Reg) (imm : Half)
  | lwr (rt rs : Reg) (imm : Half)
  -- Stores (R79 to R83)
  | sb (rt rs : Reg) (imm : Half)
  | sh (rt rs : Reg) (imm : Half)
  | sw (rt rs : Reg) (imm : Half)
  | swl (rt rs : Reg) (imm : Half)
  | swr (rt rs : Reg) (imm : Half)
  -- Arithmetic and logical, register format (R91 to R100)
  | add (rd rs rt : Reg)
  | addu (rd rs rt : Reg)
  | sub (rd rs rt : Reg)
  | subu (rd rs rt : Reg)
  | and (rd rs rt : Reg)
  | or (rd rs rt : Reg)
  | xor (rd rs rt : Reg)
  | nor (rd rs rt : Reg)
  | slt (rd rs rt : Reg)
  | sltu (rd rs rt : Reg)
  -- Arithmetic and logical, immediate format (R101 to R108)
  | addi (rt rs : Reg) (imm : Half)
  | addiu (rt rs : Reg) (imm : Half)
  | slti (rt rs : Reg) (imm : Half)
  | sltiu (rt rs : Reg) (imm : Half)
  | andi (rt rs : Reg) (imm : Half)
  | ori (rt rs : Reg) (imm : Half)
  | xori (rt rs : Reg) (imm : Half)
  | lui (rt : Reg) (imm : Half)
  -- Shifts (R121 to R126)
  | sll (rd rt : Reg) (sa : Shamt)
  | srl (rd rt : Reg) (sa : Shamt)
  | sra (rd rt : Reg) (sa : Shamt)
  | sllv (rd rt rs : Reg)
  | srlv (rd rt rs : Reg)
  | srav (rd rt rs : Reg)
  -- Multiply, divide and the HI/LO moves (R130 to R137)
  | mult (rs rt : Reg)
  | multu (rs rt : Reg)
  | div (rs rt : Reg)
  | divu (rs rt : Reg)
  | mfhi (rd : Reg)
  | mthi (rs : Reg)
  | mflo (rd : Reg)
  | mtlo (rs : Reg)
  -- Jumps (R146 to R149)
  | j (target : BitVec 26)
  | jal (target : BitVec 26)
  | jr (rs : Reg)
  | jalr (rd rs : Reg)
  -- Special instructions (R155, R156); `brk` is BREAK
  | syscall (code : BitVec 20)
  | brk (code : BitVec 20)
  -- Traps (R161 to R172)
  | tge (rs rt : Reg) (code : BitVec 10)
  | tgeu (rs rt : Reg) (code : BitVec 10)
  | tlt (rs rt : Reg) (code : BitVec 10)
  | tltu (rs rt : Reg) (code : BitVec 10)
  | teq (rs rt : Reg) (code : BitVec 10)
  | tne (rs rt : Reg) (code : BitVec 10)
  | tgei (rs : Reg) (imm : Half)
  | tgeiu (rs : Reg) (imm : Half)
  | tlti (rs : Reg) (imm : Half)
  | tltiu (rs : Reg) (imm : Half)
  | teqi (rs : Reg) (imm : Half)
  | tnei (rs : Reg) (imm : Half)
deriving DecidableEq, Repr

end Sys2Proof
end

