-- ==== Sys2Proof/Decode.lean ====
section
/-! DEFINITION. From the bits of an instruction word to an instruction and back: the fields of R54 to
R56, the opcode map of Tables R60a to R60c, must-be-zero fields (R62), refusal of every other word
(R61), the encoder, and the rows of spec/opcode_table.json as masks and matches (R58). -/

namespace Sys2Proof

/-- The little-endian word of a list of bytes, the byte of the lowest address first (R32, R33);
bytes that are not in the list count as zero. -/
def leValue : List Byte → Word
  | [] => 0#32
  | b :: bs => (leValue bs <<< 8) ||| b.setWidth 32

/-- Byte `k` of a word: bits `8k+7` to `8k` (R32). -/
def byteOf (w : Word) (k : Nat) : Byte := w.extractLsb' (8 * k) 8

/-- The four bytes of a word, least significant first: the order in which they stand at rising
addresses (R32). -/
def leBytes (w : Word) : List Byte := [byteOf w 0, byteOf w 1, byteOf w 2, byteOf w 3]

/-! ## Fields (R54 to R56, R59) -/

/-- opcode = bits 31..26 (R52). -/
def opcodeField (w : Word) : BitVec 6 := w.extractLsb' 26 6
/-- rs = bits 25..21. -/
def rsField (w : Word) : Reg := (w.extractLsb' 21 5).toFin
/-- rt = bits 20..16. -/
def rtField (w : Word) : Reg := (w.extractLsb' 16 5).toFin
/-- rd = bits 15..11. -/
def rdField (w : Word) : Reg := (w.extractLsb' 11 5).toFin
/-- sa = bits 10..6. -/
def saField (w : Word) : Shamt := w.extractLsb' 6 5
/-- funct = bits 5..0. -/
def functField (w : Word) : BitVec 6 := w.extractLsb' 0 6
/-- imm = bits 15..0. -/
def immField (w : Word) : Half := w.extractLsb' 0 16
/-- target = bits 25..0. -/
def targetField (w : Word) : BitVec 26 := w.extractLsb' 0 26
/-- The code of SYSCALL and BREAK = bits 25..6 (Table R59). -/
def codeField (w : Word) : BitVec 20 := w.extractLsb' 6 20
/-- The code of the register traps = bits 15..6 (Table R59). -/
def trapCodeField (w : Word) : BitVec 10 := w.extractLsb' 6 10

/-! ## Decoding (R58, R60 to R62) -/

/-- Why a word is no instruction. -/
inductive DecodeError where
  /-- The word matches no row of the opcode table (R61), a nonzero must-be-zero field included (R62). -/
  | notInSpec (w : Word)
deriving DecidableEq, Repr

/-- A row whose must-be-zero fields are zero exactly if `zero` (R62). -/
def whenZero (zero : Bool) (i : Instr) : Option Instr := if zero then some i else none

/-- Table R60b: opcode 0 (SPECIAL), selected by funct. -/
def decodeSpecial (w : Word) : Option Instr :=
  match functField w with
  | 0#6 => whenZero (rsField w == 0) (.sll (rdField w) (rtField w) (saField w))
  | 2#6 => whenZero (rsField w == 0) (.srl (rdField w) (rtField w) (saField w))
  | 3#6 => whenZero (rsField w == 0) (.sra (rdField w) (rtField w) (saField w))
  | 4#6 => whenZero (saField w == 0) (.sllv (rdField w) (rtField w) (rsField w))
  | 6#6 => whenZero (saField w == 0) (.srlv (rdField w) (rtField w) (rsField w))
  | 7#6 => whenZero (saField w == 0) (.srav (rdField w) (rtField w) (rsField w))
  | 8#6 => whenZero (rtField w == 0 && rdField w == 0 && saField w == 0) (.jr (rsField w))
  | 9#6 => whenZero (rtField w == 0 && saField w == 0) (.jalr (rdField w) (rsField w))
  | 12#6 => some (.syscall (codeField w))
  | 13#6 => some (.brk (codeField w))
  | 16#6 => whenZero (rsField w == 0 && rtField w == 0 && saField w == 0) (.mfhi (rdField w))
  | 17#6 => whenZero (rtField w == 0 && rdField w == 0 && saField w == 0) (.mthi (rsField w))
  | 18#6 => whenZero (rsField w == 0 && rtField w == 0 && saField w == 0) (.mflo (rdField w))
  | 19#6 => whenZero (rtField w == 0 && rdField w == 0 && saField w == 0) (.mtlo (rsField w))
  | 24#6 => whenZero (rdField w == 0 && saField w == 0) (.mult (rsField w) (rtField w))
  | 25#6 => whenZero (rdField w == 0 && saField w == 0) (.multu (rsField w) (rtField w))
  | 26#6 => whenZero (rdField w == 0 && saField w == 0) (.div (rsField w) (rtField w))
  | 27#6 => whenZero (rdField w == 0 && saField w == 0) (.divu (rsField w) (rtField w))
  | 32#6 => whenZero (saField w == 0) (.add (rdField w) (rsField w) (rtField w))
  | 33#6 => whenZero (saField w == 0) (.addu (rdField w) (rsField w) (rtField w))
  | 34#6 => whenZero (saField w == 0) (.sub (rdField w) (rsField w) (rtField w))
  | 35#6 => whenZero (saField w == 0) (.subu (rdField w) (rsField w) (rtField w))
  | 36#6 => whenZero (saField w == 0) (.and (rdField w) (rsField w) (rtField w))
  | 37#6 => whenZero (saField w == 0) (.or (rdField w) (rsField w) (rtField w))
  | 38#6 => whenZero (saField w == 0) (.xor (rdField w) (rsField w) (rtField w))
  | 39#6 => whenZero (saField w == 0) (.nor (rdField w) (rsField w) (rtField w))
  | 42#6 => whenZero (saField w == 0) (.slt (rdField w) (rsField w) (rtField w))
  | 43#6 => whenZero (saField w == 0) (.sltu (rdField w) (rsField w) (rtField w))
  | 48#6 => some (.tge (rsField w) (rtField w) (trapCodeField w))
  | 49#6 => some (.tgeu (rsField w) (rtField w) (trapCodeField w))
  | 50#6 => some (.tlt (rsField w) (rtField w) (trapCodeField w))
  | 51#6 => some (.tltu (rsField w) (rtField w) (trapCodeField w))
  | 52#6 => some (.teq (rsField w) (rtField w) (trapCodeField w))
  | 54#6 => some (.tne (rsField w) (rtField w) (trapCodeField w))
  | _ => none

/-- Table R60c: opcode 1 (REGIMM), selected by the rt field. -/
def decodeRegimm (w : Word) : Option Instr :=
  match (rtField w).val with
  | 8 => some (.tgei (rsField w) (immField w))
  | 9 => some (.tgeiu (rsField w) (immField w))
  | 10 => some (.tlti (rsField w) (immField w))
  | 11 => some (.tltiu (rsField w) (immField w))
  | 12 => some (.teqi (rsField w) (immField w))
  | 14 => some (.tnei (rsField w) (immField w))
  | _ => none

/-- Table R60a: the primary opcode. `none` where no row matches. -/
def decodeRow (w : Word) : Option Instr :=
  match opcodeField w with
  | 0#6 => decodeSpecial w
  | 1#6 => decodeRegimm w
  | 2#6 => some (.j (targetField w))
  | 3#6 => some (.jal (targetField w))
  | 8#6 => some (.addi (rtField w) (rsField w) (immField w))
  | 9#6 => some (.addiu (rtField w) (rsField w) (immField w))
  | 10#6 => some (.slti (rtField w) (rsField w) (immField w))
  | 11#6 => some (.sltiu (rtField w) (rsField w) (immField w))
  | 12#6 => some (.andi (rtField w) (rsField w) (immField w))
  | 13#6 => some (.ori (rtField w) (rsField w) (immField w))
  | 14#6 => some (.xori (rtField w) (rsField w) (immField w))
  | 15#6 => whenZero (rsField w == 0) (.lui (rtField w) (immField w))
  | 32#6 => some (.lb (rtField w) (rsField w) (immField w))
  | 33#6 => some (.lh (rtField w) (rsField w) (immField w))
  | 34#6 => some (.lwl (rtField w) (rsField w) (immField w))
  | 35#6 => some (.lw (rtField w) (rsField w) (immField w))
  | 36#6 => some (.lbu (rtField w) (rsField w) (immField w))
  | 37#6 => some (.lhu (rtField w) (rsField w) (immField w))
  | 38#6 => some (.lwr (rtField w) (rsField w) (immField w))
  | 40#6 => some (.sb (rtField w) (rsField w) (immField w))
  | 41#6 => some (.sh (rtField w) (rsField w) (immField w))
  | 42#6 => some (.swl (rtField w) (rsField w) (immField w))
  | 43#6 => some (.sw (rtField w) (rsField w) (immField w))
  | 46#6 => some (.swr (rtField w) (rsField w) (immField w))
  | _ => none

/-- `Decode(w)` (R58): total, and every word without a row is refused by name (R61). -/
def decode (w : Word) : Except DecodeError Instr :=
  match decodeRow w with
  | some i => .ok i
  | none => .error (.notInSpec w)

/-- The instruction in four bytes, the byte of the lowest address first (R33, R50). -/
def decodeBytes (b0 b1 b2 b3 : Byte) : Except DecodeError Instr := decode (leValue [b0, b1, b2, b3])

/-! ## Encoding -/

/-- A register number as a 5-bit field. -/
def regBits (r : Reg) : BitVec 5 := BitVec.ofFin r

/-- Immediate format: `opcode ‖ rs ‖ rt ‖ imm` (R54). -/
def immFormat (op : BitVec 6) (rs rt : BitVec 5) (imm : Half) : Word := op ++ rs ++ rt ++ imm

/-- Jump format: `opcode ‖ target` (R55). -/
def jumpFormat (op : BitVec 6) (target : BitVec 26) : Word := op ++ target

/-- Register format: `opcode ‖ rs ‖ rt ‖ rd ‖ sa ‖ funct` (R56), opcode 0. -/
def regFormat (rs rt rd : BitVec 5) (sa : Shamt) (funct : BitVec 6) : Word :=
  0#6 ++ rs ++ rt ++ rd ++ sa ++ funct

/-- Register format with a 20-bit code in place of rs, rt, rd and sa (Table R59, C5). -/
def codeFormat (code : BitVec 20) (funct : BitVec 6) : Word := 0#6 ++ code ++ funct

/-- Register format with a 10-bit code in place of rd and sa (Table R59). -/
def trapFormat (rs rt : BitVec 5) (code : BitVec 10) (funct : BitVec 6) : Word :=
  0#6 ++ rs ++ rt ++ code ++ funct

/-- The word of an instruction, from the formats R54 to R56 and the numbers of Tables R60a to R60c;
unused fields are zero (R62). -/
def encode : Instr → Word
  | .lb rt rs imm => immFormat 32#6 (regBits rs) (regBits rt) imm
  | .lbu rt rs imm => immFormat 36#6 (regBits rs) (regBits rt) imm
  | .lh rt rs imm => immFormat 33#6 (regBits rs) (regBits rt) imm
  | .lhu rt rs imm => immFormat 37#6 (regBits rs) (regBits rt) imm
  | .lw rt rs imm => immFormat 35#6 (regBits rs) (regBits rt) imm
  | .lwl rt rs imm => immFormat 34#6 (regBits rs) (regBits rt) imm
  | .lwr rt rs imm => immFormat 38#6 (regBits rs) (regBits rt) imm
  | .sb rt rs imm => immFormat 40#6 (regBits rs) (regBits rt) imm
  | .sh rt rs imm => immFormat 41#6 (regBits rs) (regBits rt) imm
  | .sw rt rs imm => immFormat 43#6 (regBits rs) (regBits rt) imm
  | .swl rt rs imm => immFormat 42#6 (regBits rs) (regBits rt) imm
  | .swr rt rs imm => immFormat 46#6 (regBits rs) (regBits rt) imm
  | .add rd rs rt => regFormat (regBits rs) (regBits rt) (regBits rd) 0#5 32#6
  | .addu rd rs rt => regFormat (regBits rs) (regBits rt) (regBits rd) 0#5 33#6
  | .sub rd rs rt => regFormat (regBits rs) (regBits rt) (regBits rd) 0#5 34#6
  | .subu rd rs rt => regFormat (regBits rs) (regBits rt) (regBits rd) 0#5 35#6
  | .and rd rs rt => regFormat (regBits rs) (regBits rt) (regBits rd) 0#5 36#6
  | .or rd rs rt => regFormat (regBits rs) (regBits rt) (regBits rd) 0#5 37#6
  | .xor rd rs rt => regFormat (regBits rs) (regBits rt) (regBits rd) 0#5 38#6
  | .nor rd rs rt => regFormat (regBits rs) (regBits rt) (regBits rd) 0#5 39#6
  | .slt rd rs rt => regFormat (regBits rs) (regBits rt) (regBits rd) 0#5 42#6
  | .sltu rd rs rt => regFormat (regBits rs) (regBits rt) (regBits rd) 0#5 43#6
  | .addi rt rs imm => immFormat 8#6 (regBits rs) (regBits rt) imm
  | .addiu rt rs imm => immFormat 9#6 (regBits rs) (regBits rt) imm
  | .slti rt rs imm => immFormat 10#6 (regBits rs) (regBits rt) imm
  | .sltiu rt rs imm => immFormat 11#6 (regBits rs) (regBits rt) imm
  | .andi rt rs imm => immFormat 12#6 (regBits rs) (regBits rt) imm
  | .ori rt rs imm => immFormat 13#6 (regBits rs) (regBits rt) imm
  | .xori rt rs imm => immFormat 14#6 (regBits rs) (regBits rt) imm
  | .lui rt imm => immFormat 15#6 0#5 (regBits rt) imm
  | .sll rd rt sa => regFormat 0#5 (regBits rt) (regBits rd) sa 0#6
  | .srl rd rt sa => regFormat 0#5 (regBits rt) (regBits rd) sa 2#6
  | .sra rd rt sa => regFormat 0#5 (regBits rt) (regBits rd) sa 3#6
  | .sllv rd rt rs => regFormat (regBits rs) (regBits rt) (regBits rd) 0#5 4#6
  | .srlv rd rt rs => regFormat (regBits rs) (regBits rt) (regBits rd) 0#5 6#6
  | .srav rd rt rs => regFormat (regBits rs) (regBits rt) (regBits rd) 0#5 7#6
  | .mult rs rt => regFormat (regBits rs) (regBits rt) 0#5 0#5 24#6
  | .multu rs rt => regFormat (regBits rs) (regBits rt) 0#5 0#5 25#6
  | .div rs rt => regFormat (regBits rs) (regBits rt) 0#5 0#5 26#6
  | .divu rs rt => regFormat (regBits rs) (regBits rt) 0#5 0#5 27#6
  | .mfhi rd => regFormat 0#5 0#5 (regBits rd) 0#5 16#6
  | .mthi rs => regFormat (regBits rs) 0#5 0#5 0#5 17#6
  | .mflo rd => regFormat 0#5 0#5 (regBits rd) 0#5 18#6
  | .mtlo rs => regFormat (regBits rs) 0#5 0#5 0#5 19#6
  | .j target => jumpFormat 2#6 target
  | .jal target => jumpFormat 3#6 target
  | .jr rs => regFormat (regBits rs) 0#5 0#5 0#5 8#6
  | .jalr rd rs => regFormat (regBits rs) 0#5 (regBits rd) 0#5 9#6
  | .syscall code => codeFormat code 12#6
  | .brk code => codeFormat code 13#6
  | .tge rs rt code => trapFormat (regBits rs) (regBits rt) code 48#6
  | .tgeu rs rt code => trapFormat (regBits rs) (regBits rt) code 49#6
  | .tlt rs rt code => trapFormat (regBits rs) (regBits rt) code 50#6
  | .tltu rs rt code => trapFormat (regBits rs) (regBits rt) code 51#6
  | .teq rs rt code => trapFormat (regBits rs) (regBits rt) code 52#6
  | .tne rs rt code => trapFormat (regBits rs) (regBits rt) code 54#6
  | .tgei rs imm => immFormat 1#6 (regBits rs) 8#5 imm
  | .tgeiu rs imm => immFormat 1#6 (regBits rs) 9#5 imm
  | .tlti rs imm => immFormat 1#6 (regBits rs) 10#5 imm
  | .tltiu rs imm => immFormat 1#6 (regBits rs) 11#5 imm
  | .teqi rs imm => immFormat 1#6 (regBits rs) 12#5 imm
  | .tnei rs imm => immFormat 1#6 (regBits rs) 14#5 imm

/-! ## The opcode table as masks and matches (R58) -/

/-- The three instruction formats (R53). -/
inductive Format where
  | immediate
  | jump
  | register
deriving DecidableEq, Repr

/-- A row of spec/opcode_table.json: a word `w` is the row's if `w & mask = value` (R58). -/
structure Row where
  mnemonic : String
  format : Format
  value : Word
  mask : Word
deriving DecidableEq, Repr

/-- Whether a word is a row's (R58). -/
def Row.accepts (r : Row) (w : Word) : Bool := w &&& r.mask == r.value

/-- The row of an instruction: mnemonic, format, match and mask as spec/opcode_table.json gives
them. -/
def rowOf : Instr → Row
  | .lb _ _ _ => ⟨"LB", .immediate, 0x80000000#32, 0xFC000000#32⟩
  | .lbu _ _ _ => ⟨"LBU", .immediate, 0x90000000#32, 0xFC000000#32⟩
  | .lh _ _ _ => ⟨"LH", .immediate, 0x84000000#32, 0xFC000000#32⟩
  | .lhu _ _ _ => ⟨"LHU", .immediate, 0x94000000#32, 0xFC000000#32⟩
  | .lw _ _ _ => ⟨"LW", .immediate, 0x8C000000#32, 0xFC000000#32⟩
  | .lwl _ _ _ => ⟨"LWL", .immediate, 0x88000000#32, 0xFC000000#32⟩
  | .lwr _ _ _ => ⟨"LWR", .immediate, 0x98000000#32, 0xFC000000#32⟩
  | .sb _ _ _ => ⟨"SB", .immediate, 0xA0000000#32, 0xFC000000#32⟩
  | .sh _ _ _ => ⟨"SH", .immediate, 0xA4000000#32, 0xFC000000#32⟩
  | .sw _ _ _ => ⟨"SW", .immediate, 0xAC000000#32, 0xFC000000#32⟩
  | .swl _ _ _ => ⟨"SWL", .immediate, 0xA8000000#32, 0xFC000000#32⟩
  | .swr _ _ _ => ⟨"SWR", .immediate, 0xB8000000#32, 0xFC000000#32⟩
  | .add _ _ _ => ⟨"ADD", .register, 0x00000020#32, 0xFC0007FF#32⟩
  | .addu _ _ _ => ⟨"ADDU", .register, 0x00000021#32, 0xFC0007FF#32⟩
  | .sub _ _ _ => ⟨"SUB", .register, 0x00000022#32, 0xFC0007FF#32⟩
  | .subu _ _ _ => ⟨"SUBU", .register, 0x00000023#32, 0xFC0007FF#32⟩
  | .and _ _ _ => ⟨"AND", .register, 0x00000024#32, 0xFC0007FF#32⟩
  | .or _ _ _ => ⟨"OR", .register, 0x00000025#32, 0xFC0007FF#32⟩
  | .xor _ _ _ => ⟨"XOR", .register, 0x00000026#32, 0xFC0007FF#32⟩
  | .nor _ _ _ => ⟨"NOR", .register, 0x00000027#32, 0xFC0007FF#32⟩
  | .slt _ _ _ => ⟨"SLT", .register, 0x0000002A#32, 0xFC0007FF#32⟩
  | .sltu _ _ _ => ⟨"SLTU", .register, 0x0000002B#32, 0xFC0007FF#32⟩
  | .addi _ _ _ => ⟨"ADDI", .immediate, 0x20000000#32, 0xFC000000#32⟩
  | .addiu _ _ _ => ⟨"ADDIU", .immediate, 0x24000000#32, 0xFC000000#32⟩
  | .slti _ _ _ => ⟨"SLTI", .immediate, 0x28000000#32, 0xFC000000#32⟩
  | .sltiu _ _ _ => ⟨"SLTIU", .immediate, 0x2C000000#32, 0xFC000000#32⟩
  | .andi _ _ _ => ⟨"ANDI", .immediate, 0x30000000#32, 0xFC000000#32⟩
  | .ori _ _ _ => ⟨"ORI", .immediate, 0x34000000#32, 0xFC000000#32⟩
  | .xori _ _ _ => ⟨"XORI", .immediate, 0x38000000#32, 0xFC000000#32⟩
  | .lui _ _ => ⟨"LUI", .immediate, 0x3C000000#32, 0xFFE00000#32⟩
  | .sll _ _ _ => ⟨"SLL", .register, 0x00000000#32, 0xFFE0003F#32⟩
  | .srl _ _ _ => ⟨"SRL", .register, 0x00000002#32, 0xFFE0003F#32⟩
  | .sra _ _ _ => ⟨"SRA", .register, 0x00000003#32, 0xFFE0003F#32⟩
  | .sllv _ _ _ => ⟨"SLLV", .register, 0x00000004#32, 0xFC0007FF#32⟩
  | .srlv _ _ _ => ⟨"SRLV", .register, 0x00000006#32, 0xFC0007FF#32⟩
  | .srav _ _ _ => ⟨"SRAV", .register, 0x00000007#32, 0xFC0007FF#32⟩
  | .mult _ _ => ⟨"MULT", .register, 0x00000018#32, 0xFC00FFFF#32⟩
  | .multu _ _ => ⟨"MULTU", .register, 0x00000019#32, 0xFC00FFFF#32⟩
  | .div _ _ => ⟨"DIV", .register, 0x0000001A#32, 0xFC00FFFF#32⟩
  | .divu _ _ => ⟨"DIVU", .register, 0x0000001B#32, 0xFC00FFFF#32⟩
  | .mfhi _ => ⟨"MFHI", .register, 0x00000010#32, 0xFFFF07FF#32⟩
  | .mthi _ => ⟨"MTHI", .register, 0x00000011#32, 0xFC1FFFFF#32⟩
  | .mflo _ => ⟨"MFLO", .register, 0x00000012#32, 0xFFFF07FF#32⟩
  | .mtlo _ => ⟨"MTLO", .register, 0x00000013#32, 0xFC1FFFFF#32⟩
  | .j _ => ⟨"J", .jump, 0x08000000#32, 0xFC000000#32⟩
  | .jal _ => ⟨"JAL", .jump, 0x0C000000#32, 0xFC000000#32⟩
  | .jr _ => ⟨"JR", .register, 0x00000008#32, 0xFC1FFFFF#32⟩
  | .jalr _ _ => ⟨"JALR", .register, 0x00000009#32, 0xFC1F07FF#32⟩
  | .syscall _ => ⟨"SYSCALL", .register, 0x0000000C#32, 0xFC00003F#32⟩
  | .brk _ => ⟨"BREAK", .register, 0x0000000D#32, 0xFC00003F#32⟩
  | .tge _ _ _ => ⟨"TGE", .register, 0x00000030#32, 0xFC00003F#32⟩
  | .tgeu _ _ _ => ⟨"TGEU", .register, 0x00000031#32, 0xFC00003F#32⟩
  | .tlt _ _ _ => ⟨"TLT", .register, 0x00000032#32, 0xFC00003F#32⟩
  | .tltu _ _ _ => ⟨"TLTU", .register, 0x00000033#32, 0xFC00003F#32⟩
  | .teq _ _ _ => ⟨"TEQ", .register, 0x00000034#32, 0xFC00003F#32⟩
  | .tne _ _ _ => ⟨"TNE", .register, 0x00000036#32, 0xFC00003F#32⟩
  | .tgei _ _ => ⟨"TGEI", .immediate, 0x04080000#32, 0xFC1F0000#32⟩
  | .tgeiu _ _ => ⟨"TGEIU", .immediate, 0x04090000#32, 0xFC1F0000#32⟩
  | .tlti _ _ => ⟨"TLTI", .immediate, 0x040A0000#32, 0xFC1F0000#32⟩
  | .tltiu _ _ => ⟨"TLTIU", .immediate, 0x040B0000#32, 0xFC1F0000#32⟩
  | .teqi _ _ => ⟨"TEQI", .immediate, 0x040C0000#32, 0xFC1F0000#32⟩
  | .tnei _ _ => ⟨"TNEI", .immediate, 0x040E0000#32, 0xFC1F0000#32⟩

/-- Rows 1 to 12 of the opcode table. -/
def loadStoreRows : List Row := [
  ⟨"LB", .immediate, 0x80000000#32, 0xFC000000#32⟩,
  ⟨"LBU", .immediate, 0x90000000#32, 0xFC000000#32⟩,
  ⟨"LH", .immediate, 0x84000000#32, 0xFC000000#32⟩,
  ⟨"LHU", .immediate, 0x94000000#32, 0xFC000000#32⟩,
  ⟨"LW", .immediate, 0x8C000000#32, 0xFC000000#32⟩,
  ⟨"LWL", .immediate, 0x88000000#32, 0xFC000000#32⟩,
  ⟨"LWR", .immediate, 0x98000000#32, 0xFC000000#32⟩,
  ⟨"SB", .immediate, 0xA0000000#32, 0xFC000000#32⟩,
  ⟨"SH", .immediate, 0xA4000000#32, 0xFC000000#32⟩,
  ⟨"SW", .immediate, 0xAC000000#32, 0xFC000000#32⟩,
  ⟨"SWL", .immediate, 0xA8000000#32, 0xFC000000#32⟩,
  ⟨"SWR", .immediate, 0xB8000000#32, 0xFC000000#32⟩]

/-- Rows 13 to 30 of the opcode table. -/
def arithRows : List Row := [
  ⟨"ADD", .register, 0x00000020#32, 0xFC0007FF#32⟩,
  ⟨"ADDU", .register, 0x00000021#32, 0xFC0007FF#32⟩,
  ⟨"SUB", .register, 0x00000022#32, 0xFC0007FF#32⟩,
  ⟨"SUBU", .register, 0x00000023#32, 0xFC0007FF#32⟩,
  ⟨"AND", .register, 0x00000024#32, 0xFC0007FF#32⟩,
  ⟨"OR", .register, 0x00000025#32, 0xFC0007FF#32⟩,
  ⟨"XOR", .register, 0x00000026#32, 0xFC0007FF#32⟩,
  ⟨"NOR", .register, 0x00000027#32, 0xFC0007FF#32⟩,
  ⟨"SLT", .register, 0x0000002A#32, 0xFC0007FF#32⟩,
  ⟨"SLTU", .register, 0x0000002B#32, 0xFC0007FF#32⟩,
  ⟨"ADDI", .immediate, 0x20000000#32, 0xFC000000#32⟩,
  ⟨"ADDIU", .immediate, 0x24000000#32, 0xFC000000#32⟩,
  ⟨"SLTI", .immediate, 0x28000000#32, 0xFC000000#32⟩,
  ⟨"SLTIU", .immediate, 0x2C000000#32, 0xFC000000#32⟩,
  ⟨"ANDI", .immediate, 0x30000000#32, 0xFC000000#32⟩,
  ⟨"ORI", .immediate, 0x34000000#32, 0xFC000000#32⟩,
  ⟨"XORI", .immediate, 0x38000000#32, 0xFC000000#32⟩,
  ⟨"LUI", .immediate, 0x3C000000#32, 0xFFE00000#32⟩]

/-- Rows 31 to 36 of the opcode table. -/
def shiftRows : List Row := [
  ⟨"SLL", .register, 0x00000000#32, 0xFFE0003F#32⟩,
  ⟨"SRL", .register, 0x00000002#32, 0xFFE0003F#32⟩,
  ⟨"SRA", .register, 0x00000003#32, 0xFFE0003F#32⟩,
  ⟨"SLLV", .register, 0x00000004#32, 0xFC0007FF#32⟩,
  ⟨"SRLV", .register, 0x00000006#32, 0xFC0007FF#32⟩,
  ⟨"SRAV", .register, 0x00000007#32, 0xFC0007FF#32⟩]

/-- Rows 37 to 44 of the opcode table. -/
def mulDivRows : List Row := [
  ⟨"MULT", .register, 0x00000018#32, 0xFC00FFFF#32⟩,
  ⟨"MULTU", .register, 0x00000019#32, 0xFC00FFFF#32⟩,
  ⟨"DIV", .register, 0x0000001A#32, 0xFC00FFFF#32⟩,
  ⟨"DIVU", .register, 0x0000001B#32, 0xFC00FFFF#32⟩,
  ⟨"MFHI", .register, 0x00000010#32, 0xFFFF07FF#32⟩,
  ⟨"MTHI", .register, 0x00000011#32, 0xFC1FFFFF#32⟩,
  ⟨"MFLO", .register, 0x00000012#32, 0xFFFF07FF#32⟩,
  ⟨"MTLO", .register, 0x00000013#32, 0xFC1FFFFF#32⟩]

/-- Rows 45 to 48 of the opcode table. -/
def jumpRows : List Row := [
  ⟨"J", .jump, 0x08000000#32, 0xFC000000#32⟩,
  ⟨"JAL", .jump, 0x0C000000#32, 0xFC000000#32⟩,
  ⟨"JR", .register, 0x00000008#32, 0xFC1FFFFF#32⟩,
  ⟨"JALR", .register, 0x00000009#32, 0xFC1F07FF#32⟩]

/-- Rows 49 to 50 of the opcode table. -/
def specialRows : List Row := [
  ⟨"SYSCALL", .register, 0x0000000C#32, 0xFC00003F#32⟩,
  ⟨"BREAK", .register, 0x0000000D#32, 0xFC00003F#32⟩]

/-- Rows 51 to 62 of the opcode table. -/
def trapRows : List Row := [
  ⟨"TGE", .register, 0x00000030#32, 0xFC00003F#32⟩,
  ⟨"TGEU", .register, 0x00000031#32, 0xFC00003F#32⟩,
  ⟨"TLT", .register, 0x00000032#32, 0xFC00003F#32⟩,
  ⟨"TLTU", .register, 0x00000033#32, 0xFC00003F#32⟩,
  ⟨"TEQ", .register, 0x00000034#32, 0xFC00003F#32⟩,
  ⟨"TNE", .register, 0x00000036#32, 0xFC00003F#32⟩,
  ⟨"TGEI", .immediate, 0x04080000#32, 0xFC1F0000#32⟩,
  ⟨"TGEIU", .immediate, 0x04090000#32, 0xFC1F0000#32⟩,
  ⟨"TLTI", .immediate, 0x040A0000#32, 0xFC1F0000#32⟩,
  ⟨"TLTIU", .immediate, 0x040B0000#32, 0xFC1F0000#32⟩,
  ⟨"TEQI", .immediate, 0x040C0000#32, 0xFC1F0000#32⟩,
  ⟨"TNEI", .immediate, 0x040E0000#32, 0xFC1F0000#32⟩]

/-- The 62 rows of spec/opcode_table.json, in its order (written a second time: `rowOf` says which row
an instruction has, this list says which rows there are). -/
def opcodeRows : List Row :=
  loadStoreRows ++ arithRows ++ shiftRows ++ mulDivRows ++ jumpRows ++ specialRows ++ trapRows

/-! ## The host's reading of a table word -/

/-- The instruction read from the table word `w` of `nbits` bits (bits above are zero): its four bytes
laid out lowest first, as the hardware stores them (R32, R33), and decoded. -/
def decodeTableWord (nbits w : Nat) : Option Instr :=
  let v : Word := BitVec.ofNat 32 (w % 2 ^ nbits)
  (decodeBytes (byteOf v 0) (byteOf v 1) (byteOf v 2) (byteOf v 3)).toOption

end Sys2Proof
end

