-- ==== Sys2Proof/Machine/Operands.lean ====
section
/-! DEFINITION. How each operand is assembled from its field (Table R59), and which addresses an
access of a given width needs (R34, R35). -/

namespace Sys2Proof.Machine

/-- `sext_32(imm)`: the arithmetic immediate and the load/store offset (Table R59). -/
def sextImm (imm : Half) : Word := imm.signExtend 32

/-- `zext_32(imm)`: the logical immediate (Table R59). -/
def zextImm (imm : Half) : Word := imm.setWidth 32

/-- `imm ‖ 0^16`: the upper immediate (Table R59). -/
def upperImm (imm : Half) : Word := imm ++ 0#16

/-- `x[rs][4:0]`: the variable shift amount (Table R59). -/
def shiftAmount (v : Word) : Shamt := v.extractLsb' 0 5

/-- The target of J and JAL (Table R59, R146): `(pc + 4)[31:28] ‖ target ‖ 0b00`, `pc` being the
jump's own address. -/
def jumpTarget (pc : Word) (target : BitVec 26) : Word :=
  (pc + 4#32).extractLsb' 28 4 ++ target ++ 0#2

/-- Whether an address is a multiple of `n` (R34); `n` is 2 or 4. -/
def alignedTo (n : Nat) (a : Word) : Bool := a.toNat % n == 0

/-- `b = ea[1:0]` of LWL, LWR, SWL and SWR (R35). -/
def lowBits (ea : Word) : Nat := ea.toNat % 4

/-- `A = ea & 0xFFFFFFFC`, the address of the aligned word that holds `ea` (R35). -/
def wordBase (ea : Word) : Word := ea &&& 0xFFFFFFFC#32

end Sys2Proof.Machine
end

