-- ==== Sys2Proof/Machine/Ops.lean ====
section
/-! DEFINITION. The named operations over registers, memory and sequencing that the meanings share
(R7), taking an exception (R181 to R183), and the fetch (R19 steps 1 to 4). -/

namespace Sys2Proof.Machine

/-- What a step or a meaning answers. -/
abbrev Answer := Host.Outcome State Fault Refusal

/-! ## Registers (R7, R12) -/

/-- `x[r]`; `x[0]` reads 0. -/
def State.readReg (s : State) (r : Reg) : Word := if r = 0 then 0#32 else s.regs.get r

/-- `x[r] <- v`; a write of `x[0]` is discarded. -/
def State.writeReg (s : State) (r : Reg) (v : Word) : State :=
  if r = 0 then s else { s with regs := s.regs.set r.val v r.isLt }

/-- `HI <- h; LO <- l`. -/
def State.writeHiLo (s : State) (h l : Word) : State := { s with hi := h, lo := l }

/-- `HI <- any; LO <- any` (R132, R133): two fresh draws (R7, log 10). -/
def State.drawHiLo (s : State) : State :=
  { s with hi := Config.anyWord s.draws, lo := Config.anyWord (s.draws + 1), draws := s.draws + 2 }

/-! ## Sequencing (R19 step 7, R26(c)) -/

/-- `HILO_HAZARD_DISTANCE` (R204). -/
def State.hazardDistance (s : State) : Nat := s.params.hazard.toNat

/-- The end of an instruction that ran: `pc <- npc; npc <- npc + 4; bd <- 0`, and `hilo_age` counts
it (R19 step 7, R26(c)). -/
def State.retire (s : State) : State :=
  { s with pc := s.npc, npc := s.npc + 4#32, bd := false,
           hiloAge := min (s.hiloAge + 1) s.hazardDistance }

/-- The end of MFHI and MFLO: as `retire`, but `hilo_age <- 0` (R134, R136). -/
def State.retireHiLoRead (s : State) : State := { s.retire with hiloAge := 0 }

/-- The end of a jump: as `retire`, but `npc <- T; bd <- 1` (R145). -/
def State.retireJump (s : State) (target : Word) : State := { s.retire with npc := target, bd := true }

/-! ## Exceptions and refusals (R181 to R183) -/

/-- Taking an exception (R181, R182): `outcome` becomes the fault record, and everything else keeps
the value it had before the instruction. There is no vector, no handler and no return (R186). -/
def raise (c : Cause) (s : State) : Answer :=
  .next { s with outcome := .fault ⟨c, s.pc, s.bd⟩ }

/-- A trap (R160): raises Trap if the condition holds, else does nothing. -/
def trapIf (cond : Bool) (code : Option (BitVec 10)) (s : State) : Answer :=
  if cond then raise (.trap code) s else .next s.retire

/-- The writers of HI and LO (R204): refused while `hilo_age < HILO_HAZARD_DISTANCE`. -/
def unlessHazard (s : State) (answer : Answer) : Answer :=
  if s.hiloAge < s.hazardDistance then .refused .hiLoHazard else answer

/-- The jumps (R150, R19 step 6): refused in a delay slot, before any effect (log 11). -/
def unlessDelaySlot (s : State) (answer : Answer) : Answer :=
  if s.bd then .refused .jumpInDelaySlot else answer

/-- ADD, SUB and ADDI (R90): raises IntegerOverflow if the exact result does not fit, else writes it
modulo 2^32. -/
def writeExact (s : State) (rd : Reg) (t : Int) : Answer :=
  if fitsSigned t then .next (s.writeReg rd (BitVec.ofInt 32 t)).retire else raise .integerOverflow s

/-! ## Memory (R32, R36) -/

/-- `M[a]`. -/
def State.byteAt (s : State) (a : Word) : Byte := s.mem.get a.toNat

/-- `MAPPED(a)` (R36). -/
def State.isMapped (s : State) (a : Word) : Bool := mappedAt s.params a.toNat

/-- The bytes `M[a]`, `M[a+1]`, ..., `M[a+n-1]`; addresses wrap modulo 2^32 (R32). -/
def State.bytesAt (s : State) (a : Word) : Nat → List Byte
  | 0 => []
  | n + 1 => s.byteAt a :: s.bytesAt (a + 1#32) n

/-- The first of the `n` addresses from `a` on that is not mapped, if there is one (R36, log 9). -/
def State.firstUnmapped (s : State) (a : Word) : Nat → Option Word
  | 0 => none
  | n + 1 => if s.isMapped a then s.firstUnmapped (a + 1#32) n else some a

/-- The bytes of `MemRead(a, n)`: stuck if one of them is not mapped (R32, R36). -/
def State.memRead (s : State) (a : Word) (n : Nat) : Except Fault (List Byte) :=
  match s.firstUnmapped a n with
  | some u => .error (.stuck u)
  | none => .ok (s.bytesAt a n)

/-- `M[a] <- v; dirty <- dirty ∪ (the set of a)` (R32). -/
def State.storeByte (s : State) (a : Word) (v : Byte) : State :=
  { s with mem := s.mem.set a.toNat v, dirty := AddrSet.insert a.toNat s.dirty }

/-- Stores bytes at rising addresses from `a` on. -/
def State.storeBytes (s : State) (a : Word) : List Byte → State
  | [] => s
  | v :: vs => (s.storeByte a v).storeBytes (a + 1#32) vs

/-- `MemWrite` of the given bytes from `a` on: stuck, with no byte written, if one of them is not
mapped (R32, R36, R78). -/
def State.memWrite (s : State) (a : Word) (vs : List Byte) : Except Fault State :=
  match s.firstUnmapped a vs.length with
  | some u => .error (.stuck u)
  | none => .ok (s.storeBytes a vs)

/-- `ea = x[rs] + sext_32(imm)` modulo 2^32 (R70). -/
def State.effAddr (s : State) (rs : Reg) (imm : Half) : Word := s.readReg rs + sextImm imm

/-- A load: reads `n` bytes from `a` on and writes to `rt` what `value` makes of them (R70). -/
def loadInto (s : State) (rt : Reg) (a : Word) (n : Nat) (value : List Byte → Word) : Answer :=
  match s.memRead a n with
  | .error f => .fault f
  | .ok bs => .next (s.writeReg rt (value bs)).retire

/-- A store: writes the bytes from `a` on (R78). -/
def storeFrom (s : State) (a : Word) (vs : List Byte) : Answer :=
  match s.memWrite a vs with
  | .error f => .fault f
  | .ok t => .next t.retire

/-! ## Fetch (R19 steps 1 to 4, R184 (1) to (3)) -/

/-- Whether one of the `n` addresses from `a` on has been stored to (R43). -/
def State.anyDirty (s : State) (a : Word) : Nat → Bool
  | 0 => false
  | n + 1 => s.dirty.contains a.toNat || s.anyDirty (a + 1#32) n

/-- The word at `pc`, or the answer of the step that cannot fetch one: AddressError for a misaligned
`pc`, then stuck, then FetchAfterStore (R19 steps 1 to 4, R33). -/
def fetch (s : State) : Except Answer Word :=
  if alignedTo 4 s.pc then
    match s.memRead s.pc 4 with
    | .error f => .error (.fault f)
    | .ok bs => if s.anyDirty s.pc 4 then .error (.refused .fetchAfterStore) else .ok (leValue bs)
  else .error (raise (.addressError .fetch s.pc) s)

/-! ## Placing a word for the fetch (R201, log 14, log 15) -/

/-- Puts bytes into the launch image from `a` on: they are memory's bytes, and not stored-to. -/
def State.placeBytes (s : State) (a : Word) : List Byte → State
  | [] => s
  | v :: vs =>
    State.placeBytes { s with mem := s.mem.set a.toNat v,
                              dirty := s.dirty.filter (fun b => b != a.toNat) } (a + 1#32) vs

/-- Places the word where the next fetch reads it, and maps its four bytes if one is not mapped. -/
def State.placeWord (s : State) (w : Word) : State :=
  let t := s.placeBytes s.pc (leBytes w)
  match t.firstUnmapped t.pc 4 with
  | none => t
  | some _ => { t with params := { t.params with mapped := ⟨t.pc.toNat, 4⟩ :: t.params.mapped } }

end Sys2Proof.Machine
end

