-- ==== Sys2Proof/Machine/Arith.lean ====
section
/-! DEFINITION. Arithmetic and logic, register format (R90 to R100). -/

namespace Sys2Proof.Machine

/-- ADD (R91): `x[rd] <- x[rs] + x[rt]`, or IntegerOverflow. -/
def execAdd (rd rs rt : Reg) (s : State) : Answer :=
  writeExact s rd ((s.readReg rs).toInt + (s.readReg rt).toInt)

/-- ADDU (R92): `x[rd] <- x[rs] + x[rt]` modulo 2^32. -/
def execAddu (rd rs rt : Reg) (s : State) : Answer :=
  .next (s.writeReg rd (s.readReg rs + s.readReg rt)).retire

/-- SUB (R93): `x[rd] <- x[rs] - x[rt]`, or IntegerOverflow. -/
def execSub (rd rs rt : Reg) (s : State) : Answer :=
  writeExact s rd ((s.readReg rs).toInt - (s.readReg rt).toInt)

/-- SUBU (R94): `x[rd] <- x[rs] - x[rt]` modulo 2^32. -/
def execSubu (rd rs rt : Reg) (s : State) : Answer :=
  .next (s.writeReg rd (s.readReg rs - s.readReg rt)).retire

/-- AND (R95). -/
def execAnd (rd rs rt : Reg) (s : State) : Answer :=
  .next (s.writeReg rd (s.readReg rs &&& s.readReg rt)).retire

/-- OR (R96). -/
def execOr (rd rs rt : Reg) (s : State) : Answer :=
  .next (s.writeReg rd (s.readReg rs ||| s.readReg rt)).retire

/-- XOR (R97). -/
def execXor (rd rs rt : Reg) (s : State) : Answer :=
  .next (s.writeReg rd (s.readReg rs ^^^ s.readReg rt)).retire

/-- NOR (R98). -/
def execNor (rd rs rt : Reg) (s : State) : Answer :=
  .next (s.writeReg rd (~~~(s.readReg rs ||| s.readReg rt))).retire

/-- SLT (R99): signed comparison. -/
def execSlt (rd rs rt : Reg) (s : State) : Answer :=
  .next (s.writeReg rd (truthWord (ltSigned (s.readReg rs) (s.readReg rt)))).retire

/-- SLTU (R100): unsigned comparison. -/
def execSltu (rd rs rt : Reg) (s : State) : Answer :=
  .next (s.writeReg rd (truthWord (ltUnsigned (s.readReg rs) (s.readReg rt)))).retire

end Sys2Proof.Machine
end

