-- ==== Sys2Proof/Machine/ArithImm.lean ====
section
/-! DEFINITION. Arithmetic and logic, immediate format (R90, R101 to R108). -/

namespace Sys2Proof.Machine

/-- ADDI (R101): `x[rt] <- x[rs] + sext(imm)`, or IntegerOverflow. -/
def execAddi (rt rs : Reg) (imm : Half) (s : State) : Answer :=
  writeExact s rt ((s.readReg rs).toInt + (sextImm imm).toInt)

/-- ADDIU (R102): `x[rt] <- x[rs] + sext(imm)` modulo 2^32. -/
def execAddiu (rt rs : Reg) (imm : Half) (s : State) : Answer :=
  .next (s.writeReg rt (s.readReg rs + sextImm imm)).retire

/-- SLTI (R103): signed comparison. -/
def execSlti (rt rs : Reg) (imm : Half) (s : State) : Answer :=
  .next (s.writeReg rt (truthWord (ltSigned (s.readReg rs) (sextImm imm)))).retire

/-- SLTIU (R104): the sign-extended immediate, compared unsigned. -/
def execSltiu (rt rs : Reg) (imm : Half) (s : State) : Answer :=
  .next (s.writeReg rt (truthWord (ltUnsigned (s.readReg rs) (sextImm imm)))).retire

/-- ANDI (R105). -/
def execAndi (rt rs : Reg) (imm : Half) (s : State) : Answer :=
  .next (s.writeReg rt (s.readReg rs &&& zextImm imm)).retire

/-- ORI (R106). -/
def execOri (rt rs : Reg) (imm : Half) (s : State) : Answer :=
  .next (s.writeReg rt (s.readReg rs ||| zextImm imm)).retire

/-- XORI (R107). -/
def execXori (rt rs : Reg) (imm : Half) (s : State) : Answer :=
  .next (s.writeReg rt (s.readReg rs ^^^ zextImm imm)).retire

/-- LUI (R108). -/
def execLui (rt : Reg) (imm : Half) (s : State) : Answer :=
  .next (s.writeReg rt (upperImm imm)).retire

end Sys2Proof.Machine
end

