-- ==== Sys2Proof/Machine/Jump.lean ====
section
/-! DEFINITION. Jumps and the delay slot (R145 to R150). -/

namespace Sys2Proof.Machine

/-- J (R146). -/
def execJ (target : BitVec 26) (s : State) : Answer :=
  unlessDelaySlot s (.next (s.retireJump (jumpTarget s.pc target)))

/-- JAL (R147): `x[31] <- pc + 8`. -/
def execJal (target : BitVec 26) (s : State) : Answer :=
  unlessDelaySlot s (.next ((s.writeReg 31 (s.pc + 8#32)).retireJump (jumpTarget s.pc target)))

/-- JR (R148). -/
def execJr (rs : Reg) (s : State) : Answer :=
  unlessDelaySlot s (.next (s.retireJump (s.readReg rs)))

/-- JALR (R149): `x[rd] <- pc + 8`; refused for rd = rs. -/
def execJalr (rd rs : Reg) (s : State) : Answer :=
  unlessDelaySlot s
    (if rd = rs then .refused .jalrSameRegister
     else .next ((s.writeReg rd (s.pc + 8#32)).retireJump (s.readReg rs)))

end Sys2Proof.Machine
end

