-- ==== Sys2Proof/Machine/Load.lean ====
section
/-! DEFINITION. The loads (R70 to R77). -/

namespace Sys2Proof.Machine

/-- LB (R71): load byte, sign-extended. -/
def execLb (rt rs : Reg) (imm : Half) (s : State) : Answer :=
  loadInto s rt (s.effAddr rs imm) 1 (fun bs => ((leValue bs).setWidth 8).signExtend 32)

/-- LBU (R72): load byte, zero-extended. -/
def execLbu (rt rs : Reg) (imm : Half) (s : State) : Answer :=
  loadInto s rt (s.effAddr rs imm) 1 (fun bs => ((leValue bs).setWidth 8).setWidth 32)

/-- LH (R73): load halfword, sign-extended; AddressError at an odd address. -/
def execLh (rt rs : Reg) (imm : Half) (s : State) : Answer :=
  if alignedTo 2 (s.effAddr rs imm) then
    loadInto s rt (s.effAddr rs imm) 2 (fun bs => ((leValue bs).setWidth 16).signExtend 32)
  else raise (.addressError .load (s.effAddr rs imm)) s

/-- LHU (R74): load halfword, zero-extended; AddressError at an odd address. -/
def execLhu (rt rs : Reg) (imm : Half) (s : State) : Answer :=
  if alignedTo 2 (s.effAddr rs imm) then
    loadInto s rt (s.effAddr rs imm) 2 (fun bs => ((leValue bs).setWidth 16).setWidth 32)
  else raise (.addressError .load (s.effAddr rs imm)) s

/-- LW (R75): load word; AddressError unless the address is a multiple of 4. -/
def execLw (rt rs : Reg) (imm : Half) (s : State) : Answer :=
  if alignedTo 4 (s.effAddr rs imm) then
    loadInto s rt (s.effAddr rs imm) 4 leValue
  else raise (.addressError .load (s.effAddr rs imm)) s

/-- The value LWL writes (R76): the bytes read become the high-order bytes of `old`, whose
low-order bytes stay. -/
def mergeLeft (old : Word) (bs : List Byte) : Word := leValue ((leBytes old).take (4 - bs.length) ++ bs)

/-- The value LWR writes (R77): the bytes read become the low-order bytes of `old`, whose
high-order bytes stay. -/
def mergeRight (old : Word) (bs : List Byte) : Word := leValue (bs ++ (leBytes old).drop bs.length)

/-- LWL (R76): the `b + 1` bytes `A .. A+b` into the high-order bytes of rt. -/
def execLwl (rt rs : Reg) (imm : Half) (s : State) : Answer :=
  let ea := s.effAddr rs imm
  loadInto s rt (wordBase ea) (lowBits ea + 1) (mergeLeft (s.readReg rt))

/-- LWR (R77): the `4 - b` bytes `ea .. A+3` into the low-order bytes of rt. -/
def execLwr (rt rs : Reg) (imm : Half) (s : State) : Answer :=
  let ea := s.effAddr rs imm
  loadInto s rt ea (4 - lowBits ea) (mergeRight (s.readReg rt))

end Sys2Proof.Machine
end

