-- ==== Sys2Proof/Machine/MulDiv.lean ====
section
/-! DEFINITION. Multiply, divide and the HI/LO moves (R130 to R138, R204). -/

namespace Sys2Proof.Machine

/-- `HI <- p[63:32]; LO <- p[31:0]` for a 64-bit product (R21). -/
def State.writeProduct (s : State) (p : BitVec 64) : State :=
  s.writeHiLo (p.extractLsb' 32 32) (p.extractLsb' 0 32)

/-- MULT (R130): the exact signed product. -/
def execMult (rs rt : Reg) (s : State) : Answer :=
  unlessHazard s
    (.next (s.writeProduct (BitVec.ofInt 64 ((s.readReg rs).toInt * (s.readReg rt).toInt))).retire)

/-- MULTU (R131): the exact unsigned product. -/
def execMultu (rs rt : Reg) (s : State) : Answer :=
  unlessHazard s
    (.next (s.writeProduct (BitVec.ofNat 64 ((s.readReg rs).toNat * (s.readReg rt).toNat))).retire)

/-- DIV (R132): the quotient truncated toward zero to LO, the remainder with the dividend's sign to HI;
`any` in both for a zero divisor and for -2^31 / -1. -/
def execDiv (rs rt : Reg) (s : State) : Answer :=
  let n := s.readReg rs
  let d := s.readReg rt
  unlessHazard s
    (if divUndefined n d then .next s.drawHiLo.retire
     else .next (s.writeHiLo (BitVec.ofInt 32 (n.toInt.tmod d.toInt)) (BitVec.ofInt 32 (n.toInt.tdiv d.toInt))).retire)

/-- DIVU (R133): quotient to LO, remainder to HI; `any` in both for a zero divisor. -/
def execDivu (rs rt : Reg) (s : State) : Answer :=
  let n := s.readReg rs
  let d := s.readReg rt
  unlessHazard s
    (if d = 0#32 then .next s.drawHiLo.retire
     else .next (s.writeHiLo (BitVec.ofNat 32 (n.toNat % d.toNat)) (BitVec.ofNat 32 (n.toNat / d.toNat))).retire)

/-- MFHI (R134). -/
def execMfhi (rd : Reg) (s : State) : Answer :=
  .next (s.writeReg rd s.hi).retireHiLoRead

/-- MTHI (R135); LO keeps its value (log 13). -/
def execMthi (rs : Reg) (s : State) : Answer :=
  unlessHazard s (.next (s.writeHiLo (s.readReg rs) s.lo).retire)

/-- MFLO (R136). -/
def execMflo (rd : Reg) (s : State) : Answer :=
  .next (s.writeReg rd s.lo).retireHiLoRead

/-- MTLO (R137); HI keeps its value (log 13). -/
def execMtlo (rs : Reg) (s : State) : Answer :=
  unlessHazard s (.next (s.writeHiLo s.hi (s.readReg rs)).retire)

end Sys2Proof.Machine
end

