-- ==== Sys2Proof/Machine/Shift.lean ====
section
/-! DEFINITION. Shifts (R120 to R126). -/

namespace Sys2Proof.Machine

/-- SLL (R121). -/
def execSll (rd rt : Reg) (sa : Shamt) (s : State) : Answer :=
  .next (s.writeReg rd (s.readReg rt <<< sa.toNat)).retire

/-- SRL (R122). -/
def execSrl (rd rt : Reg) (sa : Shamt) (s : State) : Answer :=
  .next (s.writeReg rd (s.readReg rt >>> sa.toNat)).retire

/-- SRA (R123). -/
def execSra (rd rt : Reg) (sa : Shamt) (s : State) : Answer :=
  .next (s.writeReg rd ((s.readReg rt).sshiftRight sa.toNat)).retire

/-- SLLV (R124): the amount is `x[rs][4:0]`. -/
def execSllv (rd rt rs : Reg) (s : State) : Answer :=
  .next (s.writeReg rd (s.readReg rt <<< (shiftAmount (s.readReg rs)).toNat)).retire

/-- SRLV (R125): the amount is `x[rs][4:0]`. -/
def execSrlv (rd rt rs : Reg) (s : State) : Answer :=
  .next (s.writeReg rd (s.readReg rt >>> (shiftAmount (s.readReg rs)).toNat)).retire

/-- SRAV (R126): the amount is `x[rs][4:0]`. -/
def execSrav (rd rt rs : Reg) (s : State) : Answer :=
  .next (s.writeReg rd ((s.readReg rt).sshiftRight (shiftAmount (s.readReg rs)).toNat)).retire

end Sys2Proof.Machine
end

