-- ==== Sys2Proof/Machine/Special.lean ====
section
/-! DEFINITION. System call and breakpoint (R155, R156). -/

namespace Sys2Proof.Machine

/-- SYSCALL (R155): raises SystemCall with its code. -/
def execSyscall (code : BitVec 20) (s : State) : Answer :=
  raise (.systemCall code) s

/-- BREAK (R156): raises Breakpoint with its code. -/
def execBrk (code : BitVec 20) (s : State) : Answer :=
  raise (.breakpoint code) s

end Sys2Proof.Machine
end

