-- ==== Sys2Proof/Machine/Store.lean ====
section
/-! DEFINITION. The stores (R70, R78 to R83). -/

namespace Sys2Proof.Machine

/-- SB (R79): store the low-order byte of rt. -/
def execSb (rt rs : Reg) (imm : Half) (s : State) : Answer :=
  storeFrom s (s.effAddr rs imm) ((leBytes (s.readReg rt)).take 1)

/-- SH (R80): store the low-order halfword of rt; AddressError at an odd address. -/
def execSh (rt rs : Reg) (imm : Half) (s : State) : Answer :=
  if alignedTo 2 (s.effAddr rs imm) then
    storeFrom s (s.effAddr rs imm) ((leBytes (s.readReg rt)).take 2)
  else raise (.addressError .store (s.effAddr rs imm)) s

/-- SW (R81): store rt; AddressError unless the address is a multiple of 4. -/
def execSw (rt rs : Reg) (imm : Half) (s : State) : Answer :=
  if alignedTo 4 (s.effAddr rs imm) then
    storeFrom s (s.effAddr rs imm) (leBytes (s.readReg rt))
  else raise (.addressError .store (s.effAddr rs imm)) s

/-- SWL (R82): the `b + 1` high-order bytes of rt into `A .. A+b`. -/
def execSwl (rt rs : Reg) (imm : Half) (s : State) : Answer :=
  let ea := s.effAddr rs imm
  storeFrom s (wordBase ea) ((leBytes (s.readReg rt)).drop (3 - lowBits ea))

/-- SWR (R83): the `4 - b` low-order bytes of rt into `ea .. A+3`. -/
def execSwr (rt rs : Reg) (imm : Half) (s : State) : Answer :=
  let ea := s.effAddr rs imm
  storeFrom s ea ((leBytes (s.readReg rt)).take (4 - lowBits ea))

end Sys2Proof.Machine
end

