-- ==== Sys2Proof/Machine/Trap.lean ====
section
/-! DEFINITION. The trap instructions (R160 to R172). -/

namespace Sys2Proof.Machine

/-- TGE (R161): trap if `x[rs] >=s x[rt]`. -/
def execTge (rs rt : Reg) (code : BitVec 10) (s : State) : Answer :=
  trapIf (!ltSigned (s.readReg rs) (s.readReg rt)) (some code) s

/-- TGEU (R162): trap if `x[rs] >=u x[rt]`. -/
def execTgeu (rs rt : Reg) (code : BitVec 10) (s : State) : Answer :=
  trapIf (!ltUnsigned (s.readReg rs) (s.readReg rt)) (some code) s

/-- TLT (R163): trap if `x[rs] <s x[rt]`. -/
def execTlt (rs rt : Reg) (code : BitVec 10) (s : State) : Answer :=
  trapIf (ltSigned (s.readReg rs) (s.readReg rt)) (some code) s

/-- TLTU (R164): trap if `x[rs] <u x[rt]`. -/
def execTltu (rs rt : Reg) (code : BitVec 10) (s : State) : Answer :=
  trapIf (ltUnsigned (s.readReg rs) (s.readReg rt)) (some code) s

/-- TEQ (R165): trap if `x[rs] = x[rt]`. -/
def execTeq (rs rt : Reg) (code : BitVec 10) (s : State) : Answer :=
  trapIf (s.readReg rs == s.readReg rt) (some code) s

/-- TNE (R166): trap if `x[rs] != x[rt]`. -/
def execTne (rs rt : Reg) (code : BitVec 10) (s : State) : Answer :=
  trapIf (s.readReg rs != s.readReg rt) (some code) s

/-- TGEI (R167): trap if `x[rs] >=s sext(imm)`. -/
def execTgei (rs : Reg) (imm : Half) (s : State) : Answer :=
  trapIf (!ltSigned (s.readReg rs) (sextImm imm)) none s

/-- TGEIU (R168): trap if `x[rs] >=u sext(imm)`. -/
def execTgeiu (rs : Reg) (imm : Half) (s : State) : Answer :=
  trapIf (!ltUnsigned (s.readReg rs) (sextImm imm)) none s

/-- TLTI (R169): trap if `x[rs] <s sext(imm)`. -/
def execTlti (rs : Reg) (imm : Half) (s : State) : Answer :=
  trapIf (ltSigned (s.readReg rs) (sextImm imm)) none s

/-- TLTIU (R170): trap if `x[rs] <u sext(imm)`. -/
def execTltiu (rs : Reg) (imm : Half) (s : State) : Answer :=
  trapIf (ltUnsigned (s.readReg rs) (sextImm imm)) none s

/-- TEQI (R171): trap if `x[rs] = sext(imm)`. -/
def execTeqi (rs : Reg) (imm : Half) (s : State) : Answer :=
  trapIf (s.readReg rs == sextImm imm) none s

/-- TNEI (R172): trap if `x[rs] != sext(imm)`. -/
def execTnei (rs : Reg) (imm : Half) (s : State) : Answer :=
  trapIf (s.readReg rs != sextImm imm) none s

end Sys2Proof.Machine
end

