-- ==== Sys2Proof/Machine/Step.lean ====
section
/-! DEFINITION. One step (R19). -/

namespace Sys2Proof.Machine

/-- One step (R19): only a running machine has one (R181); then fetch, decode, execute. -/
def step (s : State) : Host.Outcome State Fault Refusal :=
  match s.outcome with
  | .fault r => .fault (.halted r)
  | .refused why => .refused why
  | .running =>
    match fetch s with
    | .error answer => answer
    | .ok w =>
      match decode w with
      | .error (.notInSpec v) => .refused (.notInSpec v)
      | .ok i => exec i s

/-- `s` with the table word `w` of `nbits` bits placed at `pc`, so that the next step fetches it
(log 14, log 15). -/
def State.withFetchWord (s : State) (nbits w : Nat) : State :=
  s.placeWord (BitVec.ofNat 32 (w % 2 ^ nbits))

end Sys2Proof.Machine
end

