-- ==== Sys2Proof/Assembly.lean ====
section
/-! DEFINITION. Assembler text (R64), the two pseudo-instructions (R65) and the software names and roles
of the registers (Table R13). Nothing here changes what the machine does. -/

namespace Sys2Proof

/-! ## Registers (Table R13) -/

/-- The roles of Table R13. None is enforced by the machine (R13). -/
inductive RegisterRole where
  | constantZero
  | assemblerTemporary
  | returnValue
  | argument
  | callerSaved
  | calleeSaved
  | kernelTemporary
  | globalPointer
  | stackPointer
  | framePointer
  | link
deriving DecidableEq, Repr

/-- The role of each register, second column of Table R13. -/
def registerRole (r : Reg) : RegisterRole :=
  if r.val = 0 then .constantZero
  else if r.val = 1 then .assemblerTemporary
  else if r.val ≤ 3 then .returnValue
  else if r.val ≤ 7 then .argument
  else if r.val ≤ 15 then .callerSaved
  else if r.val ≤ 23 then .calleeSaved
  else if r.val ≤ 25 then .callerSaved
  else if r.val ≤ 27 then .kernelTemporary
  else if r.val = 28 then .globalPointer
  else if r.val = 29 then .stackPointer
  else if r.val = 30 then .framePointer
  else .link

/-- The usual names, fourth column of Table R13. -/
def usualNames : List String :=
  ["zero", "at", "v0", "v1", "a0", "a1", "a2", "a3", "t0", "t1", "t2", "t3", "t4", "t5", "t6", "t7",
   "s0", "s1", "s2", "s3", "s4", "s5", "s6", "s7", "t8", "t9", "k0", "k1", "gp", "sp", "fp", "ra"]

/-- The usual name of a register. -/
def usualName (r : Reg) : String := usualNames.getD r.val ""

/-! ## Pseudo-instructions (R65) -/

/-- `NOP` = `SLL r0, r0, 0`. -/
abbrev nopInstr : Instr := .sll 0 0 0#5

/-- `MOVE rd, rs` = `ADDU rd, rs, r0`. -/
abbrev moveInstr (rd rs : Reg) : Instr := .addu rd rs 0

/-! ## Text (R64) -/

/-- A register operand, `r<n>`. -/
def regText (r : Reg) : String := "r" ++ toString r.val

/-- A number in C hexadecimal. -/
def hexText (n : Nat) : String := "0x" ++ String.ofList (Nat.toDigits 16 n)

/-- The mnemonic and the operands, separated by commas. -/
def lineText (mnemonic : String) (operands : List String) : String :=
  mnemonic ++ " " ++ String.intercalate ", " operands

/-- `OP rt, offset(rs)`; the offset is signed (R70). -/
def offsetText (m : String) (rt rs : Reg) (imm : Half) : String :=
  lineText m [regText rt, toString imm.toInt ++ "(" ++ regText rs ++ ")"]

/-- `OP rt, rs, imm`. -/
def immText (m : String) (rt rs : Reg) (imm : Half) : String :=
  lineText m [regText rt, regText rs, hexText imm.toNat]

/-- `OP` with three registers. -/
def threeText (m : String) (a b c : Reg) : String := lineText m [regText a, regText b, regText c]

/-- `OP rd, rt, sa`. -/
def shiftText (m : String) (rd rt : Reg) (sa : Shamt) : String :=
  lineText m [regText rd, regText rt, toString sa.toNat]

/-- `OP rs, rt` or `OP rs, rt, code`. -/
def trapText (m : String) (rs rt : Reg) (code : BitVec 10) : String :=
  if code = 0#10 then lineText m [regText rs, regText rt]
  else lineText m [regText rs, regText rt, hexText code.toNat]

/-- `OP rs, imm`. -/
def trapImmText (m : String) (rs : Reg) (imm : Half) : String :=
  lineText m [regText rs, hexText imm.toNat]

/-- `OP` or `OP code`. -/
def codeText (m : String) (code : BitVec 20) : String :=
  if code = 0#20 then m else lineText m [hexText code.toNat]

/-- The assembler line of an instruction that stands at `pc` (R64: destination first; J and JAL with the
full byte address of their target). -/
def instrText (pc : Word) (i : Instr) : String :=
  let m := (rowOf i).mnemonic
  match i with
  | .lb rt rs imm => offsetText m rt rs imm
  | .lbu rt rs imm => offsetText m rt rs imm
  | .lh rt rs imm => offsetText m rt rs imm
  | .lhu rt rs imm => offsetText m rt rs imm
  | .lw rt rs imm => offsetText m rt rs imm
  | .lwl rt rs imm => offsetText m rt rs imm
  | .lwr rt rs imm => offsetText m rt rs imm
  | .sb rt rs imm => offsetText m rt rs imm
  | .sh rt rs imm => offsetText m rt rs imm
  | .sw rt rs imm => offsetText m rt rs imm
  | .swl rt rs imm => offsetText m rt rs imm
  | .swr rt rs imm => offsetText m rt rs imm
  | .add rd rs rt => threeText m rd rs rt
  | .addu rd rs rt => threeText m rd rs rt
  | .sub rd rs rt => threeText m rd rs rt
  | .subu rd rs rt => threeText m rd rs rt
  | .and rd rs rt => threeText m rd rs rt
  | .or rd rs rt => threeText m rd rs rt
  | .xor rd rs rt => threeText m rd rs rt
  | .nor rd rs rt => threeText m rd rs rt
  | .slt rd rs rt => threeText m rd rs rt
  | .sltu rd rs rt => threeText m rd rs rt
  | .addi rt rs imm => immText m rt rs imm
  | .addiu rt rs imm => immText m rt rs imm
  | .slti rt rs imm => immText m rt rs imm
  | .sltiu rt rs imm => immText m rt rs imm
  | .andi rt rs imm => immText m rt rs imm
  | .ori rt rs imm => immText m rt rs imm
  | .xori rt rs imm => immText m rt rs imm
  | .lui rt imm => lineText m [regText rt, hexText imm.toNat]
  | .sll rd rt sa => shiftText m rd rt sa
  | .srl rd rt sa => shiftText m rd rt sa
  | .sra rd rt sa => shiftText m rd rt sa
  | .sllv rd rt rs => threeText m rd rt rs
  | .srlv rd rt rs => threeText m rd rt rs
  | .srav rd rt rs => threeText m rd rt rs
  | .mult rs rt => lineText m [regText rs, regText rt]
  | .multu rs rt => lineText m [regText rs, regText rt]
  | .div rs rt => lineText m [regText rs, regText rt]
  | .divu rs rt => lineText m [regText rs, regText rt]
  | .mfhi rd => lineText m [regText rd]
  | .mthi rs => lineText m [regText rs]
  | .mflo rd => lineText m [regText rd]
  | .mtlo rs => lineText m [regText rs]
  | .j target => lineText m [hexText (Machine.jumpTarget pc target).toNat]
  | .jal target => lineText m [hexText (Machine.jumpTarget pc target).toNat]
  | .jr rs => lineText m [regText rs]
  | .jalr rd rs => lineText m [regText rd, regText rs]
  | .syscall code => codeText m code
  | .brk code => codeText m code
  | .tge rs rt code => trapText m rs rt code
  | .tgeu rs rt code => trapText m rs rt code
  | .tlt rs rt code => trapText m rs rt code
  | .tltu rs rt code => trapText m rs rt code
  | .teq rs rt code => trapText m rs rt code
  | .tne rs rt code => trapText m rs rt code
  | .tgei rs imm => trapImmText m rs imm
  | .tgeiu rs imm => trapImmText m rs imm
  | .tlti rs imm => trapImmText m rs imm
  | .tltiu rs imm => trapImmText m rs imm
  | .teqi rs imm => trapImmText m rs imm
  | .tnei rs imm => trapImmText m rs imm

end Sys2Proof
end

