-- ==== Sys2Proof/Safety.lean ====
section
/-! DEFINITION. The terms statements use: classes of instructions, what an instruction keeps (its frame),
the invariant every step keeps, and how a run ends well (R207). -/

namespace Sys2Proof.Machine

/-! ## Encodings -/

/-- `w` is the word of `i`: encoding `i` gives it, and decoding it gives `i`. -/
def EncodedAs (i : Instr) (w : Word) : Prop := encode i = w ∧ decode w = .ok i

/-! ## Classes of instructions -/

/-- The four jumps (R145). -/
def isJump : Instr → Bool
  | .lb _ _ _ => false
  | .lbu _ _ _ => false
  | .lh _ _ _ => false
  | .lhu _ _ _ => false
  | .lw _ _ _ => false
  | .lwl _ _ _ => false
  | .lwr _ _ _ => false
  | .sb _ _ _ => false
  | .sh _ _ _ => false
  | .sw _ _ _ => false
  | .swl _ _ _ => false
  | .swr _ _ _ => false
  | .add _ _ _ => false
  | .addu _ _ _ => false
  | .sub _ _ _ => false
  | .subu _ _ _ => false
  | .and _ _ _ => false
  | .or _ _ _ => false
  | .xor _ _ _ => false
  | .nor _ _ _ => false
  | .slt _ _ _ => false
  | .sltu _ _ _ => false
  | .addi _ _ _ => false
  | .addiu _ _ _ => false
  | .slti _ _ _ => false
  | .sltiu _ _ _ => false
  | .andi _ _ _ => false
  | .ori _ _ _ => false
  | .xori _ _ _ => false
  | .lui _ _ => false
  | .sll _ _ _ => false
  | .srl _ _ _ => false
  | .sra _ _ _ => false
  | .sllv _ _ _ => false
  | .srlv _ _ _ => false
  | .srav _ _ _ => false
  | .mult _ _ => false
  | .multu _ _ => false
  | .div _ _ => false
  | .divu _ _ => false
  | .mfhi _ => false
  | .mthi _ => false
  | .mflo _ => false
  | .mtlo _ => false
  | .j _ => true
  | .jal _ => true
  | .jr _ => true
  | .jalr _ _ => true
  | .syscall _ => false
  | .brk _ => false
  | .tge _ _ _ => false
  | .tgeu _ _ _ => false
  | .tlt _ _ _ => false
  | .tltu _ _ _ => false
  | .teq _ _ _ => false
  | .tne _ _ _ => false
  | .tgei _ _ => false
  | .tgeiu _ _ => false
  | .tlti _ _ => false
  | .tltiu _ _ => false
  | .teqi _ _ => false
  | .tnei _ _ => false

/-- The five stores (R78). -/
def isStore : Instr → Bool
  | .lb _ _ _ => false
  | .lbu _ _ _ => false
  | .lh _ _ _ => false
  | .lhu _ _ _ => false
  | .lw _ _ _ => false
  | .lwl _ _ _ => false
  | .lwr _ _ _ => false
  | .sb _ _ _ => true
  | .sh _ _ _ => true
  | .sw _ _ _ => true
  | .swl _ _ _ => true
  | .swr _ _ _ => true
  | .add _ _ _ => false
  | .addu _ _ _ => false
  | .sub _ _ _ => false
  | .subu _ _ _ => false
  | .and _ _ _ => false
  | .or _ _ _ => false
  | .xor _ _ _ => false
  | .nor _ _ _ => false
  | .slt _ _ _ => false
  | .sltu _ _ _ => false
  | .addi _ _ _ => false
  | .addiu _ _ _ => false
  | .slti _ _ _ => false
  | .sltiu _ _ _ => false
  | .andi _ _ _ => false
  | .ori _ _ _ => false
  | .xori _ _ _ => false
  | .lui _ _ => false
  | .sll _ _ _ => false
  | .srl _ _ _ => false
  | .sra _ _ _ => false
  | .sllv _ _ _ => false
  | .srlv _ _ _ => false
  | .srav _ _ _ => false
  | .mult _ _ => false
  | .multu _ _ => false
  | .div _ _ => false
  | .divu _ _ => false
  | .mfhi _ => false
  | .mthi _ => false
  | .mflo _ => false
  | .mtlo _ => false
  | .j _ => false
  | .jal _ => false
  | .jr _ => false
  | .jalr _ _ => false
  | .syscall _ => false
  | .brk _ => false
  | .tge _ _ _ => false
  | .tgeu _ _ _ => false
  | .tlt _ _ _ => false
  | .tltu _ _ _ => false
  | .teq _ _ _ => false
  | .tne _ _ _ => false
  | .tgei _ _ => false
  | .tgeiu _ _ => false
  | .tlti _ _ => false
  | .tltiu _ _ => false
  | .teqi _ _ => false
  | .tnei _ _ => false

/-- The six instructions that write HI or LO (R20, R204). -/
def writesHiLo : Instr → Bool
  | .lb _ _ _ => false
  | .lbu _ _ _ => false
  | .lh _ _ _ => false
  | .lhu _ _ _ => false
  | .lw _ _ _ => false
  | .lwl _ _ _ => false
  | .lwr _ _ _ => false
  | .sb _ _ _ => false
  | .sh _ _ _ => false
  | .sw _ _ _ => false
  | .swl _ _ _ => false
  | .swr _ _ _ => false
  | .add _ _ _ => false
  | .addu _ _ _ => false
  | .sub _ _ _ => false
  | .subu _ _ _ => false
  | .and _ _ _ => false
  | .or _ _ _ => false
  | .xor _ _ _ => false
  | .nor _ _ _ => false
  | .slt _ _ _ => false
  | .sltu _ _ _ => false
  | .addi _ _ _ => false
  | .addiu _ _ _ => false
  | .slti _ _ _ => false
  | .sltiu _ _ _ => false
  | .andi _ _ _ => false
  | .ori _ _ _ => false
  | .xori _ _ _ => false
  | .lui _ _ => false
  | .sll _ _ _ => false
  | .srl _ _ _ => false
  | .sra _ _ _ => false
  | .sllv _ _ _ => false
  | .srlv _ _ _ => false
  | .srav _ _ _ => false
  | .mult _ _ => true
  | .multu _ _ => true
  | .div _ _ => true
  | .divu _ _ => true
  | .mfhi _ => false
  | .mthi _ => true
  | .mflo _ => false
  | .mtlo _ => true
  | .j _ => false
  | .jal _ => false
  | .jr _ => false
  | .jalr _ _ => false
  | .syscall _ => false
  | .brk _ => false
  | .tge _ _ _ => false
  | .tgeu _ _ _ => false
  | .tlt _ _ _ => false
  | .tltu _ _ _ => false
  | .teq _ _ _ => false
  | .tne _ _ _ => false
  | .tgei _ _ => false
  | .tgeiu _ _ => false
  | .tlti _ _ => false
  | .tltiu _ _ => false
  | .teqi _ _ => false
  | .tnei _ _ => false

/-- The two instructions that read HI or LO (R20). -/
def readsHiLo : Instr → Bool
  | .lb _ _ _ => false
  | .lbu _ _ _ => false
  | .lh _ _ _ => false
  | .lhu _ _ _ => false
  | .lw _ _ _ => false
  | .lwl _ _ _ => false
  | .lwr _ _ _ => false
  | .sb _ _ _ => false
  | .sh _ _ _ => false
  | .sw _ _ _ => false
  | .swl _ _ _ => false
  | .swr _ _ _ => false
  | .add _ _ _ => false
  | .addu _ _ _ => false
  | .sub _ _ _ => false
  | .subu _ _ _ => false
  | .and _ _ _ => false
  | .or _ _ _ => false
  | .xor _ _ _ => false
  | .nor _ _ _ => false
  | .slt _ _ _ => false
  | .sltu _ _ _ => false
  | .addi _ _ _ => false
  | .addiu _ _ _ => false
  | .slti _ _ _ => false
  | .sltiu _ _ _ => false
  | .andi _ _ _ => false
  | .ori _ _ _ => false
  | .xori _ _ _ => false
  | .lui _ _ => false
  | .sll _ _ _ => false
  | .srl _ _ _ => false
  | .sra _ _ _ => false
  | .sllv _ _ _ => false
  | .srlv _ _ _ => false
  | .srav _ _ _ => false
  | .mult _ _ => false
  | .multu _ _ => false
  | .div _ _ => false
  | .divu _ _ => false
  | .mfhi _ => true
  | .mthi _ => false
  | .mflo _ => true
  | .mtlo _ => false
  | .j _ => false
  | .jal _ => false
  | .jr _ => false
  | .jalr _ _ => false
  | .syscall _ => false
  | .brk _ => false
  | .tge _ _ _ => false
  | .tgeu _ _ _ => false
  | .tlt _ _ _ => false
  | .tltu _ _ _ => false
  | .teq _ _ _ => false
  | .tne _ _ _ => false
  | .tgei _ _ => false
  | .tgeiu _ _ => false
  | .tlti _ _ => false
  | .tltiu _ _ => false
  | .teqi _ _ => false
  | .tnei _ _ => false

/-! ## Frames: what a completed instruction keeps -/

/-- `x[rd] <- v` and no other general register changes; a write of `x[0]` is discarded (R12, R15). -/
def NewReg (s t : State) (rd : Reg) (v : Word) : Prop :=
  t.readReg rd = (if rd = 0 then 0#32 else v) ∧ ∀ r, r ≠ rd → t.readReg r = s.readReg r

/-- No general register changes. -/
def SameRegs (s t : State) : Prop := ∀ r, t.readReg r = s.readReg r

/-- Neither HI nor LO changes, and no value `any` is drawn. -/
def SameHiLo (s t : State) : Prop := t.hi = s.hi ∧ t.lo = s.lo ∧ t.draws = s.draws

/-- No byte of memory changes, and none counts as stored to. -/
def SameMemory (s t : State) : Prop := (∀ a, t.byteAt a = s.byteAt a) ∧ t.dirty = s.dirty

/-- The parameters do not change and the run goes on or stays ended as it was. -/
def SameRun (s t : State) : Prop := t.params = s.params ∧ t.outcome = s.outcome

/-- R19 step 7: control falls through to `npc`. -/
def FallsThrough (s t : State) : Prop := t.pc = s.npc ∧ t.npc = s.npc + 4#32 ∧ t.bd = false

/-- R145: the delay slot comes next, then `target`. -/
def JumpsTo (s t : State) (target : Word) : Prop := t.pc = s.npc ∧ t.npc = target ∧ t.bd = true

/-- R26(c): `hilo_age` counts the instruction, saturating at the distance. -/
def AgeCounts (s t : State) : Prop := t.hiloAge = min (s.hiloAge + 1) s.hazardDistance

/-- The instruction is over and control falls through. -/
def Retired (s t : State) : Prop := FallsThrough s t ∧ AgeCounts s t ∧ SameRun s t

/-- The whole effect of an instruction that writes one general register. -/
def OnlyReg (s t : State) (rd : Reg) (v : Word) : Prop :=
  NewReg s t rd v ∧ SameHiLo s t ∧ SameMemory s t ∧ Retired s t

/-- The whole effect of an instruction that writes HI and LO. -/
def OnlyHiLo (s t : State) (h l : Word) : Prop :=
  t.hi = h ∧ t.lo = l ∧ t.draws = s.draws ∧ SameRegs s t ∧ SameMemory s t ∧ Retired s t

/-- The whole effect of an instruction that does nothing but fall through. -/
def OnlyRetired (s t : State) : Prop := SameRegs s t ∧ SameHiLo s t ∧ SameMemory s t ∧ Retired s t

/-- The bytes `vs` stand from `a` on and are stored to, every other byte is as it was (R32, R78). -/
def Stored (s t : State) (a : Word) (vs : List Byte) : Prop :=
  (∀ k (h : k < vs.length), t.byteAt (a + BitVec.ofNat 32 k) = vs[k]) ∧
  (∀ b, (∀ k, k < vs.length → b ≠ a + BitVec.ofNat 32 k) → t.byteAt b = s.byteAt b) ∧
  (∀ b : Word, b.toNat ∈ t.dirty ↔ b.toNat ∈ s.dirty ∨ ∃ k, k < vs.length ∧ b = a + BitVec.ofNat 32 k)

/-- The whole effect of a store. -/
def OnlyStored (s t : State) (a : Word) (vs : List Byte) : Prop :=
  Stored s t a vs ∧ SameRegs s t ∧ SameHiLo s t ∧ Retired s t

/-! ## Memory -/

/-- The `n` addresses from `a` on are mapped (R36). -/
def MappedRange (s : State) (a : Word) (n : Nat) : Prop :=
  ∀ k, k < n → s.isMapped (a + BitVec.ofNat 32 k) = true

/-- Some address of the `n` from `a` on has been stored to (R43). -/
def DirtyRange (s : State) (a : Word) (n : Nat) : Prop :=
  ∃ k, k < n ∧ (a + BitVec.ofNat 32 k).toNat ∈ s.dirty

/-- The little-endian halfword at `a` (R32). -/
def State.halfAt (s : State) (a : Word) : Half := s.byteAt (a + 1#32) ++ s.byteAt a

/-- The little-endian word at `a` (R32). -/
def State.wordAt (s : State) (a : Word) : Word :=
  s.byteAt (a + 3#32) ++ s.byteAt (a + 2#32) ++ s.byteAt (a + 1#32) ++ s.byteAt a

/-! ## Runs -/

/-- What every state of a run satisfies, from every launch (R28) on. -/
structure State.Inv (s : State) : Prop where
  /-- Memory has its one canonical form. -/
  memory : s.mem.wf = true
  /-- The stored-to addresses have theirs. -/
  dirty : AddrSet.wf s.dirty = true
  /-- Only mapped addresses are stored to (R36). -/
  dirtyMapped : ∀ a ∈ s.dirty, mappedAt s.params a = true
  /-- The slot of `x[0]` holds zero (R12). -/
  zero : s.regs.get 0 = 0#32
  /-- `hilo_age` never passes the distance (R26(c)). -/
  age : s.hiloAge ≤ s.hazardDistance
  /-- Outside a delay slot, `npc` is the next word's address (R19). -/
  sequential : s.bd = false → s.npc = s.pc + 4#32
  /-- A fault record names the instruction the machine stands at (R181, R183). -/
  record : ∀ r, s.outcome = .fault r → r.epc = s.pc ∧ r.bd = s.bd
  /-- No step leaves a refusal behind (log 8). -/
  noRefusal : ∀ why, s.outcome ≠ .refused why

/-- The run has ended, at this state, by BREAK or SYSCALL: the convention of R207 for normal
completion. -/
def State.endedNormally (s : State) : Bool :=
  match s.outcome with
  | .fault ⟨.breakpoint _, _, _⟩ => true
  | .fault ⟨.systemCall _, _, _⟩ => true
  | _ => false

/-- A safe run of at most `n` steps: it ends normally, or it is still running after `n` steps; it is
never stuck or refused and raises no other exception (R181, R207). -/
def safeFor : Nat → State → Bool
  | 0, s => s.endedNormally || s.outcome == .running
  | n + 1, s =>
    s.endedNormally ||
      (match step s with
       | .next t => safeFor n t
       | _ => false)

end Sys2Proof.Machine
end

