-- ==== Sys2Proof/Certificates/Slice0/Obligations.lean ====
section
/-! DEFINITION. The statements for the provers, from the numbered rules of spec/. The predicates
`OnlyReg`, `OnlyHiLo`, `OnlyStored`, `OnlyRetired` (Safety.lean) name the WHOLE effect of an instruction: the
result, and that every other register, HI, LO, every byte of memory, the stored-to set, the parameters and
the outcome are as they were. `EncodedAs` says which word an instruction is, in both directions.
How an outcome of the spec reads as an answer is the model's (log 7, log 8, log 9): an exception is the
next state whose `outcome` is the fault record, Refused is `.refused`, stuck is `.fault (.stuck _)`. -/

open Sys2Proof
open Sys2Proof.Machine

/-! ## Encoding -/

/-- Decoding the encoding of an instruction gives it back, whatever its operands (R54 to R56, R60). -/
def Obligations.DecodeInvertsEncode : Prop := ∀ i : Instr, decode (encode i) = .ok i

/-- Each word has one meaning: a word that decodes is the encoding of what it decodes to (R58). -/
def Obligations.EncodeInvertsDecode : Prop := ∀ (w : Word) (i : Instr), decode w = .ok i → encode i = w

/-- R58: decoding answers the unique row of the opcode table with `w & mask = match`; a word that some
row accepts decodes. -/
def Obligations.DecodeAnswersTheUniqueRow : Prop :=
  (∀ w i, decode w = .ok i →
    rowOf i ∈ opcodeRows ∧ (rowOf i).accepts w = true ∧
      ∀ r ∈ opcodeRows, r.accepts w = true → r = rowOf i) ∧
  (∀ w, ∀ r ∈ opcodeRows, r.accepts w = true → ∃ i, decode w = .ok i ∧ rowOf i = r)

/-- R61, R62: a word that no row accepts, a nonzero must-be-zero field included, is refused by name, and
the step writes nothing. -/
def Obligations.UnlistedWordsAreRefused : Prop :=
  ∀ w : Word, (∀ r ∈ opcodeRows, r.accepts w = false) →
    decode w = .error (.notInSpec w) ∧
      ∀ s : State, s.outcome = .running → fetch s = .ok w → step s = .refused (.notInSpec w)

/-- One word per class of the source, written out from the encodings of files 41 to 47. -/
def Obligations.SampleWordsDecode : Prop :=
  decode 0b10001100100000100000000000000100#32 = .ok (.lw 2 4 4#16) ∧
  decode 0b10101000100000110000000000000001#32 = .ok (.swl 3 4 1#16) ∧
  decode 0b00100000101000100000000000010001#32 = .ok (.addi 2 5 0x11#16) ∧
  decode 0b00000001001010100001000000100010#32 = .ok (.sub 2 9 10) ∧
  decode 0b00000000000010010001000100000011#32 = .ok (.sra 2 9 4#5) ∧
  decode 0b00000000100001010000000000011000#32 = .ok (.mult 4 5) ∧
  decode 0b00001100000000000000010000001000#32 = .ok (.jal 0x0000408#26) ∧
  decode 0b00000001001000000101000000001001#32 = .ok (.jalr 10 9) ∧
  decode 0b00000000010010001101000101001100#32 = .ok (.syscall 0x12345#20) ∧
  decode 0b00000000100001101111111111110100#32 = .ok (.teq 4 6 0x3FF#10) ∧
  decode 0b00000100101010001111111111111101#32 = .ok (.tgei 5 0xFFFD#16) ∧
  decode 0b00010000000000000000000000000000#32 = .error (.notInSpec 0x10000000#32)

/-! ## The step -/

/-- R19: when the word at `pc` decodes to an instruction, the step is `exec` of it at that very state
(`exec` itself moves `pc`, `npc` and `bd` on). -/
def Obligations.StepRunsTheDecodedInstruction : Prop :=
  ∀ (s : State) (i : Instr), s.outcome = .running → s.pc.toNat % 4 = 0 → MappedRange s s.pc 4 →
    ¬ DirtyRange s s.pc 4 → decode (s.wordAt s.pc) = .ok i → step s = exec i s

/-- R184 (1) to (4): a step reports the first of these conditions: a misaligned `pc`, an unmapped
byte to fetch, a stored-to byte to fetch, a word that is no instruction. -/
def Obligations.StepReportsTheFirstCondition : Prop :=
  ∀ s : State, s.outcome = .running →
    (s.pc.toNat % 4 ≠ 0 →
      step s = .next { s with outcome := .fault ⟨.addressError .fetch s.pc, s.pc, s.bd⟩ }) ∧
    (s.pc.toNat % 4 = 0 → ¬ MappedRange s s.pc 4 →
      ∃ k, k < 4 ∧ s.isMapped (s.pc + BitVec.ofNat 32 k) = false ∧
        step s = .fault (.stuck (s.pc + BitVec.ofNat 32 k))) ∧
    (s.pc.toNat % 4 = 0 → MappedRange s s.pc 4 → DirtyRange s s.pc 4 →
      step s = .refused .fetchAfterStore) ∧
    (s.pc.toNat % 4 = 0 → MappedRange s s.pc 4 → ¬ DirtyRange s s.pc 4 →
      (∀ r ∈ opcodeRows, r.accepts (s.wordAt s.pc) = false) →
      step s = .refused (.notInSpec (s.wordAt s.pc)))

/-- R181: a run that has ended has no step. -/
def Obligations.EndedRunHasNoStep : Prop :=
  ∀ s t : State, s.outcome ≠ .running → step s ≠ .next t

/-- R182, R183: a step that ends the run changes nothing but `outcome`, its record names the instruction
the machine stands at, and the machine stops there: no further step. -/
def Obligations.ExceptionsArePrecise : Prop :=
  ∀ s t : State, step s = .next t → t.outcome ≠ .running →
    (∃ c, t = { s with outcome := .fault ⟨c, s.pc, s.bd⟩ }) ∧ ∀ u, step t ≠ .next u

/-- The invariant holds at every launch, the reset state among them (R28). -/
def Obligations.InvariantHoldsAtLaunch : Prop :=
  (∀ l : Launch, (State.launch l).Inv) ∧ State.reset.Inv

/-- Every step keeps the invariant: memory and the stored-to set keep their canonical forms, `x[0]`'s slot
stays zero, `hilo_age` stays within the distance, `npc = pc + 4` outside delay slots, a fault record
names the instruction the machine stands at. -/
def Obligations.EveryStepKeepsTheInvariant : Prop :=
  ∀ s t : State, s.Inv → step s = .next t → t.Inv

/-- R15: a step writes at most one general register. -/
def Obligations.StepWritesAtMostOneRegister : Prop :=
  ∀ s t : State, step s = .next t → ∃ rd : Reg, ∀ r, r ≠ rd → t.readReg r = s.readReg r

/-- R20: HI and LO are written only by the multiply and divide instructions, MTHI and MTLO. -/
def Obligations.OnlyHiLoWritersWriteHiLo : Prop :=
  ∀ (i : Instr) (s t : State), exec i s = .next t → (t.hi ≠ s.hi ∨ t.lo ≠ s.lo) →
    (∃ rs rt, i = .mult rs rt) ∨ (∃ rs rt, i = .multu rs rt) ∨ (∃ rs rt, i = .div rs rt) ∨
    (∃ rs rt, i = .divu rs rt) ∨ (∃ rs, i = .mthi rs) ∨ (∃ rs, i = .mtlo rs)

/-- Only the five stores change a byte of memory or the stored-to set (R26(b), R30, R78). -/
def Obligations.OnlyStoresWriteMemory : Prop :=
  ∀ (i : Instr) (s t : State), exec i s = .next t → isStore i = false →
    (∀ a, t.byteAt a = s.byteAt a) ∧ t.dirty = s.dirty

/-- R18, R19: every instruction that completes and is no jump goes on at `npc`, and only a jump puts
its successor into a delay slot. -/
def Obligations.OnlyJumpsLeaveTheSequence : Prop :=
  ∀ (i : Instr) (s t : State), s.outcome = .running → exec i s = .next t → t.outcome = .running →
    t.pc = s.npc ∧ (isJump i = false → t.npc = s.npc + 4#32 ∧ t.bd = false) ∧
    (isJump i = true → t.bd = true)

/-- R26(c): MFHI and MFLO reset `hilo_age`, every other executed instruction adds 1 to it, saturating
at the distance, and an instruction that raises leaves it. -/
def Obligations.HiLoAgeCountsInstructions : Prop :=
  ∀ (i : Instr) (s t : State), s.outcome = .running → exec i s = .next t →
    (t.outcome ≠ .running → t.hiloAge = s.hiloAge) ∧
    (t.outcome = .running → readsHiLo i = true → t.hiloAge = 0) ∧
    (t.outcome = .running → readsHiLo i = false →
      t.hiloAge = min (s.hiloAge + 1) s.hazardDistance)

/-- The parameters never change (00_scope.md section 5: arguments of the model). -/
def Obligations.ParametersNeverChange : Prop :=
  ∀ s t : State, step s = .next t → t.params = s.params

/-- R43, R203: once a byte has been stored to, no later step of the run executes it: wherever the run
stands in that word, and could fetch it, it is refused. -/
def Obligations.StoredBytesAreNeverExecuted : Prop :=
  ∀ (n : Nat) (s t : State) (a : Nat), a ∈ s.dirty → core.run n s = .next t →
    t.outcome = .running → t.pc.toNat % 4 = 0 → MappedRange t t.pc 4 →
    t.pc.toNat ≤ a → a < t.pc.toNat + 4 → step t = .refused .fetchAfterStore

/-- R204: a program that respects distance 2 runs identically under distance 0. -/
def Obligations.DistanceTwoRunsAgreeWithDistanceZero : Prop :=
  ∀ (n : Nat) (s t : State), core.run n s = .next t →
    core.run n { s with params := { s.params with hazard := .none }, hiloAge := 0 } =
      .next { t with params := { t.params with hazard := .none }, hiloAge := 0 }

/-- Table R28 for every launch: the values the spec gives. -/
def Obligations.LaunchState : Prop :=
  ∀ l : Launch,
    (State.launch l).readReg 0 = 0#32 ∧ (State.launch l).pc = l.params.resetPc ∧
    (State.launch l).npc = l.params.resetPc + 4#32 ∧ (State.launch l).bd = false ∧
    (State.launch l).dirty = [] ∧
    (State.launch l).hiloAge = (State.launch l).hazardDistance ∧
    (State.launch l).outcome = .running ∧
    (∀ r : Reg, r ≠ 0 → (State.launch l).readReg r = l.regs.get r) ∧
    (State.launch l).hi = l.hi ∧ (State.launch l).lo = l.lo ∧
    (∀ a v, l.image.find? (fun c => c.1 == a.toNat) = some (a.toNat, v) →
      (State.launch l).byteAt a = v)

/-- R12: `x[0]` reads 0 in every state, a write of it changes nothing at all, and no other register is
hard-wired. -/
def Obligations.RegisterZeroIsHardwired : Prop :=
  (∀ s : State, s.readReg 0 = 0#32) ∧ (∀ (s : State) (v : Word), s.writeReg 0 v = s) ∧
  (∀ (s : State) (r : Reg) (v : Word), r ≠ 0 → (s.writeReg r v).readReg r = v)

/-! ## Memory -/

/-- R32, R36: `MemRead` gives the bytes at rising addresses, lowest first, exactly if each is mapped;
`MemWrite` stores them so, marks exactly them as stored to, and changes nothing else; neither has a
step if one byte is not mapped. -/
def Obligations.MemoryPrimitives : Prop :=
  ∀ (s : State) (a : Word),
    (∀ n, MappedRange s a n → ∃ bs, s.memRead a n = .ok bs ∧ bs.length = n ∧
      ∀ k (h : k < bs.length), bs[k] = s.byteAt (a + BitVec.ofNat 32 k)) ∧
    (∀ n, ¬ MappedRange s a n → ∃ u, s.memRead a n = .error (.stuck u)) ∧
    (∀ vs : List Byte, vs.length ≤ 4 → MappedRange s a vs.length →
      ∃ t, s.memWrite a vs = .ok t ∧ Stored s t a vs ∧ SameRegs s t ∧ SameHiLo s t ∧
        SameRun s t ∧ t.pc = s.pc ∧ t.npc = s.npc ∧ t.bd = s.bd ∧ t.hiloAge = s.hiloAge) ∧
    (∀ vs : List Byte, ¬ MappedRange s a vs.length → ∃ u, s.memWrite a vs = .error (.stuck u))

/-- R34: a misaligned halfword or word access raises AddressError with the effective address, and
nothing else changes; the byte accesses and LWL, LWR, SWL, SWR never raise it. -/
def Obligations.MisalignedAccessesRaise : Prop :=
  ∀ (rt rs : Reg) (imm : Half) (s : State),
    let ea := s.readReg rs + imm.signExtend 32
    let raised (k : AccessKind) : Answer :=
      .next { s with outcome := .fault ⟨.addressError k ea, s.pc, s.bd⟩ }
    (ea.toNat % 2 ≠ 0 →
      exec (.lh rt rs imm) s = raised .load ∧ exec (.lhu rt rs imm) s = raised .load ∧
      exec (.sh rt rs imm) s = raised .store) ∧
    (ea.toNat % 4 ≠ 0 →
      exec (.lw rt rs imm) s = raised .load ∧ exec (.sw rt rs imm) s = raised .store) ∧
    (∀ i ∈ [Instr.lb rt rs imm, .lbu rt rs imm, .lwl rt rs imm, .lwr rt rs imm, .sb rt rs imm,
        .swl rt rs imm, .swr rt rs imm], ∀ t, exec i s = .next t → t.outcome = s.outcome) ∧
    (s.outcome = .running → s.pc.toNat % 4 ≠ 0 →
      step s = .next { s with outcome := .fault ⟨.addressError .fetch s.pc, s.pc, s.bd⟩ })

/-! ## Loads -/

/-- R71, R72. -/
def Obligations.LoadByte : Prop :=
  ∀ (rt rs : Reg) (imm : Half),
    EncodedAs (.lb rt rs imm) (immFormat 0b100000#6 (regBits rs) (regBits rt) imm) ∧
    EncodedAs (.lbu rt rs imm) (immFormat 0b100100#6 (regBits rs) (regBits rt) imm) ∧
    ∀ s : State,
      let ea := s.readReg rs + imm.signExtend 32
      (s.isMapped ea = true →
        (∃ t, exec (.lb rt rs imm) s = .next t ∧ OnlyReg s t rt ((s.byteAt ea).signExtend 32)) ∧
        (∃ t, exec (.lbu rt rs imm) s = .next t ∧ OnlyReg s t rt ((s.byteAt ea).setWidth 32))) ∧
      (s.isMapped ea = false →
        (∃ u, exec (.lb rt rs imm) s = .fault (.stuck u)) ∧
        (∃ u, exec (.lbu rt rs imm) s = .fault (.stuck u)))

/-- R73, R74. Alignment is checked before mapping (R184). -/
def Obligations.LoadHalfword : Prop :=
  ∀ (rt rs : Reg) (imm : Half),
    EncodedAs (.lh rt rs imm) (immFormat 0b100001#6 (regBits rs) (regBits rt) imm) ∧
    EncodedAs (.lhu rt rs imm) (immFormat 0b100101#6 (regBits rs) (regBits rt) imm) ∧
    ∀ s : State,
      let ea := s.readReg rs + imm.signExtend 32
      (ea.toNat % 2 = 0 → MappedRange s ea 2 →
        (∃ t, exec (.lh rt rs imm) s = .next t ∧ OnlyReg s t rt ((s.halfAt ea).signExtend 32)) ∧
        (∃ t, exec (.lhu rt rs imm) s = .next t ∧ OnlyReg s t rt ((s.halfAt ea).setWidth 32))) ∧
      (ea.toNat % 2 ≠ 0 →
        exec (.lh rt rs imm) s =
          .next { s with outcome := .fault ⟨.addressError .load ea, s.pc, s.bd⟩ } ∧
        exec (.lhu rt rs imm) s =
          .next { s with outcome := .fault ⟨.addressError .load ea, s.pc, s.bd⟩ }) ∧
      (ea.toNat % 2 = 0 → ¬ MappedRange s ea 2 →
        (∃ u, exec (.lh rt rs imm) s = .fault (.stuck u)) ∧
        (∃ u, exec (.lhu rt rs imm) s = .fault (.stuck u)))

/-- R75. -/
def Obligations.LoadWord : Prop :=
  ∀ (rt rs : Reg) (imm : Half),
    EncodedAs (.lw rt rs imm) (immFormat 0b100011#6 (regBits rs) (regBits rt) imm) ∧
    ∀ s : State,
      let ea := s.readReg rs + imm.signExtend 32
      (ea.toNat % 4 = 0 → MappedRange s ea 4 →
        ∃ t, exec (.lw rt rs imm) s = .next t ∧ OnlyReg s t rt (s.wordAt ea)) ∧
      (ea.toNat % 4 ≠ 0 →
        exec (.lw rt rs imm) s =
          .next { s with outcome := .fault ⟨.addressError .load ea, s.pc, s.bd⟩ }) ∧
      (ea.toNat % 4 = 0 → ¬ MappedRange s ea 4 → ∃ u, exec (.lw rt rs imm) s = .fault (.stuck u))

/-- R76: the pseudocode, byte by byte, and its equivalent with shifts. -/
def Obligations.LoadWordLeft : Prop :=
  ∀ (rt rs : Reg) (imm : Half),
    EncodedAs (.lwl rt rs imm) (immFormat 0b100010#6 (regBits rs) (regBits rt) imm) ∧
    ∀ s : State,
      let ea := s.readReg rs + imm.signExtend 32
      let b := ea.toNat % 4
      let A := ea &&& 0xFFFFFFFC#32
      (MappedRange s A (b + 1) →
        ∃ t v, exec (.lwl rt rs imm) s = .next t ∧ OnlyReg s t rt v ∧
          (∀ k, k ≤ b → byteOf v (3 - b + k) = s.byteAt (A + BitVec.ofNat 32 k)) ∧
          (∀ j, j < 3 - b → byteOf v j = byteOf (s.readReg rt) j) ∧
          v = (s.wordAt A <<< (8 * (3 - b))) ||| (s.readReg rt &&& (0x00FFFFFF#32 >>> (8 * b)))) ∧
      (¬ MappedRange s A (b + 1) → ∃ u, exec (.lwl rt rs imm) s = .fault (.stuck u))

/-- R77: the pseudocode, byte by byte, and its equivalent with shifts. -/
def Obligations.LoadWordRight : Prop :=
  ∀ (rt rs : Reg) (imm : Half),
    EncodedAs (.lwr rt rs imm) (immFormat 0b100110#6 (regBits rs) (regBits rt) imm) ∧
    ∀ s : State,
      let ea := s.readReg rs + imm.signExtend 32
      let b := ea.toNat % 4
      let A := ea &&& 0xFFFFFFFC#32
      (MappedRange s (A + BitVec.ofNat 32 b) (4 - b) →
        ∃ t v, exec (.lwr rt rs imm) s = .next t ∧ OnlyReg s t rt v ∧
          (∀ k, b ≤ k → k < 4 → byteOf v (k - b) = s.byteAt (A + BitVec.ofNat 32 k)) ∧
          (∀ j, 4 - b ≤ j → j < 4 → byteOf v j = byteOf (s.readReg rt) j) ∧
          v = (s.wordAt A >>> (8 * b)) |||
            (s.readReg rt &&& (0xFFFFFF00#32 <<< (8 * (3 - b))))) ∧
      (¬ MappedRange s (A + BitVec.ofNat 32 b) (4 - b) →
        ∃ u, exec (.lwr rt rs imm) s = .fault (.stuck u))

/-- R77's corner case: `LWR rt, 0(p); LWL rt, 3(p)` loads the unaligned word at byte address `p`, for
every `p`. -/
def Obligations.LoadPairReadsUnalignedWord : Prop :=
  ∀ (rt rs : Reg) (s : State), rt ≠ 0 → rt ≠ rs → MappedRange s (s.readReg rs) 4 →
    ∃ t u, exec (.lwr rt rs 0#16) s = .next t ∧ exec (.lwl rt rs 3#16) t = .next u ∧
      u.readReg rt = s.wordAt (s.readReg rs) ∧ (∀ r, r ≠ rt → u.readReg r = s.readReg r) ∧
      (∀ a, u.byteAt a = s.byteAt a)

/-! ## Stores -/

/-- R79. -/
def Obligations.StoreByte : Prop :=
  ∀ (rt rs : Reg) (imm : Half),
    EncodedAs (.sb rt rs imm) (immFormat 0b101000#6 (regBits rs) (regBits rt) imm) ∧
    ∀ s : State,
      let ea := s.readReg rs + imm.signExtend 32
      (s.isMapped ea = true →
        ∃ t, exec (.sb rt rs imm) s = .next t ∧ OnlyStored s t ea [byteOf (s.readReg rt) 0]) ∧
      (s.isMapped ea = false → ∃ u, exec (.sb rt rs imm) s = .fault (.stuck u))

/-- R80. -/
def Obligations.StoreHalfword : Prop :=
  ∀ (rt rs : Reg) (imm : Half),
    EncodedAs (.sh rt rs imm) (immFormat 0b101001#6 (regBits rs) (regBits rt) imm) ∧
    ∀ s : State,
      let ea := s.readReg rs + imm.signExtend 32
      (ea.toNat % 2 = 0 → MappedRange s ea 2 →
        ∃ t, exec (.sh rt rs imm) s = .next t ∧
          OnlyStored s t ea [byteOf (s.readReg rt) 0, byteOf (s.readReg rt) 1]) ∧
      (ea.toNat % 2 ≠ 0 →
        exec (.sh rt rs imm) s =
          .next { s with outcome := .fault ⟨.addressError .store ea, s.pc, s.bd⟩ }) ∧
      (ea.toNat % 2 = 0 → ¬ MappedRange s ea 2 → ∃ u, exec (.sh rt rs imm) s = .fault (.stuck u))

/-- R81. -/
def Obligations.StoreWord : Prop :=
  ∀ (rt rs : Reg) (imm : Half),
    EncodedAs (.sw rt rs imm) (immFormat 0b101011#6 (regBits rs) (regBits rt) imm) ∧
    ∀ s : State,
      let ea := s.readReg rs + imm.signExtend 32
      (ea.toNat % 4 = 0 → MappedRange s ea 4 →
        ∃ t, exec (.sw rt rs imm) s = .next t ∧ t.wordAt ea = s.readReg rt ∧
          OnlyStored s t ea [byteOf (s.readReg rt) 0, byteOf (s.readReg rt) 1,
            byteOf (s.readReg rt) 2, byteOf (s.readReg rt) 3]) ∧
      (ea.toNat % 4 ≠ 0 →
        exec (.sw rt rs imm) s =
          .next { s with outcome := .fault ⟨.addressError .store ea, s.pc, s.bd⟩ }) ∧
      (ea.toNat % 4 = 0 → ¬ MappedRange s ea 4 → ∃ u, exec (.sw rt rs imm) s = .fault (.stuck u))

/-- R82: the bytes `3-b .. 3` of rt go to `A .. A+b`, and no other byte changes. -/
def Obligations.StoreWordLeft : Prop :=
  ∀ (rt rs : Reg) (imm : Half),
    EncodedAs (.swl rt rs imm) (immFormat 0b101010#6 (regBits rs) (regBits rt) imm) ∧
    ∀ s : State,
      let ea := s.readReg rs + imm.signExtend 32
      let b := ea.toNat % 4
      let A := ea &&& 0xFFFFFFFC#32
      (MappedRange s A (b + 1) →
        ∃ t vs, exec (.swl rt rs imm) s = .next t ∧ vs.length = b + 1 ∧ OnlyStored s t A vs ∧
          ∀ k (h : k < vs.length), vs[k] = byteOf (s.readReg rt) (3 - b + k)) ∧
      (¬ MappedRange s A (b + 1) → ∃ u, exec (.swl rt rs imm) s = .fault (.stuck u))

/-- R83: the bytes `0 .. 3-b` of rt go to `A+b .. A+3`, and no other byte changes. -/
def Obligations.StoreWordRight : Prop :=
  ∀ (rt rs : Reg) (imm : Half),
    EncodedAs (.swr rt rs imm) (immFormat 0b101110#6 (regBits rs) (regBits rt) imm) ∧
    ∀ s : State,
      let ea := s.readReg rs + imm.signExtend 32
      let b := ea.toNat % 4
      let A := ea &&& 0xFFFFFFFC#32
      (MappedRange s (A + BitVec.ofNat 32 b) (4 - b) →
        ∃ t vs, exec (.swr rt rs imm) s = .next t ∧ vs.length = 4 - b ∧
          OnlyStored s t (A + BitVec.ofNat 32 b) vs ∧
          ∀ k (h : k < vs.length), vs[k] = byteOf (s.readReg rt) k) ∧
      (¬ MappedRange s (A + BitVec.ofNat 32 b) (4 - b) →
        ∃ u, exec (.swr rt rs imm) s = .fault (.stuck u))

/-- R83's corner case: `SWR rt, 0(p); SWL rt, 3(p)` stores rt as the unaligned word at byte address
`p`, for every `p`, and touches no other byte. -/
def Obligations.StorePairWritesUnalignedWord : Prop :=
  ∀ (rt rs : Reg) (s : State), MappedRange s (s.readReg rs) 4 →
    ∃ t u, exec (.swr rt rs 0#16) s = .next t ∧ exec (.swl rt rs 3#16) t = .next u ∧
      u.wordAt (s.readReg rs) = s.readReg rt ∧
      (∀ a, (∀ k, k < 4 → a ≠ s.readReg rs + BitVec.ofNat 32 k) → u.byteAt a = s.byteAt a) ∧
      (∀ r, u.readReg r = s.readReg r)

/-! ## Arithmetic and logic -/

/-- R91, R93, R101: the exact signed result if it fits, else IntegerOverflow with nothing written; ADD
raises exactly when the operands have one sign and the 32-bit sum the other, SUB exactly when the
operands have different signs and the 32-bit difference the sign of rt. -/
def Obligations.TrappingArithmetic : Prop :=
  ∀ (rd rs rt : Reg) (imm : Half),
    EncodedAs (.add rd rs rt) (regFormat (regBits rs) (regBits rt) (regBits rd) 0#5 0b100000#6) ∧
    EncodedAs (.sub rd rs rt) (regFormat (regBits rs) (regBits rt) (regBits rd) 0#5 0b100010#6) ∧
    EncodedAs (.addi rt rs imm) (immFormat 0b001000#6 (regBits rs) (regBits rt) imm) ∧
    ∀ s : State,
      let a := s.readReg rs
      let b := s.readReg rt
      let c : Word := imm.signExtend 32
      let overflow : Answer := .next { s with outcome := .fault ⟨.integerOverflow, s.pc, s.bd⟩ }
      let fits (x : Int) : Prop := -2 ^ 31 ≤ x ∧ x ≤ 2 ^ 31 - 1
      (fits (a.toInt + b.toInt) →
        ∃ t, exec (.add rd rs rt) s = .next t ∧ OnlyReg s t rd (BitVec.ofInt 32 (a.toInt + b.toInt))) ∧
      (¬ fits (a.toInt + b.toInt) → exec (.add rd rs rt) s = overflow) ∧
      (¬ fits (a.toInt + b.toInt) ↔ a.msb = b.msb ∧ (a + b).msb ≠ a.msb) ∧
      (fits (a.toInt - b.toInt) →
        ∃ t, exec (.sub rd rs rt) s = .next t ∧ OnlyReg s t rd (BitVec.ofInt 32 (a.toInt - b.toInt))) ∧
      (¬ fits (a.toInt - b.toInt) → exec (.sub rd rs rt) s = overflow) ∧
      (¬ fits (a.toInt - b.toInt) ↔ a.msb ≠ b.msb ∧ (a - b).msb = b.msb) ∧
      (fits (a.toInt + c.toInt) →
        ∃ t, exec (.addi rt rs imm) s = .next t ∧
          OnlyReg s t rt (BitVec.ofInt 32 (a.toInt + c.toInt))) ∧
      (¬ fits (a.toInt + c.toInt) → exec (.addi rt rs imm) s = overflow)

/-- R92, R94, R102: the sum or difference modulo 2^32, never an exception. -/
def Obligations.WrappingArithmetic : Prop :=
  ∀ (rd rs rt : Reg) (imm : Half),
    EncodedAs (.addu rd rs rt) (regFormat (regBits rs) (regBits rt) (regBits rd) 0#5 0b100001#6) ∧
    EncodedAs (.subu rd rs rt) (regFormat (regBits rs) (regBits rt) (regBits rd) 0#5 0b100011#6) ∧
    EncodedAs (.addiu rt rs imm) (immFormat 0b001001#6 (regBits rs) (regBits rt) imm) ∧
    ∀ s : State,
      (∃ t v, exec (.addu rd rs rt) s = .next t ∧ OnlyReg s t rd v ∧
        v.toNat = ((s.readReg rs).toNat + (s.readReg rt).toNat) % 2 ^ 32) ∧
      (∃ t v, exec (.subu rd rs rt) s = .next t ∧ OnlyReg s t rd v ∧
        (v.toNat : Int) = ((s.readReg rs).toNat - (s.readReg rt).toNat : Int) % 2 ^ 32) ∧
      (∃ t v, exec (.addiu rt rs imm) s = .next t ∧ OnlyReg s t rt v ∧
        (v.toNat : Int) = ((s.readReg rs).toNat + imm.toInt : Int) % 2 ^ 32)

/-- R95 to R98, bit by bit. -/
def Obligations.BitwiseLogic : Prop :=
  ∀ (rd rs rt : Reg),
    EncodedAs (.and rd rs rt) (regFormat (regBits rs) (regBits rt) (regBits rd) 0#5 0b100100#6) ∧
    EncodedAs (.or rd rs rt) (regFormat (regBits rs) (regBits rt) (regBits rd) 0#5 0b100101#6) ∧
    EncodedAs (.xor rd rs rt) (regFormat (regBits rs) (regBits rt) (regBits rd) 0#5 0b100110#6) ∧
    EncodedAs (.nor rd rs rt) (regFormat (regBits rs) (regBits rt) (regBits rd) 0#5 0b100111#6) ∧
    ∀ s : State,
      let bit (v : Word) (k : Nat) : Bool := v.getLsbD k
      let a := s.readReg rs
      let b := s.readReg rt
      (∃ t v, exec (.and rd rs rt) s = .next t ∧ OnlyReg s t rd v ∧
        ∀ k, k < 32 → bit v k = (bit a k && bit b k)) ∧
      (∃ t v, exec (.or rd rs rt) s = .next t ∧ OnlyReg s t rd v ∧
        ∀ k, k < 32 → bit v k = (bit a k || bit b k)) ∧
      (∃ t v, exec (.xor rd rs rt) s = .next t ∧ OnlyReg s t rd v ∧
        ∀ k, k < 32 → bit v k = (bit a k ^^ bit b k)) ∧
      (∃ t v, exec (.nor rd rs rt) s = .next t ∧ OnlyReg s t rd v ∧
        ∀ k, k < 32 → bit v k = !(bit a k || bit b k))

/-- R99, R100, R103, R104: 1 or 0; SLTIU compares the sign-extended immediate as unsigned. -/
def Obligations.SetOnLessThan : Prop :=
  ∀ (rd rs rt : Reg) (imm : Half),
    EncodedAs (.slt rd rs rt) (regFormat (regBits rs) (regBits rt) (regBits rd) 0#5 0b101010#6) ∧
    EncodedAs (.sltu rd rs rt) (regFormat (regBits rs) (regBits rt) (regBits rd) 0#5 0b101011#6) ∧
    EncodedAs (.slti rt rs imm) (immFormat 0b001010#6 (regBits rs) (regBits rt) imm) ∧
    EncodedAs (.sltiu rt rs imm) (immFormat 0b001011#6 (regBits rs) (regBits rt) imm) ∧
    ∀ s : State,
      let a := s.readReg rs
      let b := s.readReg rt
      (∃ t, exec (.slt rd rs rt) s = .next t ∧
        OnlyReg s t rd (if a.toInt < b.toInt then 1#32 else 0#32)) ∧
      (∃ t, exec (.sltu rd rs rt) s = .next t ∧
        OnlyReg s t rd (if a.toNat < b.toNat then 1#32 else 0#32)) ∧
      (∃ t, exec (.slti rt rs imm) s = .next t ∧
        OnlyReg s t rt (if a.toInt < imm.toInt then 1#32 else 0#32)) ∧
      (∃ t, exec (.sltiu rt rs imm) s = .next t ∧
        OnlyReg s t rt (if a.toNat < (imm.signExtend 32).toNat then 1#32 else 0#32))

/-- R105 to R108: the logical immediates are zero-extended, LUI fills the low half with zeros. -/
def Obligations.ImmediateLogic : Prop :=
  ∀ (rt rs : Reg) (imm : Half),
    EncodedAs (.andi rt rs imm) (immFormat 0b001100#6 (regBits rs) (regBits rt) imm) ∧
    EncodedAs (.ori rt rs imm) (immFormat 0b001101#6 (regBits rs) (regBits rt) imm) ∧
    EncodedAs (.xori rt rs imm) (immFormat 0b001110#6 (regBits rs) (regBits rt) imm) ∧
    EncodedAs (.lui rt imm) (immFormat 0b001111#6 0#5 (regBits rt) imm) ∧
    ∀ s : State,
      let bit (v : Word) (k : Nat) : Bool := v.getLsbD k
      let a := s.readReg rs
      (∃ t v, exec (.andi rt rs imm) s = .next t ∧ OnlyReg s t rt v ∧
        ∀ k, k < 32 → bit v k = (bit a k && decide (k < 16) && imm.getLsbD k)) ∧
      (∃ t v, exec (.ori rt rs imm) s = .next t ∧ OnlyReg s t rt v ∧
        ∀ k, k < 32 → bit v k = (bit a k || (decide (k < 16) && imm.getLsbD k))) ∧
      (∃ t v, exec (.xori rt rs imm) s = .next t ∧ OnlyReg s t rt v ∧
        ∀ k, k < 32 → bit v k = (bit a k ^^ (decide (k < 16) && imm.getLsbD k))) ∧
      (∃ t v, exec (.lui rt imm) s = .next t ∧ OnlyReg s t rt v ∧
        ∀ k, k < 32 → bit v k = (decide (16 ≤ k) && imm.getLsbD (k - 16)))

/-! ## Shifts -/

/-- R120 to R123, bit by bit: zeros enter, or copies of bit 31; bits shifted out are lost. -/
def Obligations.ConstantShifts : Prop :=
  ∀ (rd rt : Reg) (sa : Shamt),
    EncodedAs (.sll rd rt sa) (regFormat 0#5 (regBits rt) (regBits rd) sa 0b000000#6) ∧
    EncodedAs (.srl rd rt sa) (regFormat 0#5 (regBits rt) (regBits rd) sa 0b000010#6) ∧
    EncodedAs (.sra rd rt sa) (regFormat 0#5 (regBits rt) (regBits rd) sa 0b000011#6) ∧
    ∀ s : State,
      let bit (v : Word) (k : Nat) : Bool := v.getLsbD k
      let x := s.readReg rt
      let n := sa.toNat
      (∃ t v, exec (.sll rd rt sa) s = .next t ∧ OnlyReg s t rd v ∧
        ∀ k, k < 32 → bit v k = (decide (n ≤ k) && bit x (k - n))) ∧
      (∃ t v, exec (.srl rd rt sa) s = .next t ∧ OnlyReg s t rd v ∧
        ∀ k, k < 32 → bit v k = (decide (k + n < 32) && bit x (k + n))) ∧
      (∃ t v, exec (.sra rd rt sa) s = .next t ∧ OnlyReg s t rd v ∧
        (∀ k, k < 32 → bit v k = bit x (min (k + n) 31)) ∧ v.toInt = x.toInt / 2 ^ n)

/-- R120, R124 to R126: as the constant shifts, by the low five bits of rs: 32 shifts by 0, 33 by 1. -/
def Obligations.VariableShifts : Prop :=
  ∀ (rd rt rs : Reg),
    EncodedAs (.sllv rd rt rs) (regFormat (regBits rs) (regBits rt) (regBits rd) 0#5 0b000100#6) ∧
    EncodedAs (.srlv rd rt rs) (regFormat (regBits rs) (regBits rt) (regBits rd) 0#5 0b000110#6) ∧
    EncodedAs (.srav rd rt rs) (regFormat (regBits rs) (regBits rt) (regBits rd) 0#5 0b000111#6) ∧
    ∀ s : State,
      let bit (v : Word) (k : Nat) : Bool := v.getLsbD k
      let x := s.readReg rt
      let n := (s.readReg rs).toNat % 32
      (∃ t v, exec (.sllv rd rt rs) s = .next t ∧ OnlyReg s t rd v ∧
        ∀ k, k < 32 → bit v k = (decide (n ≤ k) && bit x (k - n))) ∧
      (∃ t v, exec (.srlv rd rt rs) s = .next t ∧ OnlyReg s t rd v ∧
        ∀ k, k < 32 → bit v k = (decide (k + n < 32) && bit x (k + n))) ∧
      (∃ t v, exec (.srav rd rt rs) s = .next t ∧ OnlyReg s t rd v ∧
        (∀ k, k < 32 → bit v k = bit x (min (k + n) 31)) ∧ v.toInt = x.toInt / 2 ^ n)

/-! ## Multiply, divide, HI and LO -/

/-- R130, R131, R21: HI and LO together are the exact 64-bit product. -/
def Obligations.MultiplyGivesExactProduct : Prop :=
  ∀ (rs rt : Reg),
    EncodedAs (.mult rs rt) (regFormat (regBits rs) (regBits rt) 0#5 0#5 0b011000#6) ∧
    EncodedAs (.multu rs rt) (regFormat (regBits rs) (regBits rt) 0#5 0#5 0b011001#6) ∧
    ∀ s : State, s.hazardDistance ≤ s.hiloAge →
      (∃ t, exec (.mult rs rt) s = .next t ∧ OnlyHiLo s t t.hi t.lo ∧
        (t.hi ++ t.lo).toInt = (s.readReg rs).toInt * (s.readReg rt).toInt) ∧
      (∃ t, exec (.multu rs rt) s = .next t ∧ OnlyHiLo s t t.hi t.lo ∧
        (t.hi ++ t.lo).toNat = (s.readReg rs).toNat * (s.readReg rt).toNat)

/-- R132: dividend = quotient * divisor + remainder, the quotient truncated toward zero, so the
remainder is smaller than the divisor and has the dividend's sign or is zero. Where the spec leaves
HI and LO open (a zero divisor, -2^31 / -1) DIV completes too, raises nothing, and changes only HI and
LO, of which nothing is said. -/
def Obligations.SignedDivide : Prop :=
  ∀ (rs rt : Reg),
    EncodedAs (.div rs rt) (regFormat (regBits rs) (regBits rt) 0#5 0#5 0b011010#6) ∧
    ∀ s : State, s.hazardDistance ≤ s.hiloAge →
      let n := (s.readReg rs).toInt
      let d := (s.readReg rt).toInt
      (d ≠ 0 → ¬ (n = -2 ^ 31 ∧ d = -1) →
        ∃ t, exec (.div rs rt) s = .next t ∧ OnlyHiLo s t t.hi t.lo ∧
          n = t.lo.toInt * d + t.hi.toInt ∧ t.hi.toInt.natAbs < d.natAbs ∧
          (0 ≤ n → 0 ≤ t.hi.toInt) ∧ (n ≤ 0 → t.hi.toInt ≤ 0)) ∧
      (d = 0 ∨ (n = -2 ^ 31 ∧ d = -1) →
        ∃ t, exec (.div rs rt) s = .next t ∧ SameRegs s t ∧ SameMemory s t ∧ Retired s t)

/-- R133: dividend = quotient * divisor + remainder with the remainder below the divisor; a zero
divisor completes and leaves HI and LO open. -/
def Obligations.UnsignedDivide : Prop :=
  ∀ (rs rt : Reg),
    EncodedAs (.divu rs rt) (regFormat (regBits rs) (regBits rt) 0#5 0#5 0b011011#6) ∧
    ∀ s : State, s.hazardDistance ≤ s.hiloAge →
      let n := (s.readReg rs).toNat
      let d := (s.readReg rt).toNat
      (d ≠ 0 →
        ∃ t, exec (.divu rs rt) s = .next t ∧ OnlyHiLo s t t.hi t.lo ∧
          n = t.lo.toNat * d + t.hi.toNat ∧ t.hi.toNat < d) ∧
      (d = 0 → ∃ t, exec (.divu rs rt) s = .next t ∧ SameRegs s t ∧ SameMemory s t ∧ Retired s t)

/-- R134, R136: `x[rd]` receives HI or LO, which keep their values, and `hilo_age` becomes 0. -/
def Obligations.MoveFromHiLo : Prop :=
  ∀ (rd : Reg),
    EncodedAs (.mfhi rd) (regFormat 0#5 0#5 (regBits rd) 0#5 0b010000#6) ∧
    EncodedAs (.mflo rd) (regFormat 0#5 0#5 (regBits rd) 0#5 0b010010#6) ∧
    ∀ s : State,
      (∃ t, exec (.mfhi rd) s = .next t ∧ NewReg s t rd s.hi ∧ t.hiloAge = 0 ∧ SameHiLo s t ∧
        SameMemory s t ∧ FallsThrough s t ∧ SameRun s t) ∧
      (∃ t, exec (.mflo rd) s = .next t ∧ NewReg s t rd s.lo ∧ t.hiloAge = 0 ∧ SameHiLo s t ∧
        SameMemory s t ∧ FallsThrough s t ∧ SameRun s t)

/-- R135, R137: HI or LO receives `x[rs]`, the other one of the two keeps its value; refused while
`hilo_age` is below the distance. -/
def Obligations.MoveToHiLo : Prop :=
  ∀ (rs : Reg),
    EncodedAs (.mthi rs) (regFormat (regBits rs) 0#5 0#5 0#5 0b010001#6) ∧
    EncodedAs (.mtlo rs) (regFormat (regBits rs) 0#5 0#5 0#5 0b010011#6) ∧
    ∀ s : State,
      (s.hazardDistance ≤ s.hiloAge →
        (∃ t, exec (.mthi rs) s = .next t ∧ OnlyHiLo s t (s.readReg rs) s.lo) ∧
        (∃ t, exec (.mtlo rs) s = .next t ∧ OnlyHiLo s t s.hi (s.readReg rs))) ∧
      (s.hiloAge < s.hazardDistance →
        exec (.mthi rs) s = .refused .hiLoHazard ∧ exec (.mtlo rs) s = .refused .hiLoHazard)

/-- R204: a write of HI or LO is refused exactly while fewer than the distance of instructions have run
since MFHI or MFLO; under distance 0 never; under distance 2 one instruction after MFHI or MFLO still is
too soon. -/
def Obligations.HiLoHazard : Prop :=
  (∀ (i : Instr) (s : State), writesHiLo i = true →
    (exec i s = .refused .hiLoHazard ↔ s.hiloAge < s.hazardDistance)) ∧
  (∀ (i k : Instr) (s t : State), readsHiLo i = true → exec i s = .next t →
    s.params.hazard = .two → writesHiLo k = true →
      exec k t = .refused .hiLoHazard ∧
      ∀ (m : Instr) (u : State), exec m t = .next u → exec k u = .refused .hiLoHazard) ∧
  (∀ (i : Instr) (s : State), s.params.hazard = .none → exec i s ≠ .refused .hiLoHazard)

/-! ## Jumps -/

/-- R146, R147: the target takes its top four bits from the delay slot's address; JAL links to
`pc + 8`; both are refused in a delay slot. -/
def Obligations.JumpAndLink : Prop :=
  ∀ (target : BitVec 26),
    EncodedAs (.j target) (jumpFormat 0b000010#6 target) ∧
    EncodedAs (.jal target) (jumpFormat 0b000011#6 target) ∧
    ∀ s : State,
      let T : Word := (s.pc + 4#32).extractLsb' 28 4 ++ target ++ 0b00#2
      (s.bd = false →
        (∃ t, exec (.j target) s = .next t ∧ JumpsTo s t T ∧ SameRegs s t ∧ SameHiLo s t ∧
          SameMemory s t ∧ AgeCounts s t ∧ SameRun s t) ∧
        (∃ t, exec (.jal target) s = .next t ∧ JumpsTo s t T ∧ NewReg s t 31 (s.pc + 8#32) ∧
          SameHiLo s t ∧ SameMemory s t ∧ AgeCounts s t ∧ SameRun s t)) ∧
      (s.bd = true →
        exec (.j target) s = .refused .jumpInDelaySlot ∧
        exec (.jal target) s = .refused .jumpInDelaySlot) ∧
      T.toNat % 4 = 0

/-- R148, R149: the target is the register's value before the link is written; JALR links to
`pc + 8` in rd, and is refused for rd = rs; both are refused in a delay slot; a misaligned target faults
at its own fetch, after the delay slot, not at the jump. -/
def Obligations.JumpRegister : Prop :=
  ∀ (rd rs : Reg),
    EncodedAs (.jr rs) (regFormat (regBits rs) 0#5 0#5 0#5 0b001000#6) ∧
    EncodedAs (.jalr rd rs) (regFormat (regBits rs) 0#5 (regBits rd) 0#5 0b001001#6) ∧
    ∀ s : State,
      let T := s.readReg rs
      let faultsAtTarget (t : State) : Prop :=
        T.toNat % 4 ≠ 0 → ∀ k u, exec k t = .next u → u.outcome = .running →
          step u = .next { u with outcome := .fault ⟨.addressError .fetch T, T, false⟩ }
      (s.bd = false →
        (∃ t, exec (.jr rs) s = .next t ∧ JumpsTo s t T ∧ SameRegs s t ∧ SameHiLo s t ∧
          SameMemory s t ∧ AgeCounts s t ∧ SameRun s t ∧ faultsAtTarget t) ∧
        (rd ≠ rs →
          ∃ t, exec (.jalr rd rs) s = .next t ∧ JumpsTo s t T ∧ NewReg s t rd (s.pc + 8#32) ∧
            SameHiLo s t ∧ SameMemory s t ∧ AgeCounts s t ∧ SameRun s t ∧ faultsAtTarget t) ∧
        (rd = rs → exec (.jalr rd rs) s = .refused .jalrSameRegister)) ∧
      (s.bd = true →
        exec (.jr rs) s = .refused .jumpInDelaySlot ∧
        exec (.jalr rd rs) s = .refused .jumpInDelaySlot)

/-- R145: after a jump, the instruction in the delay slot runs on the state the jump left. If it
completes, the machine stands at the jump's target outside a delay slot, whatever the instruction wrote;
if it raises, the machine stops in the delay slot with `bd = 1` in the record and the jump's own effects
done. -/
def Obligations.DelaySlotThenTarget : Prop :=
  ∀ (i k : Instr) (s t u : State), s.outcome = .running → isJump i = true → exec i s = .next t →
    exec k t = .next u →
      t.pc = s.npc ∧ t.bd = true ∧ isJump k = false ∧
      (u.outcome = .running → u.pc = t.npc ∧ u.npc = t.npc + 4#32 ∧ u.bd = false) ∧
      (u.outcome ≠ .running → ∃ c, u = { t with outcome := .fault ⟨c, s.npc, true⟩ })

/-- R150: the four jumps, and nothing else, are refused in a delay slot, before any effect and before
JALR's own refusal. -/
def Obligations.JumpInDelaySlotIsRefused : Prop :=
  (∀ (i : Instr) (s : State), s.bd = true →
    (exec i s = .refused .jumpInDelaySlot ↔ isJump i = true)) ∧
  (∀ (i : Instr) (s : State) (w : Word), s.outcome = .running → fetch s = .ok w → decode w = .ok i →
    s.bd = true → isJump i = true → step s = .refused .jumpInDelaySlot)

/-! ## System call, breakpoint and traps -/

/-- R155, R156: the whole 20-bit code field is recorded, nothing is written. -/
def Obligations.SystemCallAndBreakpoint : Prop :=
  ∀ (code : BitVec 20),
    EncodedAs (.syscall code) (codeFormat code 0b001100#6) ∧
    EncodedAs (.brk code) (codeFormat code 0b001101#6) ∧
    ∀ s : State,
      exec (.syscall code) s =
        .next { s with outcome := .fault ⟨.systemCall code, s.pc, s.bd⟩ } ∧
      exec (.brk code) s = .next { s with outcome := .fault ⟨.breakpoint code, s.pc, s.bd⟩ }

/-- R161 to R166: a register trap raises Trap with its 10-bit code exactly when its condition holds,
and does nothing else. -/
def Obligations.RegisterTraps : Prop :=
  ∀ (rs rt : Reg) (code : BitVec 10) (s : State),
    let a := s.readReg rs
    let b := s.readReg rt
    ∀ p ∈ [(Instr.tge rs rt code, 0b110000#6, decide (b.toInt ≤ a.toInt)),
           (Instr.tgeu rs rt code, 0b110001#6, decide (b.toNat ≤ a.toNat)),
           (Instr.tlt rs rt code, 0b110010#6, decide (a.toInt < b.toInt)),
           (Instr.tltu rs rt code, 0b110011#6, decide (a.toNat < b.toNat)),
           (Instr.teq rs rt code, 0b110100#6, decide (a = b)),
           (Instr.tne rs rt code, 0b110110#6, decide (a ≠ b))],
      EncodedAs p.1 (trapFormat (regBits rs) (regBits rt) code p.2.1) ∧
      (p.2.2 = true →
        exec p.1 s = .next { s with outcome := .fault ⟨.trap (some code), s.pc, s.bd⟩ }) ∧
      (p.2.2 = false → ∃ t, exec p.1 s = .next t ∧ OnlyRetired s t)

/-- R167 to R172: an immediate trap compares with the sign-extended immediate, the unsigned variants
too, and its record has no code. -/
def Obligations.ImmediateTraps : Prop :=
  ∀ (rs : Reg) (imm : Half) (s : State),
    let a := s.readReg rs
    let b : Word := imm.signExtend 32
    ∀ p ∈ [(Instr.tgei rs imm, 0b01000#5, decide (b.toInt ≤ a.toInt)),
           (Instr.tgeiu rs imm, 0b01001#5, decide (b.toNat ≤ a.toNat)),
           (Instr.tlti rs imm, 0b01010#5, decide (a.toInt < b.toInt)),
           (Instr.tltiu rs imm, 0b01011#5, decide (a.toNat < b.toNat)),
           (Instr.teqi rs imm, 0b01100#5, decide (a = b)),
           (Instr.tnei rs imm, 0b01110#5, decide (a ≠ b))],
      EncodedAs p.1 (immFormat 0b000001#6 (regBits rs) p.2.1 imm) ∧
      (p.2.2 = true →
        exec p.1 s = .next { s with outcome := .fault ⟨.trap none, s.pc, s.bd⟩ }) ∧
      (p.2.2 = false → ∃ t, exec p.1 s = .next t ∧ OnlyRetired s t)
end

