-- ==== Sys2Proof/Laws/Decode.lean ====
section
/-! SUPPORT. The fields of each format, the bytes of a word, and what `decode` answers. -/

namespace Sys2Proof

/-! ## Bit ranges of a concatenation -/

theorem extract_append_low {n m : Nat} (x : BitVec n) (y : BitVec m) (s k : Nat) (h : s + k ≤ m) :
    (x ++ y).extractLsb' s k = y.extractLsb' s k := by
  ext i hi
  simp only [BitVec.getElem_extractLsb', BitVec.getLsbD_append]
  rw [if_pos (by omega)]

theorem extract_append_high {n m : Nat} (x : BitVec n) (y : BitVec m) (s k : Nat) (h : m ≤ s) :
    (x ++ y).extractLsb' s k = x.extractLsb' (s - m) k := by
  ext i hi
  simp only [BitVec.getElem_extractLsb', BitVec.getLsbD_append]
  rw [if_neg (by omega)]
  congr 1
  omega

theorem extract_all {n : Nat} (x : BitVec n) : x.extractLsb' 0 n = x := by
  ext i hi; simp

@[simp] theorem toFin_regBits (r : Reg) : (regBits r).toFin = r := rfl

@[simp] theorem regBits_toFin (b : BitVec 5) : regBits b.toFin = b := rfl

theorem toFin_zero : (0#5).toFin = 0 := rfl

/-! ## The fields of regFormat -/

@[simp] theorem opcodeField_regFormat (rs rt rd : BitVec 5) (sa : Shamt) (f : BitVec 6) : opcodeField (regFormat rs rt rd sa f) = 0#6 := by
  unfold opcodeField regFormat
  change @BitVec.extractLsb' (6 + 5 + 5 + 5 + 5 + 6) 26 6 _ = 0#6
  simp (disch := omega) only [extract_append_high, Nat.reduceSub, extract_all]

@[simp] theorem rsField_regFormat (rs rt rd : BitVec 5) (sa : Shamt) (f : BitVec 6) : rsField (regFormat rs rt rd sa f) = rs.toFin := by
  unfold rsField regFormat
  refine congrArg BitVec.toFin ?_
  change @BitVec.extractLsb' (6 + 5 + 5 + 5 + 5 + 6) 21 5 _ = rs
  simp (disch := omega) only [extract_append_high, extract_append_low, Nat.reduceSub, extract_all]

@[simp] theorem rtField_regFormat (rs rt rd : BitVec 5) (sa : Shamt) (f : BitVec 6) : rtField (regFormat rs rt rd sa f) = rt.toFin := by
  unfold rtField regFormat
  refine congrArg BitVec.toFin ?_
  change @BitVec.extractLsb' (6 + 5 + 5 + 5 + 5 + 6) 16 5 _ = rt
  simp (disch := omega) only [extract_append_high, extract_append_low, Nat.reduceSub, extract_all]

@[simp] theorem rdField_regFormat (rs rt rd : BitVec 5) (sa : Shamt) (f : BitVec 6) : rdField (regFormat rs rt rd sa f) = rd.toFin := by
  unfold rdField regFormat
  refine congrArg BitVec.toFin ?_
  change @BitVec.extractLsb' (6 + 5 + 5 + 5 + 5 + 6) 11 5 _ = rd
  simp (disch := omega) only [extract_append_high, extract_append_low, Nat.reduceSub, extract_all]

@[simp] theorem saField_regFormat (rs rt rd : BitVec 5) (sa : Shamt) (f : BitVec 6) : saField (regFormat rs rt rd sa f) = sa := by
  unfold saField regFormat
  change @BitVec.extractLsb' (6 + 5 + 5 + 5 + 5 + 6) 6 5 _ = sa
  simp (disch := omega) only [extract_append_high, extract_append_low, Nat.reduceSub, extract_all]

@[simp] theorem functField_regFormat (rs rt rd : BitVec 5) (sa : Shamt) (f : BitVec 6) : functField (regFormat rs rt rd sa f) = f := by
  unfold functField regFormat
  change @BitVec.extractLsb' (6 + 5 + 5 + 5 + 5 + 6) 0 6 _ = f
  simp (disch := omega) only [extract_append_low, extract_all]

/-! ## The fields of immFormat -/

@[simp] theorem opcodeField_immFormat (op : BitVec 6) (rs rt : BitVec 5) (imm : Half) : opcodeField (immFormat op rs rt imm) = op := by
  unfold opcodeField immFormat
  change @BitVec.extractLsb' (6 + 5 + 5 + 16) 26 6 _ = op
  simp (disch := omega) only [extract_append_high, Nat.reduceSub, extract_all]

@[simp] theorem rsField_immFormat (op : BitVec 6) (rs rt : BitVec 5) (imm : Half) : rsField (immFormat op rs rt imm) = rs.toFin := by
  unfold rsField immFormat
  refine congrArg BitVec.toFin ?_
  change @BitVec.extractLsb' (6 + 5 + 5 + 16) 21 5 _ = rs
  simp (disch := omega) only [extract_append_high, extract_append_low, Nat.reduceSub, extract_all]

@[simp] theorem rtField_immFormat (op : BitVec 6) (rs rt : BitVec 5) (imm : Half) : rtField (immFormat op rs rt imm) = rt.toFin := by
  unfold rtField immFormat
  refine congrArg BitVec.toFin ?_
  change @BitVec.extractLsb' (6 + 5 + 5 + 16) 16 5 _ = rt
  simp (disch := omega) only [extract_append_high, extract_append_low, Nat.reduceSub, extract_all]

@[simp] theorem immField_immFormat (op : BitVec 6) (rs rt : BitVec 5) (imm : Half) : immField (immFormat op rs rt imm) = imm := by
  unfold immField immFormat
  change @BitVec.extractLsb' (6 + 5 + 5 + 16) 0 16 _ = imm
  simp (disch := omega) only [extract_append_low, extract_all]

/-! ## The fields of jumpFormat -/

@[simp] theorem opcodeField_jumpFormat (op : BitVec 6) (target : BitVec 26) : opcodeField (jumpFormat op target) = op := by
  unfold opcodeField jumpFormat
  change @BitVec.extractLsb' (6 + 26) 26 6 _ = op
  simp (disch := omega) only [extract_append_high, Nat.reduceSub, extract_all]

@[simp] theorem targetField_jumpFormat (op : BitVec 6) (target : BitVec 26) : targetField (jumpFormat op target) = target := by
  unfold targetField jumpFormat
  change @BitVec.extractLsb' (6 + 26) 0 26 _ = target
  simp (disch := omega) only [extract_append_low, extract_all]

/-! ## The fields of codeFormat -/

@[simp] theorem opcodeField_codeFormat (code : BitVec 20) (f : BitVec 6) : opcodeField (codeFormat code f) = 0#6 := by
  unfold opcodeField codeFormat
  change @BitVec.extractLsb' (6 + 20 + 6) 26 6 _ = 0#6
  simp (disch := omega) only [extract_append_high, Nat.reduceSub, extract_all]

@[simp] theorem codeField_codeFormat (code : BitVec 20) (f : BitVec 6) : codeField (codeFormat code f) = code := by
  unfold codeField codeFormat
  change @BitVec.extractLsb' (6 + 20 + 6) 6 20 _ = code
  simp (disch := omega) only [extract_append_high, extract_append_low, Nat.reduceSub, extract_all]

@[simp] theorem functField_codeFormat (code : BitVec 20) (f : BitVec 6) : functField (codeFormat code f) = f := by
  unfold functField codeFormat
  change @BitVec.extractLsb' (6 + 20 + 6) 0 6 _ = f
  simp (disch := omega) only [extract_append_low, extract_all]

/-! ## The fields of trapFormat -/

@[simp] theorem opcodeField_trapFormat (rs rt : BitVec 5) (code : BitVec 10) (f : BitVec 6) : opcodeField (trapFormat rs rt code f) = 0#6 := by
  unfold opcodeField trapFormat
  change @BitVec.extractLsb' (6 + 5 + 5 + 10 + 6) 26 6 _ = 0#6
  simp (disch := omega) only [extract_append_high, Nat.reduceSub, extract_all]

@[simp] theorem rsField_trapFormat (rs rt : BitVec 5) (code : BitVec 10) (f : BitVec 6) : rsField (trapFormat rs rt code f) = rs.toFin := by
  unfold rsField trapFormat
  refine congrArg BitVec.toFin ?_
  change @BitVec.extractLsb' (6 + 5 + 5 + 10 + 6) 21 5 _ = rs
  simp (disch := omega) only [extract_append_high, extract_append_low, Nat.reduceSub, extract_all]

@[simp] theorem rtField_trapFormat (rs rt : BitVec 5) (code : BitVec 10) (f : BitVec 6) : rtField (trapFormat rs rt code f) = rt.toFin := by
  unfold rtField trapFormat
  refine congrArg BitVec.toFin ?_
  change @BitVec.extractLsb' (6 + 5 + 5 + 10 + 6) 16 5 _ = rt
  simp (disch := omega) only [extract_append_high, extract_append_low, Nat.reduceSub, extract_all]

@[simp] theorem trapCodeField_trapFormat (rs rt : BitVec 5) (code : BitVec 10) (f : BitVec 6) : trapCodeField (trapFormat rs rt code f) = code := by
  unfold trapCodeField trapFormat
  change @BitVec.extractLsb' (6 + 5 + 5 + 10 + 6) 6 10 _ = code
  simp (disch := omega) only [extract_append_high, extract_append_low, Nat.reduceSub, extract_all]

@[simp] theorem functField_trapFormat (rs rt : BitVec 5) (code : BitVec 10) (f : BitVec 6) : functField (trapFormat rs rt code f) = f := by
  unfold functField trapFormat
  change @BitVec.extractLsb' (6 + 5 + 5 + 10 + 6) 0 6 _ = f
  simp (disch := omega) only [extract_append_low, extract_all]

/-! ## A word is the concatenation of its fields -/

theorem append_extract {n : Nat} (x : BitVec n) (t s j k : Nat) (h : t = s + k) :
    x.extractLsb' t j ++ x.extractLsb' s k = x.extractLsb' s (j + k) := by
  subst h
  ext i hi
  rw [BitVec.getElem_append]
  simp only [BitVec.getElem_extractLsb']
  split
  · rfl
  · congr 1; omega

theorem regFormat_fields (w : Word) (h : opcodeField w = 0#6) :
    regFormat (regBits (rsField w)) (regBits (rtField w)) (regBits (rdField w)) (saField w)
      (functField w) = w := by
  have e : (w.extractLsb' 26 6 ++ w.extractLsb' 21 5 ++ w.extractLsb' 16 5 ++ w.extractLsb' 11 5
      ++ w.extractLsb' 6 5 ++ w.extractLsb' 0 6 : BitVec (6 + 5 + 5 + 5 + 5 + 6)) = w := by
    rw [append_extract w 26 21 _ _ rfl, append_extract w 21 16 _ _ rfl,
      append_extract w 16 11 _ _ rfl, append_extract w 11 6 _ _ rfl, append_extract w 6 0 _ _ rfl]
    exact extract_all w
  unfold opcodeField at h
  rw [h] at e
  exact e

theorem immFormat_fields (w : Word) :
    immFormat (opcodeField w) (regBits (rsField w)) (regBits (rtField w)) (immField w) = w := by
  have e : (w.extractLsb' 26 6 ++ w.extractLsb' 21 5 ++ w.extractLsb' 16 5 ++ w.extractLsb' 0 16
      : BitVec (6 + 5 + 5 + 16)) = w := by
    rw [append_extract w 26 21 _ _ rfl, append_extract w 21 16 _ _ rfl, append_extract w 16 0 _ _ rfl]
    exact extract_all w
  exact e

theorem jumpFormat_fields (w : Word) : jumpFormat (opcodeField w) (targetField w) = w := by
  have e : (w.extractLsb' 26 6 ++ w.extractLsb' 0 26 : BitVec (6 + 26)) = w := by
    rw [append_extract w 26 0 _ _ rfl]
    exact extract_all w
  exact e

theorem codeFormat_fields (w : Word) (h : opcodeField w = 0#6) :
    codeFormat (codeField w) (functField w) = w := by
  have e : (w.extractLsb' 26 6 ++ w.extractLsb' 6 20 ++ w.extractLsb' 0 6 : BitVec (6 + 20 + 6)) = w := by
    rw [append_extract w 26 6 _ _ rfl, append_extract w 6 0 _ _ rfl]
    exact extract_all w
  unfold opcodeField at h
  rw [h] at e
  exact e

theorem trapFormat_fields (w : Word) (h : opcodeField w = 0#6) :
    trapFormat (regBits (rsField w)) (regBits (rtField w)) (trapCodeField w) (functField w) = w := by
  have e : (w.extractLsb' 26 6 ++ w.extractLsb' 21 5 ++ w.extractLsb' 16 5 ++ w.extractLsb' 6 10
      ++ w.extractLsb' 0 6 : BitVec (6 + 5 + 5 + 10 + 6)) = w := by
    rw [append_extract w 26 21 _ _ rfl, append_extract w 21 16 _ _ rfl,
      append_extract w 16 6 _ _ rfl, append_extract w 6 0 _ _ rfl]
    exact extract_all w
  unfold opcodeField at h
  rw [h] at e
  exact e

/-! ## Masks and matches, field by field (R58) -/

/-- Bits 25..21, 20..16 and 15..11 as they stand in the word. -/
def rsBits (w : Word) : BitVec 5 := w.extractLsb' 21 5
def rtBits (w : Word) : BitVec 5 := w.extractLsb' 16 5
def rdBits (w : Word) : BitVec 5 := w.extractLsb' 11 5

theorem rsField_eq (w : Word) : rsField w = (rsBits w).toFin := rfl
theorem rtField_eq (w : Word) : rtField w = (rtBits w).toFin := rfl
theorem rdField_eq (w : Word) : rdField w = (rdBits w).toFin := rfl

@[simp] theorem rsBits_regFormat (rs rt rd : BitVec 5) (sa : Shamt) (f : BitVec 6) : rsBits (regFormat rs rt rd sa f) = rs :=
  BitVec.eq_of_toFin_eq (rsField_regFormat rs rt rd sa f)

@[simp] theorem rtBits_regFormat (rs rt rd : BitVec 5) (sa : Shamt) (f : BitVec 6) : rtBits (regFormat rs rt rd sa f) = rt :=
  BitVec.eq_of_toFin_eq (rtField_regFormat rs rt rd sa f)

@[simp] theorem rdBits_regFormat (rs rt rd : BitVec 5) (sa : Shamt) (f : BitVec 6) : rdBits (regFormat rs rt rd sa f) = rd :=
  BitVec.eq_of_toFin_eq (rdField_regFormat rs rt rd sa f)

@[simp] theorem rsBits_immFormat (op : BitVec 6) (rs rt : BitVec 5) (imm : Half) : rsBits (immFormat op rs rt imm) = rs :=
  BitVec.eq_of_toFin_eq (rsField_immFormat op rs rt imm)

@[simp] theorem rtBits_immFormat (op : BitVec 6) (rs rt : BitVec 5) (imm : Half) : rtBits (immFormat op rs rt imm) = rt :=
  BitVec.eq_of_toFin_eq (rtField_immFormat op rs rt imm)

@[simp] theorem rsBits_trapFormat (rs rt : BitVec 5) (code : BitVec 10) (f : BitVec 6) : rsBits (trapFormat rs rt code f) = rs :=
  BitVec.eq_of_toFin_eq (rsField_trapFormat rs rt code f)

@[simp] theorem rtBits_trapFormat (rs rt : BitVec 5) (code : BitVec 10) (f : BitVec 6) : rtBits (trapFormat rs rt code f) = rt :=
  BitVec.eq_of_toFin_eq (rtField_trapFormat rs rt code f)

theorem toFin_eq_zero (b : BitVec 5) : b.toFin = 0 ↔ b = 0#5 :=
  ⟨fun h => BitVec.eq_of_toFin_eq h, fun h => by rw [h]; rfl⟩

/-- Two words are equal if their six fields are. -/
theorem fields_ext (v w : Word) (h1 : opcodeField v = opcodeField w) (h2 : rsBits v = rsBits w)
    (h3 : rtBits v = rtBits w) (h4 : rdBits v = rdBits w) (h5 : saField v = saField w)
    (h6 : functField v = functField w) : v = w := by
  have e (x : Word) : (opcodeField x ++ rsBits x ++ rtBits x ++ rdBits x ++ saField x ++ functField x
      : BitVec (6 + 5 + 5 + 5 + 5 + 6)) = x := by
    unfold opcodeField rsBits rtBits rdBits saField functField
    rw [append_extract x 26 21 _ _ rfl, append_extract x 21 16 _ _ rfl,
      append_extract x 16 11 _ _ rfl, append_extract x 11 6 _ _ rfl, append_extract x 6 0 _ _ rfl]
    exact extract_all x
  rw [← e v, ← e w, h1, h2, h3, h4, h5, h6]

/-- A row accepts a word exactly if each field of the word, masked, is the row's. -/
theorem Row.accepts_iff (r : Row) (w : Word) : r.accepts w = true ↔
    (opcodeField w &&& opcodeField r.mask = opcodeField r.value ∧
     rsBits w &&& rsBits r.mask = rsBits r.value ∧ rtBits w &&& rtBits r.mask = rtBits r.value ∧
     rdBits w &&& rdBits r.mask = rdBits r.value ∧ saField w &&& saField r.mask = saField r.value ∧
     functField w &&& functField r.mask = functField r.value) := by
  unfold Row.accepts
  rw [beq_iff_eq]
  constructor
  · intro h
    rw [← h]
    unfold opcodeField rsBits rtBits rdBits saField functField
    simp only [BitVec.extractLsb'_and, and_self]
  · rintro ⟨h1, h2, h3, h4, h5, h6⟩
    apply fields_ext
    all_goals
      unfold opcodeField rsBits rtBits rdBits saField functField at *
      rw [BitVec.extractLsb'_and]
      assumption

theorem and_ones_six (x : BitVec 6) : x &&& 63#6 = x := BitVec.and_allOnes

theorem and_ones_five (x : BitVec 5) : x &&& 31#5 = x := BitVec.and_allOnes

/-! ## What decoding answers -/

/-- A row with must-be-zero fields answers its instruction exactly if they are zero (R62). -/
@[simp] theorem whenZero_eq_some (z : Bool) (i k : Instr) :
    whenZero z i = some k ↔ z = true ∧ i = k := by
  cases z <;> simp [whenZero]

theorem decode_eq_ok (w : Word) (i : Instr) : decode w = .ok i ↔ decodeRow w = some i := by
  unfold decode
  cases decodeRow w <;> simp

theorem decode_eq_error (w : Word) (e : DecodeError) :
    decode w = .error e ↔ decodeRow w = none ∧ e = .notInSpec w := by
  unfold decode
  cases decodeRow w <;> simp [eq_comm]

/-! ## Bytes -/

@[simp] theorem leValue_one (b : Byte) : leValue [b] = b.setWidth 32 := by
  simp [leValue]

theorem byteOf_leValue (bs : List Byte) (k : Nat) (hk : k < 4) :
    byteOf (leValue bs) k = bs.getD k 0#8 := by
  induction bs generalizing k with
  | nil => ext i hi; simp [byteOf, leValue]
  | cons b bs ih =>
    cases k with
    | zero =>
      ext i hi
      simp [byteOf, leValue, hi]
      omega
    | succ k =>
      rw [List.getD_cons_succ, ← ih k (by omega)]
      ext i hi
      simp [byteOf, leValue]
      rw [show 8 * (k + 1) + i - 8 = 8 * k + i by omega]
      simp [show 8 * (k + 1) + i < 32 by omega, BitVec.getLsbD_of_ge b (8 * (k + 1) + i) (by omega),
        show ¬ (8 * (k + 1) + i < 8) by omega]

/-- A word is the bytes it is made of. -/
theorem word_ext (v w : Word) (h : ∀ k, k < 4 → byteOf v k = byteOf w k) : v = w := by
  ext i hi
  have := congrArg (fun b : Byte => b.getLsbD (i % 8)) (h (i / 8) (by omega))
  rw [← BitVec.getLsbD_eq_getElem hi, ← BitVec.getLsbD_eq_getElem hi]
  simpa [byteOf, Nat.mod_lt, show 8 * (i / 8) + i % 8 = i by omega] using this

@[simp] theorem leValue_leBytes (w : Word) : leValue (leBytes w) = w := by
  refine word_ext _ _ (fun k hk => ?_)
  rw [byteOf_leValue _ k hk]
  have : k = 0 ∨ k = 1 ∨ k = 2 ∨ k = 3 := by omega
  rcases this with rfl | rfl | rfl | rfl <;> rfl

@[simp] theorem leBytes_length (w : Word) : (leBytes w).length = 4 := rfl

theorem leValue_two (b0 b1 : Byte) : leValue [b0, b1] = (b1 ++ b0).setWidth 32 := by
  ext i hi
  have e : (b1 ++ b0).getLsbD i = if i < 8 then b0.getLsbD i else b1.getLsbD (i - 8) :=
    BitVec.getLsbD_append
  simp only [BitVec.getElem_setWidth, e]
  by_cases h : i < 8
  · simp [leValue, h]
  · simp [leValue, h, BitVec.getLsbD_of_ge b0 i (by omega)]

theorem leValue_four (b0 b1 b2 b3 : Byte) : leValue [b0, b1, b2, b3] = b3 ++ b2 ++ b1 ++ b0 := by
  refine word_ext _ _ (fun k hk => ?_)
  rw [byteOf_leValue _ k hk]
  unfold byteOf
  change _ = @BitVec.extractLsb' (8 + 8 + 8 + 8) (8 * k) 8 _
  have : k = 0 ∨ k = 1 ∨ k = 2 ∨ k = 3 := by omega
  rcases this with rfl | rfl | rfl | rfl <;>
    simp (disch := omega) only [extract_append_high, extract_append_low] <;>
    simp

end Sys2Proof
end

