-- ==== Sys2Proof/Laws/Memory.lean ====
section
/-! SUPPORT. Memory and the stored-to set: read after write, frame, and the canonical forms. -/

namespace Sys2Proof.Machine

/-! ## Reading after writing -/

theorem Memory.get_insertCell_same (m : Memory) (a : Nat) (v : Byte)
    (h : ∀ c ∈ m, c.1 ≠ a) : Memory.get (Memory.insertCell a v m) a = v := by
  induction m with
  | nil => simp [Memory.insertCell, Memory.get]
  | cons c m ih =>
    have hc := h c (by simp)
    have hm : ∀ d ∈ m, d.1 ≠ a := fun d hd => h d (by simp [hd])
    by_cases hlt : a < c.1
    · simp [Memory.insertCell, Memory.get, hlt]
    · simp [Memory.insertCell, Memory.get, hlt, hc, ih hm]

theorem Memory.get_insertCell_other (m : Memory) (a b : Nat) (v : Byte) (h : b ≠ a) :
    Memory.get (Memory.insertCell a v m) b = Memory.get m b := by
  induction m with
  | nil => simp [Memory.insertCell, Memory.get, Ne.symm h]
  | cons c m ih =>
    by_cases hlt : a < c.1
    · simp [Memory.insertCell, Memory.get, hlt, Ne.symm h]
    · simp [Memory.insertCell, Memory.get, hlt, ih]

theorem Memory.get_erase_same (m : Memory) (a : Nat) :
    Memory.get (m.filter (fun c => c.1 != a)) a = Config.unlistedByte := by
  induction m with
  | nil => rfl
  | cons c m ih =>
    by_cases hc : c.1 = a
    · simpa [hc] using ih
    · simpa [hc, Memory.get] using ih

theorem Memory.get_erase_other (m : Memory) (a b : Nat) (h : b ≠ a) :
    Memory.get (m.filter (fun c => c.1 != a)) b = Memory.get m b := by
  induction m with
  | nil => rfl
  | cons c m ih =>
    by_cases hc : c.1 = a
    · simp [hc, Memory.get, Ne.symm h] at ih ⊢; exact ih
    · simp [hc, Memory.get] at ih ⊢; rw [ih]

/-- A write is read back. -/
@[simp] theorem Memory.get_set_same (m : Memory) (a : Nat) (v : Byte) : (m.set a v).get a = v := by
  unfold Memory.set
  by_cases hv : v = Config.unlistedByte
  · simp [hv, Memory.get_erase_same]
  · simp only [hv, if_false]
    exact Memory.get_insertCell_same _ a v (by simp)

/-- A write leaves every other address alone. -/
theorem Memory.get_set_other (m : Memory) (a b : Nat) (v : Byte) (h : b ≠ a) :
    (m.set a v).get b = m.get b := by
  unfold Memory.set
  by_cases hv : v = Config.unlistedByte
  · simp [hv, Memory.get_erase_other m a b h]
  · simp only [hv, if_false]
    rw [Memory.get_insertCell_other _ a b v h, Memory.get_erase_other m a b h]

theorem Memory.get_set (m : Memory) (a b : Nat) (v : Byte) :
    (m.set a v).get b = if b = a then v else m.get b := by
  by_cases h : b = a
  · subst h; simp
  · simp [h, Memory.get_set_other m a b v h]

/-! ## Rising lists -/

theorem rising_iff_pairwise (l : List Nat) : rising l = true ↔ l.Pairwise (· < ·) := by
  induction l with
  | nil => simp [rising]
  | cons a l ih =>
    cases l with
    | nil => simp [rising]
    | cons b l =>
      simp only [rising, Bool.and_eq_true, decide_eq_true_eq, ih, List.pairwise_cons]
      constructor
      · rintro ⟨hab, hb, hl⟩
        refine ⟨fun x hx => ?_, hb, hl⟩
        rcases List.mem_cons.mp hx with rfl | hx
        · exact hab
        · exact Nat.lt_trans hab (hb x hx)
      · rintro ⟨ha, hb, hl⟩
        exact ⟨ha b (by simp), hb, hl⟩

theorem Memory.insertCell_keys (m : Memory) (a : Nat) (v : Byte) (x : Nat) :
    x ∈ (Memory.insertCell a v m).map Prod.fst ↔ x = a ∨ x ∈ m.map Prod.fst := by
  induction m with
  | nil => simp [Memory.insertCell]
  | cons c m ih =>
    by_cases hlt : a < c.1
    · simp [Memory.insertCell, hlt]
    · simp only [Memory.insertCell, hlt, if_false, List.map_cons, List.mem_cons, ih]
      tauto

theorem Memory.insertCell_pairwise (m : Memory) (a : Nat) (v : Byte)
    (hp : (m.map Prod.fst).Pairwise (· < ·)) (hn : ∀ c ∈ m, c.1 ≠ a) :
    ((Memory.insertCell a v m).map Prod.fst).Pairwise (· < ·) := by
  induction m with
  | nil => simp [Memory.insertCell]
  | cons c m ih =>
    simp only [List.map_cons, List.pairwise_cons] at hp
    by_cases hlt : a < c.1
    · simp only [Memory.insertCell, hlt, if_true, List.map_cons, List.pairwise_cons]
      refine ⟨fun x hx => ?_, hp⟩
      rcases List.mem_cons.mp hx with rfl | hx
      · exact hlt
      · exact Nat.lt_trans hlt (hp.1 x hx)
    · have hc := hn c (by simp)
      simp only [Memory.insertCell, hlt, if_false, List.map_cons, List.pairwise_cons]
      refine ⟨fun x hx => ?_, ih hp.2 (fun d hd => hn d (by simp [hd]))⟩
      rcases (Memory.insertCell_keys m a v x).mp hx with rfl | hx
      · omega
      · exact hp.1 x hx

theorem Memory.mem_insertCell (m : Memory) (a : Nat) (v : Byte) (c : Host.Cell) :
    c ∈ Memory.insertCell a v m ↔ c = (a, v) ∨ c ∈ m := by
  induction m with
  | nil => simp [Memory.insertCell]
  | cons d m ih =>
    by_cases hlt : a < d.1
    · simp [Memory.insertCell, hlt]
    · simp only [Memory.insertCell, hlt, if_false, List.mem_cons, ih]
      tauto

/-! ## The canonical forms are kept -/

theorem Memory.wf_iff (m : Memory) : m.wf = true ↔
    (m.map Prod.fst).Pairwise (· < ·) ∧ ∀ c ∈ m, c.1 < 2 ^ 32 ∧ c.2 ≠ Config.unlistedByte := by
  simp [Memory.wf, rising_iff_pairwise, List.all_eq_true]

/-- Every write keeps memory's canonical form. -/
theorem Memory.wf_set (m : Memory) (a : Nat) (v : Byte) (h : m.wf = true) (ha : a < 2 ^ 32) :
    (m.set a v).wf = true := by
  rw [Memory.wf_iff] at h ⊢
  have hrest : ((m.filter (fun c => c.1 != a)).map Prod.fst).Pairwise (· < ·) :=
    h.1.sublist ((List.filter_sublist (p := fun c => c.1 != a) (l := m)).map Prod.fst)
  unfold Memory.set
  by_cases hv : v = Config.unlistedByte
  · simp only [hv, if_true]
    exact ⟨hrest, fun c hc => h.2 c (List.mem_filter.mp hc).1⟩
  · simp only [hv, if_false]
    refine ⟨Memory.insertCell_pairwise _ a v hrest (by simp), fun c hc => ?_⟩
    rcases (Memory.mem_insertCell _ a v c).mp hc with rfl | hc
    · exact ⟨ha, hv⟩
    · exact h.2 c (List.mem_filter.mp hc).1

/-- A launch image is placed in canonical form. -/
theorem Memory.wf_ofCells (cs : List Host.Cell) : (Memory.ofCells cs).wf = true := by
  induction cs with
  | nil => rfl
  | cons c cs ih =>
    by_cases hc : c.1 < 2 ^ 32
    · simp only [Memory.ofCells, hc, if_true]; exact Memory.wf_set _ _ _ ih hc
    · simp only [Memory.ofCells, hc, if_false]; exact ih

/-- In canonical form, memories that read alike at every address are equal. -/
theorem Memory.ext_of_get (m m' : Memory) (h : m.wf = true) (h' : m'.wf = true)
    (hg : ∀ a, m.get a = m'.get a) : m = m' := by
  have below : ∀ (n : Memory) (a : Nat), (∀ c ∈ n, a < c.1) → n.get a = Config.unlistedByte := by
    intro n a hn
    induction n with
    | nil => rfl
    | cons c n ih =>
      have := hn c (by simp)
      simp [Memory.get, Nat.ne_of_gt this, ih (fun d hd => hn d (by simp [hd]))]
  rw [Memory.wf_iff] at h h'
  induction m generalizing m' with
  | nil =>
    cases m' with
    | nil => rfl
    | cons c m' =>
      have := hg c.1
      exact absurd this.symm (by simpa [Memory.get] using (h'.2 c (by simp)).2)
  | cons c m ih =>
    cases m' with
    | nil =>
      have := hg c.1
      exact absurd this (by simpa [Memory.get] using (h.2 c (by simp)).2)
    | cons d m' =>
      simp only [List.map_cons, List.pairwise_cons, List.mem_map] at h h'
      have hm : ∀ e ∈ m, c.1 < e.1 := fun e he => h.1.1 e.1 ⟨e, he, rfl⟩
      have hm' : ∀ e ∈ m', d.1 < e.1 := fun e he => h'.1.1 e.1 ⟨e, he, rfl⟩
      have hcd : c.1 = d.1 := by
        rcases Nat.lt_trichotomy c.1 d.1 with hlt | heq | hgt
        · have hc := hg c.1
          rw [below (d :: m') c.1 (by
            intro e he
            rcases List.mem_cons.mp he with rfl | he
            · exact hlt
            · exact Nat.lt_trans hlt (hm' e he))] at hc
          exact absurd hc (by simpa [Memory.get] using (h.2 c (by simp)).2)
        · exact heq
        · have hd := hg d.1
          rw [below (c :: m) d.1 (by
            intro e he
            rcases List.mem_cons.mp he with rfl | he
            · exact hgt
            · exact Nat.lt_trans hgt (hm e he))] at hd
          exact absurd hd.symm (by simpa [Memory.get] using (h'.2 d (by simp)).2)
      have hv : c.2 = d.2 := by simpa [Memory.get, hcd] using hg c.1
      have hrest : m = m' := by
        refine ih m' ⟨h.1.2, fun e he => h.2 e (by simp [he])⟩
          ⟨h'.1.2, fun e he => h'.2 e (by simp [he])⟩ (fun a => ?_)
        by_cases ha : a = c.1
        · subst ha
          rw [below m _ hm, below m' _ (by rw [hcd]; exact hm')]
        · have := hg a
          simpa [Memory.get, Ne.symm ha, ← hcd] using this
      rw [hrest, Prod.ext hcd hv]

@[simp] theorem AddrSet.mem_insert (s : AddrSet) (a b : Nat) :
    b ∈ AddrSet.insert a s ↔ b = a ∨ b ∈ s := by
  induction s with
  | nil => simp [AddrSet.insert]
  | cons c s ih =>
    unfold AddrSet.insert
    split
    · simp
    · split
      · next h => subst h; simp
      · simp only [List.mem_cons, ih]; tauto

theorem AddrSet.pairwise_insert (s : AddrSet) (a : Nat) (h : s.Pairwise (· < ·)) :
    (AddrSet.insert a s).Pairwise (· < ·) := by
  induction s with
  | nil => simp [AddrSet.insert]
  | cons c s ih =>
    have hc := List.pairwise_cons.mp h
    unfold AddrSet.insert
    split
    · next hlt =>
      refine List.pairwise_cons.mpr ⟨fun x hx => ?_, h⟩
      rcases List.mem_cons.mp hx with rfl | hx
      · exact hlt
      · exact Nat.lt_trans hlt (hc.1 x hx)
    · split
      · exact h
      · refine List.pairwise_cons.mpr ⟨fun x hx => ?_, ih hc.2⟩
        rcases (AddrSet.mem_insert s a x).mp hx with rfl | hx
        · omega
        · exact hc.1 x hx

theorem AddrSet.wf_iff (s : AddrSet) :
    s.wf = true ↔ s.Pairwise (· < ·) ∧ ∀ a ∈ s, a < 2 ^ 32 := by
  simp [AddrSet.wf, rising_iff_pairwise, List.all_eq_true]

/-- Adding an address keeps the set's canonical form. -/
theorem AddrSet.wf_insert (s : AddrSet) (a : Nat) (h : s.wf = true) (ha : a < 2 ^ 32) :
    (AddrSet.insert a s).wf = true := by
  rw [AddrSet.wf_iff] at h ⊢
  refine ⟨AddrSet.pairwise_insert s a h.1, fun x hx => ?_⟩
  rcases (AddrSet.mem_insert s a x).mp hx with rfl | hx
  · exact ha
  · exact h.2 x hx

end Sys2Proof.Machine
end

