-- ==== Sys2Proof/Laws/State.lean ====
section
/-! SUPPORT. One lemma per field per update of the state, so that no proof unfolds a record update. -/

namespace Sys2Proof.Machine

variable (s : State)

/-! ## writeReg -/

@[simp] theorem State.writeReg_pc (r : Reg) (v : Word) : (s.writeReg r v).pc = s.pc := by
  unfold State.writeReg; split <;> rfl
@[simp] theorem State.writeReg_npc (r : Reg) (v : Word) : (s.writeReg r v).npc = s.npc := by
  unfold State.writeReg; split <;> rfl
@[simp] theorem State.writeReg_bd (r : Reg) (v : Word) : (s.writeReg r v).bd = s.bd := by
  unfold State.writeReg; split <;> rfl
@[simp] theorem State.writeReg_hi (r : Reg) (v : Word) : (s.writeReg r v).hi = s.hi := by
  unfold State.writeReg; split <;> rfl
@[simp] theorem State.writeReg_lo (r : Reg) (v : Word) : (s.writeReg r v).lo = s.lo := by
  unfold State.writeReg; split <;> rfl
@[simp] theorem State.writeReg_mem (r : Reg) (v : Word) : (s.writeReg r v).mem = s.mem := by
  unfold State.writeReg; split <;> rfl
@[simp] theorem State.writeReg_dirty (r : Reg) (v : Word) : (s.writeReg r v).dirty = s.dirty := by
  unfold State.writeReg; split <;> rfl
@[simp] theorem State.writeReg_hiloAge (r : Reg) (v : Word) : (s.writeReg r v).hiloAge = s.hiloAge := by
  unfold State.writeReg; split <;> rfl
@[simp] theorem State.writeReg_outcome (r : Reg) (v : Word) : (s.writeReg r v).outcome = s.outcome := by
  unfold State.writeReg; split <;> rfl
@[simp] theorem State.writeReg_params (r : Reg) (v : Word) : (s.writeReg r v).params = s.params := by
  unfold State.writeReg; split <;> rfl
@[simp] theorem State.writeReg_draws (r : Reg) (v : Word) : (s.writeReg r v).draws = s.draws := by
  unfold State.writeReg; split <;> rfl

/-! ## writeHiLo -/

@[simp] theorem State.writeHiLo_regs (h l : Word) : (s.writeHiLo h l).regs = s.regs := rfl
@[simp] theorem State.writeHiLo_pc (h l : Word) : (s.writeHiLo h l).pc = s.pc := rfl
@[simp] theorem State.writeHiLo_npc (h l : Word) : (s.writeHiLo h l).npc = s.npc := rfl
@[simp] theorem State.writeHiLo_bd (h l : Word) : (s.writeHiLo h l).bd = s.bd := rfl
@[simp] theorem State.writeHiLo_hi (h l : Word) : (s.writeHiLo h l).hi = h := rfl
@[simp] theorem State.writeHiLo_lo (h l : Word) : (s.writeHiLo h l).lo = l := rfl
@[simp] theorem State.writeHiLo_mem (h l : Word) : (s.writeHiLo h l).mem = s.mem := rfl
@[simp] theorem State.writeHiLo_dirty (h l : Word) : (s.writeHiLo h l).dirty = s.dirty := rfl
@[simp] theorem State.writeHiLo_hiloAge (h l : Word) : (s.writeHiLo h l).hiloAge = s.hiloAge := rfl
@[simp] theorem State.writeHiLo_outcome (h l : Word) : (s.writeHiLo h l).outcome = s.outcome := rfl
@[simp] theorem State.writeHiLo_params (h l : Word) : (s.writeHiLo h l).params = s.params := rfl
@[simp] theorem State.writeHiLo_draws (h l : Word) : (s.writeHiLo h l).draws = s.draws := rfl

/-! ## drawHiLo -/

@[simp] theorem State.drawHiLo_regs : s.drawHiLo.regs = s.regs := rfl
@[simp] theorem State.drawHiLo_pc : s.drawHiLo.pc = s.pc := rfl
@[simp] theorem State.drawHiLo_npc : s.drawHiLo.npc = s.npc := rfl
@[simp] theorem State.drawHiLo_bd : s.drawHiLo.bd = s.bd := rfl
@[simp] theorem State.drawHiLo_hi : s.drawHiLo.hi = Config.anyWord s.draws := rfl
@[simp] theorem State.drawHiLo_lo : s.drawHiLo.lo = Config.anyWord (s.draws + 1) := rfl
@[simp] theorem State.drawHiLo_mem : s.drawHiLo.mem = s.mem := rfl
@[simp] theorem State.drawHiLo_dirty : s.drawHiLo.dirty = s.dirty := rfl
@[simp] theorem State.drawHiLo_hiloAge : s.drawHiLo.hiloAge = s.hiloAge := rfl
@[simp] theorem State.drawHiLo_outcome : s.drawHiLo.outcome = s.outcome := rfl
@[simp] theorem State.drawHiLo_params : s.drawHiLo.params = s.params := rfl
@[simp] theorem State.drawHiLo_draws : s.drawHiLo.draws = s.draws + 2 := rfl

/-! ## retire -/

@[simp] theorem State.retire_regs : s.retire.regs = s.regs := rfl
@[simp] theorem State.retire_pc : s.retire.pc = s.npc := rfl
@[simp] theorem State.retire_npc : s.retire.npc = s.npc + 4#32 := rfl
@[simp] theorem State.retire_bd : s.retire.bd = false := rfl
@[simp] theorem State.retire_hi : s.retire.hi = s.hi := rfl
@[simp] theorem State.retire_lo : s.retire.lo = s.lo := rfl
@[simp] theorem State.retire_mem : s.retire.mem = s.mem := rfl
@[simp] theorem State.retire_dirty : s.retire.dirty = s.dirty := rfl
@[simp] theorem State.retire_hiloAge : s.retire.hiloAge = min (s.hiloAge + 1) s.hazardDistance := rfl
@[simp] theorem State.retire_outcome : s.retire.outcome = s.outcome := rfl
@[simp] theorem State.retire_params : s.retire.params = s.params := rfl
@[simp] theorem State.retire_draws : s.retire.draws = s.draws := rfl

/-! ## retireHiLoRead -/

@[simp] theorem State.retireHiLoRead_regs : s.retireHiLoRead.regs = s.regs := rfl
@[simp] theorem State.retireHiLoRead_pc : s.retireHiLoRead.pc = s.npc := rfl
@[simp] theorem State.retireHiLoRead_npc : s.retireHiLoRead.npc = s.npc + 4#32 := rfl
@[simp] theorem State.retireHiLoRead_bd : s.retireHiLoRead.bd = false := rfl
@[simp] theorem State.retireHiLoRead_hi : s.retireHiLoRead.hi = s.hi := rfl
@[simp] theorem State.retireHiLoRead_lo : s.retireHiLoRead.lo = s.lo := rfl
@[simp] theorem State.retireHiLoRead_mem : s.retireHiLoRead.mem = s.mem := rfl
@[simp] theorem State.retireHiLoRead_dirty : s.retireHiLoRead.dirty = s.dirty := rfl
@[simp] theorem State.retireHiLoRead_hiloAge : s.retireHiLoRead.hiloAge = 0 := rfl
@[simp] theorem State.retireHiLoRead_outcome : s.retireHiLoRead.outcome = s.outcome := rfl
@[simp] theorem State.retireHiLoRead_params : s.retireHiLoRead.params = s.params := rfl
@[simp] theorem State.retireHiLoRead_draws : s.retireHiLoRead.draws = s.draws := rfl

/-! ## retireJump -/

@[simp] theorem State.retireJump_regs (target : Word) : (s.retireJump target).regs = s.regs := rfl
@[simp] theorem State.retireJump_pc (target : Word) : (s.retireJump target).pc = s.npc := rfl
@[simp] theorem State.retireJump_npc (target : Word) : (s.retireJump target).npc = target := rfl
@[simp] theorem State.retireJump_bd (target : Word) : (s.retireJump target).bd = true := rfl
@[simp] theorem State.retireJump_hi (target : Word) : (s.retireJump target).hi = s.hi := rfl
@[simp] theorem State.retireJump_lo (target : Word) : (s.retireJump target).lo = s.lo := rfl
@[simp] theorem State.retireJump_mem (target : Word) : (s.retireJump target).mem = s.mem := rfl
@[simp] theorem State.retireJump_dirty (target : Word) : (s.retireJump target).dirty = s.dirty := rfl
@[simp] theorem State.retireJump_hiloAge (target : Word) : (s.retireJump target).hiloAge = min (s.hiloAge + 1) s.hazardDistance := rfl
@[simp] theorem State.retireJump_outcome (target : Word) : (s.retireJump target).outcome = s.outcome := rfl
@[simp] theorem State.retireJump_params (target : Word) : (s.retireJump target).params = s.params := rfl
@[simp] theorem State.retireJump_draws (target : Word) : (s.retireJump target).draws = s.draws := rfl

/-! ## storeByte -/

@[simp] theorem State.storeByte_regs (a : Word) (v : Byte) : (s.storeByte a v).regs = s.regs := rfl
@[simp] theorem State.storeByte_pc (a : Word) (v : Byte) : (s.storeByte a v).pc = s.pc := rfl
@[simp] theorem State.storeByte_npc (a : Word) (v : Byte) : (s.storeByte a v).npc = s.npc := rfl
@[simp] theorem State.storeByte_bd (a : Word) (v : Byte) : (s.storeByte a v).bd = s.bd := rfl
@[simp] theorem State.storeByte_hi (a : Word) (v : Byte) : (s.storeByte a v).hi = s.hi := rfl
@[simp] theorem State.storeByte_lo (a : Word) (v : Byte) : (s.storeByte a v).lo = s.lo := rfl
@[simp] theorem State.storeByte_mem (a : Word) (v : Byte) : (s.storeByte a v).mem = s.mem.set a.toNat v := rfl
@[simp] theorem State.storeByte_dirty (a : Word) (v : Byte) : (s.storeByte a v).dirty = AddrSet.insert a.toNat s.dirty := rfl
@[simp] theorem State.storeByte_hiloAge (a : Word) (v : Byte) : (s.storeByte a v).hiloAge = s.hiloAge := rfl
@[simp] theorem State.storeByte_outcome (a : Word) (v : Byte) : (s.storeByte a v).outcome = s.outcome := rfl
@[simp] theorem State.storeByte_params (a : Word) (v : Byte) : (s.storeByte a v).params = s.params := rfl
@[simp] theorem State.storeByte_draws (a : Word) (v : Byte) : (s.storeByte a v).draws = s.draws := rfl

/-! ## storeBytes -/

@[simp] theorem State.storeBytes_regs (a : Word) (vs : List Byte) : (s.storeBytes a vs).regs = s.regs := by
  induction vs generalizing s a with
  | nil => rfl
  | cons v vs ih => simp [State.storeBytes, ih]
@[simp] theorem State.storeBytes_pc (a : Word) (vs : List Byte) : (s.storeBytes a vs).pc = s.pc := by
  induction vs generalizing s a with
  | nil => rfl
  | cons v vs ih => simp [State.storeBytes, ih]
@[simp] theorem State.storeBytes_npc (a : Word) (vs : List Byte) : (s.storeBytes a vs).npc = s.npc := by
  induction vs generalizing s a with
  | nil => rfl
  | cons v vs ih => simp [State.storeBytes, ih]
@[simp] theorem State.storeBytes_bd (a : Word) (vs : List Byte) : (s.storeBytes a vs).bd = s.bd := by
  induction vs generalizing s a with
  | nil => rfl
  | cons v vs ih => simp [State.storeBytes, ih]
@[simp] theorem State.storeBytes_hi (a : Word) (vs : List Byte) : (s.storeBytes a vs).hi = s.hi := by
  induction vs generalizing s a with
  | nil => rfl
  | cons v vs ih => simp [State.storeBytes, ih]
@[simp] theorem State.storeBytes_lo (a : Word) (vs : List Byte) : (s.storeBytes a vs).lo = s.lo := by
  induction vs generalizing s a with
  | nil => rfl
  | cons v vs ih => simp [State.storeBytes, ih]
@[simp] theorem State.storeBytes_hiloAge (a : Word) (vs : List Byte) : (s.storeBytes a vs).hiloAge = s.hiloAge := by
  induction vs generalizing s a with
  | nil => rfl
  | cons v vs ih => simp [State.storeBytes, ih]
@[simp] theorem State.storeBytes_outcome (a : Word) (vs : List Byte) : (s.storeBytes a vs).outcome = s.outcome := by
  induction vs generalizing s a with
  | nil => rfl
  | cons v vs ih => simp [State.storeBytes, ih]
@[simp] theorem State.storeBytes_params (a : Word) (vs : List Byte) : (s.storeBytes a vs).params = s.params := by
  induction vs generalizing s a with
  | nil => rfl
  | cons v vs ih => simp [State.storeBytes, ih]
@[simp] theorem State.storeBytes_draws (a : Word) (vs : List Byte) : (s.storeBytes a vs).draws = s.draws := by
  induction vs generalizing s a with
  | nil => rfl
  | cons v vs ih => simp [State.storeBytes, ih]

/-! ## What the accessors read after an update -/

@[simp] theorem State.writeReg_byteAt (r : Reg) (v : Word) (b : Word) : (s.writeReg r v).byteAt b = s.byteAt b := by
  simp [State.byteAt]
@[simp] theorem State.writeReg_isMapped (r : Reg) (v : Word) (b : Word) : (s.writeReg r v).isMapped b = s.isMapped b := by
  simp [State.isMapped]
@[simp] theorem State.writeReg_hazardDistance (r : Reg) (v : Word) : (s.writeReg r v).hazardDistance = s.hazardDistance := by
  simp [State.hazardDistance]
@[simp] theorem State.writeHiLo_readReg (h l : Word) (q : Reg) : (s.writeHiLo h l).readReg q = s.readReg q := by
  simp [State.readReg]
@[simp] theorem State.writeHiLo_byteAt (h l : Word) (b : Word) : (s.writeHiLo h l).byteAt b = s.byteAt b := by
  simp [State.byteAt]
@[simp] theorem State.writeHiLo_isMapped (h l : Word) (b : Word) : (s.writeHiLo h l).isMapped b = s.isMapped b := by
  simp [State.isMapped]
@[simp] theorem State.writeHiLo_hazardDistance (h l : Word) : (s.writeHiLo h l).hazardDistance = s.hazardDistance := by
  simp [State.hazardDistance]
@[simp] theorem State.drawHiLo_readReg (q : Reg) : s.drawHiLo.readReg q = s.readReg q := by
  simp [State.readReg]
@[simp] theorem State.drawHiLo_byteAt (b : Word) : s.drawHiLo.byteAt b = s.byteAt b := by
  simp [State.byteAt]
@[simp] theorem State.drawHiLo_isMapped (b : Word) : s.drawHiLo.isMapped b = s.isMapped b := by
  simp [State.isMapped]
@[simp] theorem State.drawHiLo_hazardDistance : s.drawHiLo.hazardDistance = s.hazardDistance := by
  simp [State.hazardDistance]
@[simp] theorem State.retire_readReg (q : Reg) : s.retire.readReg q = s.readReg q := by
  simp [State.readReg]
@[simp] theorem State.retire_byteAt (b : Word) : s.retire.byteAt b = s.byteAt b := by
  simp [State.byteAt]
@[simp] theorem State.retire_isMapped (b : Word) : s.retire.isMapped b = s.isMapped b := by
  simp [State.isMapped]
@[simp] theorem State.retire_hazardDistance : s.retire.hazardDistance = s.hazardDistance := by
  simp [State.hazardDistance]
@[simp] theorem State.retireHiLoRead_readReg (q : Reg) : s.retireHiLoRead.readReg q = s.readReg q := by
  simp [State.readReg]
@[simp] theorem State.retireHiLoRead_byteAt (b : Word) : s.retireHiLoRead.byteAt b = s.byteAt b := by
  simp [State.byteAt]
@[simp] theorem State.retireHiLoRead_isMapped (b : Word) : s.retireHiLoRead.isMapped b = s.isMapped b := by
  simp [State.isMapped]
@[simp] theorem State.retireHiLoRead_hazardDistance : s.retireHiLoRead.hazardDistance = s.hazardDistance := by
  simp [State.hazardDistance]
@[simp] theorem State.retireJump_readReg (target : Word) (q : Reg) : (s.retireJump target).readReg q = s.readReg q := by
  simp [State.readReg]
@[simp] theorem State.retireJump_byteAt (target : Word) (b : Word) : (s.retireJump target).byteAt b = s.byteAt b := by
  simp [State.byteAt]
@[simp] theorem State.retireJump_isMapped (target : Word) (b : Word) : (s.retireJump target).isMapped b = s.isMapped b := by
  simp [State.isMapped]
@[simp] theorem State.retireJump_hazardDistance (target : Word) : (s.retireJump target).hazardDistance = s.hazardDistance := by
  simp [State.hazardDistance]
@[simp] theorem State.storeByte_readReg (a : Word) (v : Byte) (q : Reg) : (s.storeByte a v).readReg q = s.readReg q := by
  simp [State.readReg]
@[simp] theorem State.storeByte_isMapped (a : Word) (v : Byte) (b : Word) : (s.storeByte a v).isMapped b = s.isMapped b := by
  simp [State.isMapped]
@[simp] theorem State.storeByte_hazardDistance (a : Word) (v : Byte) : (s.storeByte a v).hazardDistance = s.hazardDistance := by
  simp [State.hazardDistance]
@[simp] theorem State.storeBytes_readReg (a : Word) (vs : List Byte) (q : Reg) : (s.storeBytes a vs).readReg q = s.readReg q := by
  simp [State.readReg]
@[simp] theorem State.storeBytes_isMapped (a : Word) (vs : List Byte) (b : Word) : (s.storeBytes a vs).isMapped b = s.isMapped b := by
  simp [State.isMapped]
@[simp] theorem State.storeBytes_hazardDistance (a : Word) (vs : List Byte) : (s.storeBytes a vs).hazardDistance = s.hazardDistance := by
  simp [State.hazardDistance]

/-! ## launch and reset (Table R28) -/

variable (l : Launch)

@[simp] theorem State.launch_pc : (State.launch l).pc = l.params.resetPc := rfl
@[simp] theorem State.launch_npc : (State.launch l).npc = l.params.resetPc + 4#32 := rfl
@[simp] theorem State.launch_bd : (State.launch l).bd = false := rfl
@[simp] theorem State.launch_hi : (State.launch l).hi = l.hi := rfl
@[simp] theorem State.launch_lo : (State.launch l).lo = l.lo := rfl
@[simp] theorem State.launch_mem : (State.launch l).mem = Memory.ofCells l.image := rfl
@[simp] theorem State.launch_dirty : (State.launch l).dirty = [] := rfl
@[simp] theorem State.launch_hiloAge : (State.launch l).hiloAge = l.params.hazard.toNat := rfl
@[simp] theorem State.launch_outcome : (State.launch l).outcome = .running := rfl
@[simp] theorem State.launch_params : (State.launch l).params = l.params := rfl
@[simp] theorem State.launch_draws : (State.launch l).draws = l.draws := rfl

end Sys2Proof.Machine
end

