-- ==== Sys2Proof/Laws/Ops.lean ====
section
/-! SUPPORT. For each shared operation, once, everything it can do. -/

namespace Sys2Proof.Machine

variable (s t : State)

/-! ## Registers -/

@[simp] theorem State.readReg_zero : s.readReg 0 = 0#32 := by simp [State.readReg]

theorem State.readReg_writeReg (r q : Reg) (v : Word) :
    (s.writeReg r v).readReg q = if q = r then (if r = 0 then 0#32 else v) else s.readReg q := by
  by_cases hr : r = 0
  · subst hr
    by_cases hq : q = 0
    · simp [State.writeReg, hq]
    · simp [State.writeReg, hq]
  · by_cases hq : q = r
    · subst hq
      simp only [State.readReg, State.writeReg, hr, if_false, if_true]
      exact Vector.getElem_set_self _
    · have hv : r.val ≠ q.val := fun h => hq (Fin.ext h.symm)
      simp only [State.readReg, State.writeReg, hr, hq, if_false]
      congr 1
      exact Vector.getElem_set_ne _ _ hv

@[simp] theorem State.writeReg_zero (v : Word) : s.writeReg 0 v = s := by simp [State.writeReg]

/-- Writing a register is exactly `NewReg`. -/
theorem newReg_writeReg (rd : Reg) (v : Word) : NewReg s (s.writeReg rd v) rd v :=
  ⟨by simp [State.readReg_writeReg], fun r hr => by simp [State.readReg_writeReg, hr]⟩

/-- The slot of `x[0]` is never written. -/
theorem State.writeReg_slot_zero (r : Reg) (v : Word) : (s.writeReg r v).regs.get 0 = s.regs.get 0 := by
  by_cases hr : r = 0
  · simp [State.writeReg, hr]
  · have hv : r.val ≠ 0 := fun h => hr (Fin.ext h)
    simp only [State.writeReg, hr, if_false]
    exact Vector.getElem_set_ne _ _ hv

/-! ## The ends of an instruction -/

theorem retired_retire : Retired s s.retire := ⟨⟨rfl, rfl, rfl⟩, rfl, rfl, rfl⟩

theorem jumpsTo_retireJump (target : Word) : JumpsTo s (s.retireJump target) target := ⟨rfl, rfl, rfl⟩

/-- An instruction whose result is one register does that and nothing else. -/
theorem onlyReg_writeReg_retire (rd : Reg) (v : Word) : OnlyReg s (s.writeReg rd v).retire rd v :=
  ⟨⟨by simp [State.readReg_writeReg], fun r hr => by simp [State.readReg_writeReg, hr]⟩,
   by simp [SameHiLo], by simp [SameMemory],
   by simp [Retired, FallsThrough, AgeCounts, SameRun]⟩

/-- An instruction whose result is HI and LO does that and nothing else. -/
theorem onlyHiLo_writeHiLo_retire (h l : Word) : OnlyHiLo s (s.writeHiLo h l).retire h l := by
  simp [OnlyHiLo, SameRegs, SameMemory, Retired, FallsThrough, AgeCounts, SameRun]

theorem onlyRetired_retire : OnlyRetired s s.retire := by
  simp [OnlyRetired, SameRegs, SameHiLo, SameMemory, Retired, FallsThrough, AgeCounts, SameRun]

/-! ## Exceptions and refusals -/

/-- Raising answers the same state with the fault record, and nothing else. -/
theorem raise_eq_next (c : Cause) :
    raise c s = .next t ↔ t = { s with outcome := .fault ⟨c, s.pc, s.bd⟩ } := by
  simp [raise, eq_comm]

theorem trapIf_true (code : Option (BitVec 10)) : trapIf true code s = raise (.trap code) s := rfl

theorem trapIf_false (code : Option (BitVec 10)) : trapIf false code s = .next s.retire := rfl

/-- What a trap can do. -/
theorem trapIf_eq_next (c : Bool) (code : Option (BitVec 10)) :
    trapIf c code s = .next t ↔
      (c = true ∧ t = { s with outcome := .fault ⟨.trap code, s.pc, s.bd⟩ }) ∨
      (c = false ∧ t = s.retire) := by
  cases c <;> simp [trapIf, raise, eq_comm]

/-- What a writer of HI and LO can do. -/
theorem unlessHazard_eq_next (a : Answer) :
    unlessHazard s a = .next t ↔ s.hazardDistance ≤ s.hiloAge ∧ a = .next t := by
  unfold unlessHazard
  by_cases h : s.hiloAge < s.hazardDistance
  · simp [h]
  · simp [h, Nat.not_lt.mp h]

/-- What a jump can do. -/
theorem unlessDelaySlot_eq_next (a : Answer) :
    unlessDelaySlot s a = .next t ↔ s.bd = false ∧ a = .next t := by
  unfold unlessDelaySlot
  cases s.bd <;> simp

theorem fitsSigned_iff (x : Int) : fitsSigned x = true ↔ -2 ^ 31 ≤ x ∧ x ≤ 2 ^ 31 - 1 := by
  simp [fitsSigned]

/-- What ADD, SUB and ADDI can do. -/
theorem writeExact_eq_next (rd : Reg) (x : Int) :
    writeExact s rd x = .next t ↔
      (fitsSigned x = true ∧ t = (s.writeReg rd (BitVec.ofInt 32 x)).retire) ∨
      (fitsSigned x = false ∧ t = { s with outcome := .fault ⟨.integerOverflow, s.pc, s.bd⟩ }) := by
  unfold writeExact
  cases fitsSigned x <;> simp [raise, eq_comm]

/-! ## Addresses -/

theorem add_ofNat_succ (a : Word) (k : Nat) :
    a + BitVec.ofNat 32 (k + 1) = a + 1#32 + BitVec.ofNat 32 k := by
  rw [BitVec.add_assoc, BitVec.add_comm 1#32, ← BitVec.ofNat_add]

theorem add_ofNat_inj (a : Word) (j k : Nat) (hj : j < 2 ^ 32) (hk : k < 2 ^ 32)
    (h : a + BitVec.ofNat 32 j = a + BitVec.ofNat 32 k) : j = k := by
  have h1 := congrArg BitVec.toNat ((BitVec.add_right_inj a).mp h)
  rw [BitVec.toNat_ofNat, BitVec.toNat_ofNat] at h1
  rwa [Nat.mod_eq_of_lt hj, Nat.mod_eq_of_lt hk] at h1

/-! ## Reading memory -/

/-- Nothing is unmapped exactly if the whole range is mapped. -/
theorem State.firstUnmapped_eq_none (a : Word) (n : Nat) :
    s.firstUnmapped a n = none ↔ MappedRange s a n := by
  induction n generalizing a with
  | zero => simp [State.firstUnmapped, MappedRange]
  | succ n ih =>
    unfold State.firstUnmapped
    constructor
    · intro h k hk
      split at h
      · next h0 =>
        cases k with
        | zero => simpa using h0
        | succ k => rw [add_ofNat_succ]; exact (ih _).mp h k (by omega)
      · simp at h
    · intro h
      rw [if_pos (by simpa using h 0 (by omega))]
      refine (ih _).mpr (fun k hk => ?_)
      rw [← add_ofNat_succ]
      exact h (k + 1) (by omega)

/-- The address reported as unmapped is one of the range, and it is not mapped. -/
theorem State.firstUnmapped_eq_some (a u : Word) (n : Nat) (h : s.firstUnmapped a n = some u) :
    ∃ k, k < n ∧ u = a + BitVec.ofNat 32 k ∧ s.isMapped u = false := by
  induction n generalizing a with
  | zero => simp [State.firstUnmapped] at h
  | succ n ih =>
    unfold State.firstUnmapped at h
    split at h
    · obtain ⟨k, hk, hu, hm⟩ := ih _ h
      exact ⟨k + 1, by omega, by rw [add_ofNat_succ]; exact hu, hm⟩
    · next h0 =>
      simp only [Option.some.injEq] at h
      subst h
      exact ⟨0, by omega, by simp, by simpa using h0⟩

/-- If one address of the range is not mapped, one is reported. -/
theorem State.firstUnmapped_of_unmapped (a : Word) (n k : Nat) (hk : k < n)
    (hu : s.isMapped (a + BitVec.ofNat 32 k) = false) : ∃ u, s.firstUnmapped a n = some u := by
  cases h : s.firstUnmapped a n with
  | some u => exact ⟨u, rfl⟩
  | none => rw [((s.firstUnmapped_eq_none a n).mp h) k hk] at hu; cases hu

@[simp] theorem State.bytesAt_length (a : Word) (n : Nat) : (s.bytesAt a n).length = n := by
  induction n generalizing a with
  | zero => rfl
  | succ n ih => simp [State.bytesAt, ih]

theorem State.getElem_bytesAt (a : Word) (n k : Nat) (h : k < (s.bytesAt a n).length) :
    (s.bytesAt a n)[k] = s.byteAt (a + BitVec.ofNat 32 k) := by
  induction n generalizing a k with
  | zero => simp [State.bytesAt] at h
  | succ n ih =>
    cases k with
    | zero => simp [State.bytesAt]
    | succ k =>
      rw [add_ofNat_succ]
      simpa [State.bytesAt] using ih (a + 1#32) k (by simpa [State.bytesAt] using h)

/-- Everything `memRead` can answer. -/
theorem State.memRead_eq_ok (a : Word) (n : Nat) (bs : List Byte) :
    s.memRead a n = .ok bs ↔ MappedRange s a n ∧ bs = s.bytesAt a n := by
  rw [← s.firstUnmapped_eq_none]
  unfold State.memRead
  cases s.firstUnmapped a n <;> simp [eq_comm]

theorem State.memRead_of_mapped (a : Word) (n : Nat) (h : MappedRange s a n) :
    s.memRead a n = .ok (s.bytesAt a n) := (s.memRead_eq_ok a n _).mpr ⟨h, rfl⟩

theorem State.memRead_of_unmapped (a : Word) (n k : Nat) (hk : k < n)
    (hu : s.isMapped (a + BitVec.ofNat 32 k) = false) :
    ∃ u, s.memRead a n = .error (.stuck u) := by
  obtain ⟨u, h⟩ := s.firstUnmapped_of_unmapped a n k hk hu
  exact ⟨u, by simp [State.memRead, h]⟩

theorem State.bytesAt_one (a : Word) : s.bytesAt a 1 = [s.byteAt a] := rfl

theorem State.bytesAt_two (a : Word) : s.bytesAt a 2 = [s.byteAt a, s.byteAt (a + 1#32)] := rfl

theorem State.bytesAt_four (a : Word) : s.bytesAt a 4 =
    [s.byteAt a, s.byteAt (a + 1#32), s.byteAt (a + 2#32), s.byteAt (a + 3#32)] := by
  simp [State.bytesAt, BitVec.add_assoc]

/-- The halfword read is the little-endian halfword in memory (R32). -/
theorem State.leValue_bytesAt_two (a : Word) :
    (leValue (s.bytesAt a 2)).setWidth 16 = s.halfAt a := by
  rw [s.bytesAt_two, leValue_two, State.halfAt]
  exact (BitVec.setWidth_setWidth_of_le _ (by omega)).trans (BitVec.setWidth_eq _)

/-- The word read is the little-endian word in memory (R32). -/
theorem State.leValue_bytesAt_four (a : Word) : leValue (s.bytesAt a 4) = s.wordAt a := by
  rw [s.bytesAt_four, leValue_four, State.wordAt]

/-! ## Writing memory -/

@[simp] theorem State.byteAt_storeByte_same (a : Word) (v : Byte) :
    (s.storeByte a v).byteAt a = v := by simp [State.byteAt]

theorem State.byteAt_storeByte_other (a b : Word) (v : Byte) (h : b ≠ a) :
    (s.storeByte a v).byteAt b = s.byteAt b := by
  have : b.toNat ≠ a.toNat := fun e => h (BitVec.eq_of_toNat_eq e)
  simp [State.byteAt, Memory.get_set_other _ _ _ _ this]

/-- Bytes outside the stored range are as they were. -/
theorem State.byteAt_storeBytes_other (a b : Word) (vs : List Byte)
    (h : ∀ k, k < vs.length → b ≠ a + BitVec.ofNat 32 k) :
    (s.storeBytes a vs).byteAt b = s.byteAt b := by
  induction vs generalizing s a with
  | nil => rfl
  | cons v vs ih =>
    rw [State.storeBytes, ih, s.byteAt_storeByte_other]
    · simpa using h 0 (by simp)
    · intro k hk
      rw [← add_ofNat_succ]
      exact h (k + 1) (by simpa using hk)

/-- The stored bytes are read back. -/
theorem State.byteAt_storeBytes (a : Word) (vs : List Byte) (hl : vs.length ≤ 2 ^ 32) (k : Nat)
    (h : k < vs.length) : (s.storeBytes a vs).byteAt (a + BitVec.ofNat 32 k) = vs[k] := by
  induction vs generalizing s a k with
  | nil => simp at h
  | cons v vs ih =>
    have hl' : vs.length + 1 ≤ 2 ^ 32 := by simpa using hl
    cases k with
    | zero =>
      rw [State.storeBytes, State.byteAt_storeBytes_other]
      · simp
      · intro j hj e
        rw [← add_ofNat_succ] at e
        have := add_ofNat_inj a 0 (j + 1) (by omega) (by omega) e
        omega
    | succ k =>
      rw [State.storeBytes]
      have e := ih (s.storeByte a v) (a + 1#32) (by omega) k (by simpa using h)
      rw [← add_ofNat_succ] at e
      simpa using e

/-- What counts as stored to after a store. -/
theorem State.mem_dirty_storeBytes (a : Word) (vs : List Byte) (b : Nat) :
    b ∈ (s.storeBytes a vs).dirty ↔
      b ∈ s.dirty ∨ ∃ k, k < vs.length ∧ b = (a + BitVec.ofNat 32 k).toNat := by
  induction vs generalizing s a with
  | nil => simp [State.storeBytes]
  | cons v vs ih =>
    rw [State.storeBytes, ih]
    simp only [State.storeByte_dirty, AddrSet.mem_insert, List.length_cons]
    constructor
    · rintro ((rfl | h) | ⟨k, hk, rfl⟩)
      · exact .inr ⟨0, by omega, by simp⟩
      · exact .inl h
      · exact .inr ⟨k + 1, by omega, by rw [← add_ofNat_succ]⟩
    · rintro (h | ⟨k, hk, rfl⟩)
      · exact .inl (.inr h)
      · cases k with
        | zero => exact .inl (.inl (by simp))
        | succ k => exact .inr ⟨k, by omega, by rw [add_ofNat_succ]⟩

/-- Every store keeps memory's canonical form and that of the stored-to set. -/
theorem State.wf_storeBytes (a : Word) (vs : List Byte) (hm : s.mem.wf = true)
    (hd : AddrSet.wf s.dirty = true) :
    (s.storeBytes a vs).mem.wf = true ∧ AddrSet.wf (s.storeBytes a vs).dirty = true := by
  induction vs generalizing s a with
  | nil => exact ⟨hm, hd⟩
  | cons v vs ih =>
    exact ih _ _ (Memory.wf_set _ _ _ hm a.isLt) (AddrSet.wf_insert _ _ hd a.isLt)

theorem stored_storeBytes (a : Word) (vs : List Byte) (hl : vs.length ≤ 2 ^ 32) :
    Stored s (s.storeBytes a vs) a vs :=
  ⟨fun k h => s.byteAt_storeBytes a vs hl k h, fun b h => s.byteAt_storeBytes_other a b vs h,
   fun b => by
    rw [s.mem_dirty_storeBytes]
    simp only [← BitVec.toNat_inj]⟩

/-- A store does what `OnlyStored` says and nothing else. -/
theorem onlyStored_storeBytes_retire (a : Word) (vs : List Byte) (hl : vs.length ≤ 2 ^ 32) :
    OnlyStored s (s.storeBytes a vs).retire a vs :=
  ⟨stored_storeBytes s a vs hl, by simp [SameRegs], by simp [SameHiLo],
   by simp [Retired, FallsThrough, AgeCounts, SameRun]⟩

/-- Everything `memWrite` can answer. -/
theorem State.memWrite_eq_ok (a : Word) (vs : List Byte) :
    s.memWrite a vs = .ok t ↔ MappedRange s a vs.length ∧ t = s.storeBytes a vs := by
  rw [← s.firstUnmapped_eq_none]
  unfold State.memWrite
  cases s.firstUnmapped a vs.length <;> simp [eq_comm]

/-! ## Loads and stores -/

/-- What a load can do if it answers a next state. -/
theorem loadInto_eq_next (rt : Reg) (a : Word) (n : Nat) (f : List Byte → Word) :
    loadInto s rt a n f = .next t ↔
      MappedRange s a n ∧ t = (s.writeReg rt (f (s.bytesAt a n))).retire := by
  rw [← s.firstUnmapped_eq_none]
  unfold loadInto State.memRead
  cases s.firstUnmapped a n <;> simp [eq_comm]

theorem loadInto_of_mapped (rt : Reg) (a : Word) (n : Nat) (f : List Byte → Word)
    (h : MappedRange s a n) :
    loadInto s rt a n f = .next (s.writeReg rt (f (s.bytesAt a n))).retire :=
  (loadInto_eq_next s _ rt a n f).mpr ⟨h, rfl⟩

theorem loadInto_of_unmapped (rt : Reg) (a : Word) (n k : Nat) (f : List Byte → Word) (hk : k < n)
    (hu : s.isMapped (a + BitVec.ofNat 32 k) = false) :
    ∃ u, loadInto s rt a n f = .fault (.stuck u) := by
  obtain ⟨u, h⟩ := s.memRead_of_unmapped a n k hk hu
  exact ⟨u, by simp [loadInto, h]⟩

/-- What a store can do if it answers a next state. -/
theorem storeFrom_eq_next (a : Word) (vs : List Byte) :
    storeFrom s a vs = .next t ↔
      MappedRange s a vs.length ∧ t = (s.storeBytes a vs).retire := by
  rw [← s.firstUnmapped_eq_none]
  unfold storeFrom State.memWrite
  cases s.firstUnmapped a vs.length <;> simp [eq_comm]

theorem storeFrom_of_mapped (a : Word) (vs : List Byte) (h : MappedRange s a vs.length) :
    storeFrom s a vs = .next (s.storeBytes a vs).retire :=
  (storeFrom_eq_next s _ a vs).mpr ⟨h, rfl⟩

theorem storeFrom_of_unmapped (a : Word) (vs : List Byte) (k : Nat) (hk : k < vs.length)
    (hu : s.isMapped (a + BitVec.ofNat 32 k) = false) :
    ∃ u, storeFrom s a vs = .fault (.stuck u) := by
  obtain ⟨u, h⟩ := s.firstUnmapped_of_unmapped a vs.length k hk hu
  exact ⟨u, by simp [storeFrom, State.memWrite, h]⟩

/-! ## Alignment, unmapped ranges, and what is never refused -/

theorem alignedTo_eq_true (n : Nat) (a : Word) (h : a.toNat % n = 0) : alignedTo n a = true := by
  simp [alignedTo, h]

theorem alignedTo_eq_false (n : Nat) (a : Word) (h : a.toNat % n ≠ 0) : alignedTo n a = false := by
  simp [alignedTo, h]

theorem mappedRange_one (a : Word) (h : s.isMapped a = true) : MappedRange s a 1 := by
  intro k hk
  obtain rfl : k = 0 := by omega
  simpa using h

/-- A load of a range that is not mapped throughout is stuck. -/
theorem loadInto_not_mapped (rt : Reg) (a : Word) (n : Nat) (f : List Byte → Word)
    (h : ¬ MappedRange s a n) : ∃ u, loadInto s rt a n f = .fault (.stuck u) := by
  rw [← s.firstUnmapped_eq_none] at h
  obtain ⟨u, hu⟩ := Option.ne_none_iff_exists'.mp h
  exact ⟨u, by simp [loadInto, State.memRead, hu]⟩

/-- A store to a range that is not mapped throughout is stuck. -/
theorem storeFrom_not_mapped (a : Word) (vs : List Byte) (h : ¬ MappedRange s a vs.length) :
    ∃ u, storeFrom s a vs = .fault (.stuck u) := by
  rw [← s.firstUnmapped_eq_none] at h
  obtain ⟨u, hu⟩ := Option.ne_none_iff_exists'.mp h
  exact ⟨u, by simp [storeFrom, State.memWrite, hu]⟩

theorem loadInto_ne_refused (rt : Reg) (a : Word) (n : Nat) (f : List Byte → Word) (w : Refusal) :
    loadInto s rt a n f ≠ .refused w := by
  unfold loadInto; split <;> simp

theorem storeFrom_ne_refused (a : Word) (vs : List Byte) (w : Refusal) :
    storeFrom s a vs ≠ .refused w := by
  unfold storeFrom; split <;> simp

theorem raise_ne_refused (c : Cause) (w : Refusal) : raise c s ≠ .refused w := by
  simp [raise]

theorem trapIf_ne_refused (b : Bool) (c : Option (BitVec 10)) (w : Refusal) :
    trapIf b c s ≠ .refused w := by
  unfold trapIf; split <;> simp [raise]

theorem writeExact_ne_refused (r : Reg) (x : Int) (w : Refusal) : writeExact s r x ≠ .refused w := by
  unfold writeExact; split <;> simp [raise]

/-! ## Fetch -/

theorem State.anyDirty_iff (a : Word) (n : Nat) : s.anyDirty a n = true ↔ DirtyRange s a n := by
  induction n generalizing a with
  | zero => simp [State.anyDirty, DirtyRange]
  | succ n ih =>
    unfold State.anyDirty
    rw [Bool.or_eq_true, ih]
    constructor
    · rintro (h | ⟨k, hk, h⟩)
      · exact ⟨0, by omega, by simpa using h⟩
      · exact ⟨k + 1, by omega, by rw [add_ofNat_succ]; exact h⟩
    · rintro ⟨k, hk, h⟩
      cases k with
      | zero => exact .inl (by simpa using h)
      | succ k => exact .inr ⟨k, by omega, by rw [← add_ofNat_succ]; exact h⟩

/-- When a fetch delivers a word, and which. -/
theorem fetch_eq_ok (w : Word) :
    fetch s = .ok w ↔ alignedTo 4 s.pc = true ∧ MappedRange s s.pc 4 ∧ ¬ DirtyRange s s.pc 4 ∧
      w = leValue (s.bytesAt s.pc 4) := by
  rw [← s.firstUnmapped_eq_none, ← s.anyDirty_iff]
  unfold fetch State.memRead
  cases alignedTo 4 s.pc <;> cases s.firstUnmapped s.pc 4 <;> cases s.anyDirty s.pc 4 <;>
    simp [eq_comm]

/-- What a fetch that delivers no word does if the step goes on: it raises AddressError (R19 step 1). -/
theorem fetch_error_next (h : fetch s = .error (.next t)) :
    alignedTo 4 s.pc = false ∧
      t = { s with outcome := .fault ⟨.addressError .fetch s.pc, s.pc, s.bd⟩ } := by
  unfold fetch State.memRead at h
  cases ha : alignedTo 4 s.pc with
  | true =>
    cases hu : s.firstUnmapped s.pc 4 <;> cases hd : s.anyDirty s.pc 4 <;> simp [ha, hu, hd] at h
  | false =>
    simp only [ha] at h
    exact ⟨rfl, by simpa [raise, eq_comm] using h⟩

end Sys2Proof.Machine
end

