-- ==== Sys2Proof/Laws/PerInstr.lean ====
section
/-! SUPPORT. Lemmas made per instruction, one for each constructor of `Instr`: the word `encode` gives an
instruction satisfies that instruction's row of the opcode table (R58), which is one of the 62. -/

set_option linter.unusedSimpArgs false
set_option Elab.async false -- one theorem at a time: sixty at once exceed the memory limit of the check

namespace Sys2Proof.Laws

/-- The encoded word is accepted by the instruction's own row, and the table lists that row. -/
def RowAccepts.Statement (i : Instr) : Prop :=
  (rowOf i).accepts (encode i) = true ∧ rowOf i ∈ opcodeRows

theorem RowAccepts.lb (rt rs : Reg) (imm : Half) : RowAccepts.Statement (.lb rt rs imm) := by
  refine ⟨(Row.accepts_iff _ _).mpr ?_, by simp [rowOf, opcodeRows, loadStoreRows, arithRows, shiftRows, mulDivRows, jumpRows, specialRows, trapRows]⟩
  simp [rowOf, encode]
  simp [opcodeField, rsBits, rtBits, rdBits, saField, functField, and_ones_five, and_ones_six]

theorem RowAccepts.lbu (rt rs : Reg) (imm : Half) : RowAccepts.Statement (.lbu rt rs imm) := by
  refine ⟨(Row.accepts_iff _ _).mpr ?_, by simp [rowOf, opcodeRows, loadStoreRows, arithRows, shiftRows, mulDivRows, jumpRows, specialRows, trapRows]⟩
  simp [rowOf, encode]
  simp [opcodeField, rsBits, rtBits, rdBits, saField, functField, and_ones_five, and_ones_six]

theorem RowAccepts.lh (rt rs : Reg) (imm : Half) : RowAccepts.Statement (.lh rt rs imm) := by
  refine ⟨(Row.accepts_iff _ _).mpr ?_, by simp [rowOf, opcodeRows, loadStoreRows, arithRows, shiftRows, mulDivRows, jumpRows, specialRows, trapRows]⟩
  simp [rowOf, encode]
  simp [opcodeField, rsBits, rtBits, rdBits, saField, functField, and_ones_five, and_ones_six]

theorem RowAccepts.lhu (rt rs : Reg) (imm : Half) : RowAccepts.Statement (.lhu rt rs imm) := by
  refine ⟨(Row.accepts_iff _ _).mpr ?_, by simp [rowOf, opcodeRows, loadStoreRows, arithRows, shiftRows, mulDivRows, jumpRows, specialRows, trapRows]⟩
  simp [rowOf, encode]
  simp [opcodeField, rsBits, rtBits, rdBits, saField, functField, and_ones_five, and_ones_six]

theorem RowAccepts.lw (rt rs : Reg) (imm : Half) : RowAccepts.Statement (.lw rt rs imm) := by
  refine ⟨(Row.accepts_iff _ _).mpr ?_, by simp [rowOf, opcodeRows, loadStoreRows, arithRows, shiftRows, mulDivRows, jumpRows, specialRows, trapRows]⟩
  simp [rowOf, encode]
  simp [opcodeField, rsBits, rtBits, rdBits, saField, functField, and_ones_five, and_ones_six]

theorem RowAccepts.lwl (rt rs : Reg) (imm : Half) : RowAccepts.Statement (.lwl rt rs imm) := by
  refine ⟨(Row.accepts_iff _ _).mpr ?_, by simp [rowOf, opcodeRows, loadStoreRows, arithRows, shiftRows, mulDivRows, jumpRows, specialRows, trapRows]⟩
  simp [rowOf, encode]
  simp [opcodeField, rsBits, rtBits, rdBits, saField, functField, and_ones_five, and_ones_six]

theorem RowAccepts.lwr (rt rs : Reg) (imm : Half) : RowAccepts.Statement (.lwr rt rs imm) := by
  refine ⟨(Row.accepts_iff _ _).mpr ?_, by simp [rowOf, opcodeRows, loadStoreRows, arithRows, shiftRows, mulDivRows, jumpRows, specialRows, trapRows]⟩
  simp [rowOf, encode]
  simp [opcodeField, rsBits, rtBits, rdBits, saField, functField, and_ones_five, and_ones_six]

theorem RowAccepts.sb (rt rs : Reg) (imm : Half) : RowAccepts.Statement (.sb rt rs imm) := by
  refine ⟨(Row.accepts_iff _ _).mpr ?_, by simp [rowOf, opcodeRows, loadStoreRows, arithRows, shiftRows, mulDivRows, jumpRows, specialRows, trapRows]⟩
  simp [rowOf, encode]
  simp [opcodeField, rsBits, rtBits, rdBits, saField, functField, and_ones_five, and_ones_six]

theorem RowAccepts.sh (rt rs : Reg) (imm : Half) : RowAccepts.Statement (.sh rt rs imm) := by
  refine ⟨(Row.accepts_iff _ _).mpr ?_, by simp [rowOf, opcodeRows, loadStoreRows, arithRows, shiftRows, mulDivRows, jumpRows, specialRows, trapRows]⟩
  simp [rowOf, encode]
  simp [opcodeField, rsBits, rtBits, rdBits, saField, functField, and_ones_five, and_ones_six]

theorem RowAccepts.sw (rt rs : Reg) (imm : Half) : RowAccepts.Statement (.sw rt rs imm) := by
  refine ⟨(Row.accepts_iff _ _).mpr ?_, by simp [rowOf, opcodeRows, loadStoreRows, arithRows, shiftRows, mulDivRows, jumpRows, specialRows, trapRows]⟩
  simp [rowOf, encode]
  simp [opcodeField, rsBits, rtBits, rdBits, saField, functField, and_ones_five, and_ones_six]

theorem RowAccepts.swl (rt rs : Reg) (imm : Half) : RowAccepts.Statement (.swl rt rs imm) := by
  refine ⟨(Row.accepts_iff _ _).mpr ?_, by simp [rowOf, opcodeRows, loadStoreRows, arithRows, shiftRows, mulDivRows, jumpRows, specialRows, trapRows]⟩
  simp [rowOf, encode]
  simp [opcodeField, rsBits, rtBits, rdBits, saField, functField, and_ones_five, and_ones_six]

theorem RowAccepts.swr (rt rs : Reg) (imm : Half) : RowAccepts.Statement (.swr rt rs imm) := by
  refine ⟨(Row.accepts_iff _ _).mpr ?_, by simp [rowOf, opcodeRows, loadStoreRows, arithRows, shiftRows, mulDivRows, jumpRows, specialRows, trapRows]⟩
  simp [rowOf, encode]
  simp [opcodeField, rsBits, rtBits, rdBits, saField, functField, and_ones_five, and_ones_six]

theorem RowAccepts.add (rd rs rt : Reg) : RowAccepts.Statement (.add rd rs rt) := by
  refine ⟨(Row.accepts_iff _ _).mpr ?_, by simp [rowOf, opcodeRows, loadStoreRows, arithRows, shiftRows, mulDivRows, jumpRows, specialRows, trapRows]⟩
  simp [rowOf, encode]
  simp [opcodeField, rsBits, rtBits, rdBits, saField, functField, and_ones_five, and_ones_six]

theorem RowAccepts.addu (rd rs rt : Reg) : RowAccepts.Statement (.addu rd rs rt) := by
  refine ⟨(Row.accepts_iff _ _).mpr ?_, by simp [rowOf, opcodeRows, loadStoreRows, arithRows, shiftRows, mulDivRows, jumpRows, specialRows, trapRows]⟩
  simp [rowOf, encode]
  simp [opcodeField, rsBits, rtBits, rdBits, saField, functField, and_ones_five, and_ones_six]

theorem RowAccepts.sub (rd rs rt : Reg) : RowAccepts.Statement (.sub rd rs rt) := by
  refine ⟨(Row.accepts_iff _ _).mpr ?_, by simp [rowOf, opcodeRows, loadStoreRows, arithRows, shiftRows, mulDivRows, jumpRows, specialRows, trapRows]⟩
  simp [rowOf, encode]
  simp [opcodeField, rsBits, rtBits, rdBits, saField, functField, and_ones_five, and_ones_six]

theorem RowAccepts.subu (rd rs rt : Reg) : RowAccepts.Statement (.subu rd rs rt) := by
  refine ⟨(Row.accepts_iff _ _).mpr ?_, by simp [rowOf, opcodeRows, loadStoreRows, arithRows, shiftRows, mulDivRows, jumpRows, specialRows, trapRows]⟩
  simp [rowOf, encode]
  simp [opcodeField, rsBits, rtBits, rdBits, saField, functField, and_ones_five, and_ones_six]

theorem RowAccepts.and (rd rs rt : Reg) : RowAccepts.Statement (.and rd rs rt) := by
  refine ⟨(Row.accepts_iff _ _).mpr ?_, by simp [rowOf, opcodeRows, loadStoreRows, arithRows, shiftRows, mulDivRows, jumpRows, specialRows, trapRows]⟩
  simp [rowOf, encode]
  simp [opcodeField, rsBits, rtBits, rdBits, saField, functField, and_ones_five, and_ones_six]

theorem RowAccepts.or (rd rs rt : Reg) : RowAccepts.Statement (.or rd rs rt) := by
  refine ⟨(Row.accepts_iff _ _).mpr ?_, by simp [rowOf, opcodeRows, loadStoreRows, arithRows, shiftRows, mulDivRows, jumpRows, specialRows, trapRows]⟩
  simp [rowOf, encode]
  simp [opcodeField, rsBits, rtBits, rdBits, saField, functField, and_ones_five, and_ones_six]

theorem RowAccepts.xor (rd rs rt : Reg) : RowAccepts.Statement (.xor rd rs rt) := by
  refine ⟨(Row.accepts_iff _ _).mpr ?_, by simp [rowOf, opcodeRows, loadStoreRows, arithRows, shiftRows, mulDivRows, jumpRows, specialRows, trapRows]⟩
  simp [rowOf, encode]
  simp [opcodeField, rsBits, rtBits, rdBits, saField, functField, and_ones_five, and_ones_six]

theorem RowAccepts.nor (rd rs rt : Reg) : RowAccepts.Statement (.nor rd rs rt) := by
  refine ⟨(Row.accepts_iff _ _).mpr ?_, by simp [rowOf, opcodeRows, loadStoreRows, arithRows, shiftRows, mulDivRows, jumpRows, specialRows, trapRows]⟩
  simp [rowOf, encode]
  simp [opcodeField, rsBits, rtBits, rdBits, saField, functField, and_ones_five, and_ones_six]

theorem RowAccepts.slt (rd rs rt : Reg) : RowAccepts.Statement (.slt rd rs rt) := by
  refine ⟨(Row.accepts_iff _ _).mpr ?_, by simp [rowOf, opcodeRows, loadStoreRows, arithRows, shiftRows, mulDivRows, jumpRows, specialRows, trapRows]⟩
  simp [rowOf, encode]
  simp [opcodeField, rsBits, rtBits, rdBits, saField, functField, and_ones_five, and_ones_six]

theorem RowAccepts.sltu (rd rs rt : Reg) : RowAccepts.Statement (.sltu rd rs rt) := by
  refine ⟨(Row.accepts_iff _ _).mpr ?_, by simp [rowOf, opcodeRows, loadStoreRows, arithRows, shiftRows, mulDivRows, jumpRows, specialRows, trapRows]⟩
  simp [rowOf, encode]
  simp [opcodeField, rsBits, rtBits, rdBits, saField, functField, and_ones_five, and_ones_six]

theorem RowAccepts.addi (rt rs : Reg) (imm : Half) : RowAccepts.Statement (.addi rt rs imm) := by
  refine ⟨(Row.accepts_iff _ _).mpr ?_, by simp [rowOf, opcodeRows, loadStoreRows, arithRows, shiftRows, mulDivRows, jumpRows, specialRows, trapRows]⟩
  simp [rowOf, encode]
  simp [opcodeField, rsBits, rtBits, rdBits, saField, functField, and_ones_five, and_ones_six]

theorem RowAccepts.addiu (rt rs : Reg) (imm : Half) : RowAccepts.Statement (.addiu rt rs imm) := by
  refine ⟨(Row.accepts_iff _ _).mpr ?_, by simp [rowOf, opcodeRows, loadStoreRows, arithRows, shiftRows, mulDivRows, jumpRows, specialRows, trapRows]⟩
  simp [rowOf, encode]
  simp [opcodeField, rsBits, rtBits, rdBits, saField, functField, and_ones_five, and_ones_six]

theorem RowAccepts.slti (rt rs : Reg) (imm : Half) : RowAccepts.Statement (.slti rt rs imm) := by
  refine ⟨(Row.accepts_iff _ _).mpr ?_, by simp [rowOf, opcodeRows, loadStoreRows, arithRows, shiftRows, mulDivRows, jumpRows, specialRows, trapRows]⟩
  simp [rowOf, encode]
  simp [opcodeField, rsBits, rtBits, rdBits, saField, functField, and_ones_five, and_ones_six]

theorem RowAccepts.sltiu (rt rs : Reg) (imm : Half) : RowAccepts.Statement (.sltiu rt rs imm) := by
  refine ⟨(Row.accepts_iff _ _).mpr ?_, by simp [rowOf, opcodeRows, loadStoreRows, arithRows, shiftRows, mulDivRows, jumpRows, specialRows, trapRows]⟩
  simp [rowOf, encode]
  simp [opcodeField, rsBits, rtBits, rdBits, saField, functField, and_ones_five, and_ones_six]

theorem RowAccepts.andi (rt rs : Reg) (imm : Half) : RowAccepts.Statement (.andi rt rs imm) := by
  refine ⟨(Row.accepts_iff _ _).mpr ?_, by simp [rowOf, opcodeRows, loadStoreRows, arithRows, shiftRows, mulDivRows, jumpRows, specialRows, trapRows]⟩
  simp [rowOf, encode]
  simp [opcodeField, rsBits, rtBits, rdBits, saField, functField, and_ones_five, and_ones_six]

theorem RowAccepts.ori (rt rs : Reg) (imm : Half) : RowAccepts.Statement (.ori rt rs imm) := by
  refine ⟨(Row.accepts_iff _ _).mpr ?_, by simp [rowOf, opcodeRows, loadStoreRows, arithRows, shiftRows, mulDivRows, jumpRows, specialRows, trapRows]⟩
  simp [rowOf, encode]
  simp [opcodeField, rsBits, rtBits, rdBits, saField, functField, and_ones_five, and_ones_six]

theorem RowAccepts.xori (rt rs : Reg) (imm : Half) : RowAccepts.Statement (.xori rt rs imm) := by
  refine ⟨(Row.accepts_iff _ _).mpr ?_, by simp [rowOf, opcodeRows, loadStoreRows, arithRows, shiftRows, mulDivRows, jumpRows, specialRows, trapRows]⟩
  simp [rowOf, encode]
  simp [opcodeField, rsBits, rtBits, rdBits, saField, functField, and_ones_five, and_ones_six]

theorem RowAccepts.lui (rt : Reg) (imm : Half) : RowAccepts.Statement (.lui rt imm) := by
  refine ⟨(Row.accepts_iff _ _).mpr ?_, by simp [rowOf, opcodeRows, loadStoreRows, arithRows, shiftRows, mulDivRows, jumpRows, specialRows, trapRows]⟩
  simp [rowOf, encode]
  simp [opcodeField, rsBits, rtBits, rdBits, saField, functField, and_ones_five, and_ones_six]

theorem RowAccepts.sll (rd rt : Reg) (sa : Shamt) : RowAccepts.Statement (.sll rd rt sa) := by
  refine ⟨(Row.accepts_iff _ _).mpr ?_, by simp [rowOf, opcodeRows, loadStoreRows, arithRows, shiftRows, mulDivRows, jumpRows, specialRows, trapRows]⟩
  simp [rowOf, encode]
  simp [opcodeField, rsBits, rtBits, rdBits, saField, functField, and_ones_five, and_ones_six]

theorem RowAccepts.srl (rd rt : Reg) (sa : Shamt) : RowAccepts.Statement (.srl rd rt sa) := by
  refine ⟨(Row.accepts_iff _ _).mpr ?_, by simp [rowOf, opcodeRows, loadStoreRows, arithRows, shiftRows, mulDivRows, jumpRows, specialRows, trapRows]⟩
  simp [rowOf, encode]
  simp [opcodeField, rsBits, rtBits, rdBits, saField, functField, and_ones_five, and_ones_six]

theorem RowAccepts.sra (rd rt : Reg) (sa : Shamt) : RowAccepts.Statement (.sra rd rt sa) := by
  refine ⟨(Row.accepts_iff _ _).mpr ?_, by simp [rowOf, opcodeRows, loadStoreRows, arithRows, shiftRows, mulDivRows, jumpRows, specialRows, trapRows]⟩
  simp [rowOf, encode]
  simp [opcodeField, rsBits, rtBits, rdBits, saField, functField, and_ones_five, and_ones_six]

theorem RowAccepts.sllv (rd rt rs : Reg) : RowAccepts.Statement (.sllv rd rt rs) := by
  refine ⟨(Row.accepts_iff _ _).mpr ?_, by simp [rowOf, opcodeRows, loadStoreRows, arithRows, shiftRows, mulDivRows, jumpRows, specialRows, trapRows]⟩
  simp [rowOf, encode]
  simp [opcodeField, rsBits, rtBits, rdBits, saField, functField, and_ones_five, and_ones_six]

theorem RowAccepts.srlv (rd rt rs : Reg) : RowAccepts.Statement (.srlv rd rt rs) := by
  refine ⟨(Row.accepts_iff _ _).mpr ?_, by simp [rowOf, opcodeRows, loadStoreRows, arithRows, shiftRows, mulDivRows, jumpRows, specialRows, trapRows]⟩
  simp [rowOf, encode]
  simp [opcodeField, rsBits, rtBits, rdBits, saField, functField, and_ones_five, and_ones_six]

theorem RowAccepts.srav (rd rt rs : Reg) : RowAccepts.Statement (.srav rd rt rs) := by
  refine ⟨(Row.accepts_iff _ _).mpr ?_, by simp [rowOf, opcodeRows, loadStoreRows, arithRows, shiftRows, mulDivRows, jumpRows, specialRows, trapRows]⟩
  simp [rowOf, encode]
  simp [opcodeField, rsBits, rtBits, rdBits, saField, functField, and_ones_five, and_ones_six]

theorem RowAccepts.mult (rs rt : Reg) : RowAccepts.Statement (.mult rs rt) := by
  refine ⟨(Row.accepts_iff _ _).mpr ?_, by simp [rowOf, opcodeRows, loadStoreRows, arithRows, shiftRows, mulDivRows, jumpRows, specialRows, trapRows]⟩
  simp [rowOf, encode]
  simp [opcodeField, rsBits, rtBits, rdBits, saField, functField, and_ones_five, and_ones_six]

theorem RowAccepts.multu (rs rt : Reg) : RowAccepts.Statement (.multu rs rt) := by
  refine ⟨(Row.accepts_iff _ _).mpr ?_, by simp [rowOf, opcodeRows, loadStoreRows, arithRows, shiftRows, mulDivRows, jumpRows, specialRows, trapRows]⟩
  simp [rowOf, encode]
  simp [opcodeField, rsBits, rtBits, rdBits, saField, functField, and_ones_five, and_ones_six]

theorem RowAccepts.div (rs rt : Reg) : RowAccepts.Statement (.div rs rt) := by
  refine ⟨(Row.accepts_iff _ _).mpr ?_, by simp [rowOf, opcodeRows, loadStoreRows, arithRows, shiftRows, mulDivRows, jumpRows, specialRows, trapRows]⟩
  simp [rowOf, encode]
  simp [opcodeField, rsBits, rtBits, rdBits, saField, functField, and_ones_five, and_ones_six]

theorem RowAccepts.divu (rs rt : Reg) : RowAccepts.Statement (.divu rs rt) := by
  refine ⟨(Row.accepts_iff _ _).mpr ?_, by simp [rowOf, opcodeRows, loadStoreRows, arithRows, shiftRows, mulDivRows, jumpRows, specialRows, trapRows]⟩
  simp [rowOf, encode]
  simp [opcodeField, rsBits, rtBits, rdBits, saField, functField, and_ones_five, and_ones_six]

theorem RowAccepts.mfhi (rd : Reg) : RowAccepts.Statement (.mfhi rd) := by
  refine ⟨(Row.accepts_iff _ _).mpr ?_, by simp [rowOf, opcodeRows, loadStoreRows, arithRows, shiftRows, mulDivRows, jumpRows, specialRows, trapRows]⟩
  simp [rowOf, encode]
  simp [opcodeField, rsBits, rtBits, rdBits, saField, functField, and_ones_five, and_ones_six]

theorem RowAccepts.mthi (rs : Reg) : RowAccepts.Statement (.mthi rs) := by
  refine ⟨(Row.accepts_iff _ _).mpr ?_, by simp [rowOf, opcodeRows, loadStoreRows, arithRows, shiftRows, mulDivRows, jumpRows, specialRows, trapRows]⟩
  simp [rowOf, encode]
  simp [opcodeField, rsBits, rtBits, rdBits, saField, functField, and_ones_five, and_ones_six]

theorem RowAccepts.mflo (rd : Reg) : RowAccepts.Statement (.mflo rd) := by
  refine ⟨(Row.accepts_iff _ _).mpr ?_, by simp [rowOf, opcodeRows, loadStoreRows, arithRows, shiftRows, mulDivRows, jumpRows, specialRows, trapRows]⟩
  simp [rowOf, encode]
  simp [opcodeField, rsBits, rtBits, rdBits, saField, functField, and_ones_five, and_ones_six]

theorem RowAccepts.mtlo (rs : Reg) : RowAccepts.Statement (.mtlo rs) := by
  refine ⟨(Row.accepts_iff _ _).mpr ?_, by simp [rowOf, opcodeRows, loadStoreRows, arithRows, shiftRows, mulDivRows, jumpRows, specialRows, trapRows]⟩
  simp [rowOf, encode]
  simp [opcodeField, rsBits, rtBits, rdBits, saField, functField, and_ones_five, and_ones_six]

theorem RowAccepts.j (target : BitVec 26) : RowAccepts.Statement (.j target) := by
  refine ⟨(Row.accepts_iff _ _).mpr ?_, by simp [rowOf, opcodeRows, loadStoreRows, arithRows, shiftRows, mulDivRows, jumpRows, specialRows, trapRows]⟩
  simp [rowOf, encode]
  simp [opcodeField, rsBits, rtBits, rdBits, saField, functField, and_ones_five, and_ones_six]

theorem RowAccepts.jal (target : BitVec 26) : RowAccepts.Statement (.jal target) := by
  refine ⟨(Row.accepts_iff _ _).mpr ?_, by simp [rowOf, opcodeRows, loadStoreRows, arithRows, shiftRows, mulDivRows, jumpRows, specialRows, trapRows]⟩
  simp [rowOf, encode]
  simp [opcodeField, rsBits, rtBits, rdBits, saField, functField, and_ones_five, and_ones_six]

theorem RowAccepts.jr (rs : Reg) : RowAccepts.Statement (.jr rs) := by
  refine ⟨(Row.accepts_iff _ _).mpr ?_, by simp [rowOf, opcodeRows, loadStoreRows, arithRows, shiftRows, mulDivRows, jumpRows, specialRows, trapRows]⟩
  simp [rowOf, encode]
  simp [opcodeField, rsBits, rtBits, rdBits, saField, functField, and_ones_five, and_ones_six]

theorem RowAccepts.jalr (rd rs : Reg) : RowAccepts.Statement (.jalr rd rs) := by
  refine ⟨(Row.accepts_iff _ _).mpr ?_, by simp [rowOf, opcodeRows, loadStoreRows, arithRows, shiftRows, mulDivRows, jumpRows, specialRows, trapRows]⟩
  simp [rowOf, encode]
  simp [opcodeField, rsBits, rtBits, rdBits, saField, functField, and_ones_five, and_ones_six]

theorem RowAccepts.syscall (code : BitVec 20) : RowAccepts.Statement (.syscall code) := by
  refine ⟨(Row.accepts_iff _ _).mpr ?_, by simp [rowOf, opcodeRows, loadStoreRows, arithRows, shiftRows, mulDivRows, jumpRows, specialRows, trapRows]⟩
  simp [rowOf, encode]
  simp [opcodeField, rsBits, rtBits, rdBits, saField, functField, and_ones_five, and_ones_six]

theorem RowAccepts.brk (code : BitVec 20) : RowAccepts.Statement (.brk code) := by
  refine ⟨(Row.accepts_iff _ _).mpr ?_, by simp [rowOf, opcodeRows, loadStoreRows, arithRows, shiftRows, mulDivRows, jumpRows, specialRows, trapRows]⟩
  simp [rowOf, encode]
  simp [opcodeField, rsBits, rtBits, rdBits, saField, functField, and_ones_five, and_ones_six]

theorem RowAccepts.tge (rs rt : Reg) (code : BitVec 10) : RowAccepts.Statement (.tge rs rt code) := by
  refine ⟨(Row.accepts_iff _ _).mpr ?_, by simp [rowOf, opcodeRows, loadStoreRows, arithRows, shiftRows, mulDivRows, jumpRows, specialRows, trapRows]⟩
  simp [rowOf, encode]
  simp [opcodeField, rsBits, rtBits, rdBits, saField, functField, and_ones_five, and_ones_six]

theorem RowAccepts.tgeu (rs rt : Reg) (code : BitVec 10) : RowAccepts.Statement (.tgeu rs rt code) := by
  refine ⟨(Row.accepts_iff _ _).mpr ?_, by simp [rowOf, opcodeRows, loadStoreRows, arithRows, shiftRows, mulDivRows, jumpRows, specialRows, trapRows]⟩
  simp [rowOf, encode]
  simp [opcodeField, rsBits, rtBits, rdBits, saField, functField, and_ones_five, and_ones_six]

theorem RowAccepts.tlt (rs rt : Reg) (code : BitVec 10) : RowAccepts.Statement (.tlt rs rt code) := by
  refine ⟨(Row.accepts_iff _ _).mpr ?_, by simp [rowOf, opcodeRows, loadStoreRows, arithRows, shiftRows, mulDivRows, jumpRows, specialRows, trapRows]⟩
  simp [rowOf, encode]
  simp [opcodeField, rsBits, rtBits, rdBits, saField, functField, and_ones_five, and_ones_six]

theorem RowAccepts.tltu (rs rt : Reg) (code : BitVec 10) : RowAccepts.Statement (.tltu rs rt code) := by
  refine ⟨(Row.accepts_iff _ _).mpr ?_, by simp [rowOf, opcodeRows, loadStoreRows, arithRows, shiftRows, mulDivRows, jumpRows, specialRows, trapRows]⟩
  simp [rowOf, encode]
  simp [opcodeField, rsBits, rtBits, rdBits, saField, functField, and_ones_five, and_ones_six]

theorem RowAccepts.teq (rs rt : Reg) (code : BitVec 10) : RowAccepts.Statement (.teq rs rt code) := by
  refine ⟨(Row.accepts_iff _ _).mpr ?_, by simp [rowOf, opcodeRows, loadStoreRows, arithRows, shiftRows, mulDivRows, jumpRows, specialRows, trapRows]⟩
  simp [rowOf, encode]
  simp [opcodeField, rsBits, rtBits, rdBits, saField, functField, and_ones_five, and_ones_six]

theorem RowAccepts.tne (rs rt : Reg) (code : BitVec 10) : RowAccepts.Statement (.tne rs rt code) := by
  refine ⟨(Row.accepts_iff _ _).mpr ?_, by simp [rowOf, opcodeRows, loadStoreRows, arithRows, shiftRows, mulDivRows, jumpRows, specialRows, trapRows]⟩
  simp [rowOf, encode]
  simp [opcodeField, rsBits, rtBits, rdBits, saField, functField, and_ones_five, and_ones_six]

theorem RowAccepts.tgei (rs : Reg) (imm : Half) : RowAccepts.Statement (.tgei rs imm) := by
  refine ⟨(Row.accepts_iff _ _).mpr ?_, by simp [rowOf, opcodeRows, loadStoreRows, arithRows, shiftRows, mulDivRows, jumpRows, specialRows, trapRows]⟩
  simp [rowOf, encode]
  simp [opcodeField, rsBits, rtBits, rdBits, saField, functField, and_ones_five, and_ones_six]

theorem RowAccepts.tgeiu (rs : Reg) (imm : Half) : RowAccepts.Statement (.tgeiu rs imm) := by
  refine ⟨(Row.accepts_iff _ _).mpr ?_, by simp [rowOf, opcodeRows, loadStoreRows, arithRows, shiftRows, mulDivRows, jumpRows, specialRows, trapRows]⟩
  simp [rowOf, encode]
  simp [opcodeField, rsBits, rtBits, rdBits, saField, functField, and_ones_five, and_ones_six]

theorem RowAccepts.tlti (rs : Reg) (imm : Half) : RowAccepts.Statement (.tlti rs imm) := by
  refine ⟨(Row.accepts_iff _ _).mpr ?_, by simp [rowOf, opcodeRows, loadStoreRows, arithRows, shiftRows, mulDivRows, jumpRows, specialRows, trapRows]⟩
  simp [rowOf, encode]
  simp [opcodeField, rsBits, rtBits, rdBits, saField, functField, and_ones_five, and_ones_six]

theorem RowAccepts.tltiu (rs : Reg) (imm : Half) : RowAccepts.Statement (.tltiu rs imm) := by
  refine ⟨(Row.accepts_iff _ _).mpr ?_, by simp [rowOf, opcodeRows, loadStoreRows, arithRows, shiftRows, mulDivRows, jumpRows, specialRows, trapRows]⟩
  simp [rowOf, encode]
  simp [opcodeField, rsBits, rtBits, rdBits, saField, functField, and_ones_five, and_ones_six]

theorem RowAccepts.teqi (rs : Reg) (imm : Half) : RowAccepts.Statement (.teqi rs imm) := by
  refine ⟨(Row.accepts_iff _ _).mpr ?_, by simp [rowOf, opcodeRows, loadStoreRows, arithRows, shiftRows, mulDivRows, jumpRows, specialRows, trapRows]⟩
  simp [rowOf, encode]
  simp [opcodeField, rsBits, rtBits, rdBits, saField, functField, and_ones_five, and_ones_six]

theorem RowAccepts.tnei (rs : Reg) (imm : Half) : RowAccepts.Statement (.tnei rs imm) := by
  refine ⟨(Row.accepts_iff _ _).mpr ?_, by simp [rowOf, opcodeRows, loadStoreRows, arithRows, shiftRows, mulDivRows, jumpRows, specialRows, trapRows]⟩
  simp [rowOf, encode]
  simp [opcodeField, rsBits, rtBits, rdBits, saField, functField, and_ones_five, and_ones_six]

end Sys2Proof.Laws
end

