-- ==== Sys2Proof/Laws/Step.lean ====
section
/-! SUPPORT. What a step that goes on can do: `exec` once, by the kinds of effect there are, and `step`
over it. Every invariant and every frame over all instructions follows from these. -/

namespace Sys2Proof.Machine

/-- The kinds of effect an instruction `i` that answers a next state can have on `s`. -/
inductive Effect (i : Instr) (s : State) : State → Prop where
  /-- It raised an exception (R181 to R183). -/
  | raised (c : Cause) (hj : isJump i = false) (hw : writesHiLo i = false)
      (hr : readsHiLo i = false) :
      Effect i s { s with outcome := .fault ⟨c, s.pc, s.bd⟩ }
  /-- It wrote at most one general register (`x[0]` discards). -/
  | reg (rd : Reg) (v : Word) (hj : isJump i = false) (hs : isStore i = false)
      (hw : writesHiLo i = false) (hr : readsHiLo i = false) :
      Effect i s (s.writeReg rd v).retire
  /-- It wrote HI and LO. -/
  | hiLo (h l : Word) (hw : writesHiLo i = true) (hj : isJump i = false) (hs : isStore i = false)
      (hr : readsHiLo i = false) (ha : s.hazardDistance ≤ s.hiloAge) :
      Effect i s (s.writeHiLo h l).retire
  /-- It left HI and LO open (R132, R133). -/
  | drawn (hw : writesHiLo i = true) (hj : isJump i = false) (hs : isStore i = false)
      (hr : readsHiLo i = false) (ha : s.hazardDistance ≤ s.hiloAge) :
      Effect i s s.drawHiLo.retire
  /-- It moved HI or LO to a general register. -/
  | moved (rd : Reg) (v : Word) (hr : readsHiLo i = true) (hj : isJump i = false)
      (hs : isStore i = false) (hw : writesHiLo i = false) :
      Effect i s (s.writeReg rd v).retireHiLoRead
  /-- It jumped, and linked unless `rd = 0`. -/
  | jumped (rd : Reg) (v target : Word) (hj : isJump i = true) (hs : isStore i = false)
      (hw : writesHiLo i = false) (hr : readsHiLo i = false) (hb : s.bd = false) :
      Effect i s ((s.writeReg rd v).retireJump target)
  /-- It stored at most four bytes. -/
  | stored (a : Word) (vs : List Byte) (hs : isStore i = true) (hj : isJump i = false)
      (hw : writesHiLo i = false) (hr : readsHiLo i = false) (hm : MappedRange s a vs.length)
      (hl : vs.length ≤ 4) :
      Effect i s (s.storeBytes a vs).retire

theorem Effect.retire {i : Instr} (s : State) (hj : isJump i = false) (hs : isStore i = false)
    (hw : writesHiLo i = false) (hr : readsHiLo i = false) : Effect i s s.retire := by
  have := Effect.reg (i := i) (s := s) 0 0#32 hj hs hw hr
  simpa using this

theorem Effect.noLink {i : Instr} (s : State) (target : Word) (hj : isJump i = true)
    (hs : isStore i = false) (hw : writesHiLo i = false) (hr : readsHiLo i = false)
    (hb : s.bd = false) : Effect i s (s.retireJump target) := by
  have := Effect.jumped (i := i) (s := s) 0 0#32 target hj hs hw hr hb
  simpa using this

theorem Effect.of_loadInto {i : Instr} {s t : State} {rt : Reg} {a : Word} {n : Nat}
    {f : List Byte → Word} (h : loadInto s rt a n f = .next t) (hj : isJump i = false)
    (hs : isStore i = false) (hw : writesHiLo i = false) (hr : readsHiLo i = false) :
    Effect i s t := by
  obtain ⟨-, rfl⟩ := (loadInto_eq_next ..).mp h
  exact .reg _ _ hj hs hw hr

theorem Effect.of_raise {i : Instr} {s t : State} {c : Cause} (h : raise c s = .next t)
    (hj : isJump i = false) (hw : writesHiLo i = false) (hr : readsHiLo i = false) :
    Effect i s t := by
  obtain rfl := (raise_eq_next ..).mp h
  exact .raised c hj hw hr

theorem Effect.of_storeFrom {i : Instr} {s t : State} {a : Word} {vs : List Byte}
    (h : storeFrom s a vs = .next t) (hl : vs.length ≤ 4) (hs : isStore i = true)
    (hj : isJump i = false) (hw : writesHiLo i = false) (hr : readsHiLo i = false) :
    Effect i s t := by
  obtain ⟨hm, rfl⟩ := (storeFrom_eq_next ..).mp h
  exact .stored a vs hs hj hw hr hm hl

theorem Effect.of_writeExact {i : Instr} {s t : State} {rd : Reg} {x : Int}
    (h : writeExact s rd x = .next t) (hj : isJump i = false) (hs : isStore i = false)
    (hw : writesHiLo i = false) (hr : readsHiLo i = false) : Effect i s t := by
  rcases (writeExact_eq_next ..).mp h with ⟨-, rfl⟩ | ⟨-, rfl⟩
  · exact .reg _ _ hj hs hw hr
  · exact .raised _ hj hw hr

theorem Effect.of_trapIf {i : Instr} {s t : State} {c : Bool} {code : Option (BitVec 10)}
    (h : trapIf c code s = .next t) (hj : isJump i = false) (hs : isStore i = false)
    (hw : writesHiLo i = false) (hr : readsHiLo i = false) : Effect i s t := by
  rcases (trapIf_eq_next ..).mp h with ⟨-, rfl⟩ | ⟨-, rfl⟩
  · exact .raised _ hj hw hr
  · exact .retire s hj hs hw hr

theorem Effect.of_writeReg {i : Instr} {s t : State} {rd : Reg} {v : Word}
    (h : (.next (s.writeReg rd v).retire : Answer) = .next t) (hj : isJump i = false)
    (hs : isStore i = false) (hw : writesHiLo i = false) (hr : readsHiLo i = false) :
    Effect i s t := by
  cases h
  exact .reg _ _ hj hs hw hr

/-- Everything an instruction can do if it answers a next state. -/
theorem exec_effect {i : Instr} {s t : State} (h : exec i s = .next t) : Effect i s t := by
  cases i with
  | lb rt rs imm => exact .of_loadInto h rfl rfl rfl rfl
  | lbu rt rs imm => exact .of_loadInto h rfl rfl rfl rfl
  | lh rt rs imm | lhu rt rs imm =>
    simp only [exec, execLh, execLhu] at h
    split at h
    · exact .of_loadInto h rfl rfl rfl rfl
    · exact .of_raise h rfl rfl rfl
  | lw rt rs imm =>
    simp only [exec, execLw] at h
    split at h
    · exact .of_loadInto h rfl rfl rfl rfl
    · exact .of_raise h rfl rfl rfl
  | lwl rt rs imm => exact .of_loadInto h rfl rfl rfl rfl
  | lwr rt rs imm => exact .of_loadInto h rfl rfl rfl rfl
  | sb rt rs imm => exact .of_storeFrom h (by simp) rfl rfl rfl rfl
  | sh rt rs imm | sw rt rs imm =>
    simp only [exec, execSh, execSw] at h
    split at h
    · exact .of_storeFrom h (by simp) rfl rfl rfl rfl
    · exact .of_raise h rfl rfl rfl
  | swl rt rs imm => exact .of_storeFrom h (by simp) rfl rfl rfl rfl
  | swr rt rs imm => exact .of_storeFrom h (by simp) rfl rfl rfl rfl
  | add | sub | addi => exact .of_writeExact h rfl rfl rfl rfl
  | addu | subu | and | or | xor | nor | slt | sltu | addiu | slti | sltiu | andi | ori | xori | lui
  | sll | srl | sra | sllv | srlv | srav => exact .of_writeReg h rfl rfl rfl rfl
  | mult | multu | mthi | mtlo =>
    obtain ⟨ha, h⟩ := (unlessHazard_eq_next ..).mp h
    cases h
    exact .hiLo _ _ rfl rfl rfl rfl ha
  | div rs rt | divu rs rt =>
    obtain ⟨ha, h⟩ := (unlessHazard_eq_next ..).mp h
    split at h <;> cases h
    · exact .drawn rfl rfl rfl rfl ha
    · exact .hiLo _ _ rfl rfl rfl rfl ha
  | mfhi | mflo => cases h; exact .moved _ _ rfl rfl rfl rfl
  | j | jr =>
    obtain ⟨hb, h⟩ := (unlessDelaySlot_eq_next ..).mp h
    cases h
    exact .noLink s _ rfl rfl rfl rfl hb
  | jal =>
    obtain ⟨hb, h⟩ := (unlessDelaySlot_eq_next ..).mp h
    cases h
    exact .jumped _ _ _ rfl rfl rfl rfl hb
  | jalr rd rs =>
    obtain ⟨hb, h⟩ := (unlessDelaySlot_eq_next ..).mp h
    split at h <;> cases h
    exact .jumped _ _ _ rfl rfl rfl rfl hb
  | syscall | brk => exact .of_raise h rfl rfl rfl
  | tge | tgeu | tlt | tltu | teq | tne | tgei | tgeiu | tlti | tltiu | teqi | tnei =>
    exact .of_trapIf h rfl rfl rfl rfl

/-- Only a running machine steps; and then it either faults at the fetch, or runs the instruction
its word decodes to. -/
theorem step_cases {s t : State} (h : step s = .next t) :
    s.outcome = .running ∧
      ((alignedTo 4 s.pc = false ∧
          t = { s with outcome := .fault ⟨.addressError .fetch s.pc, s.pc, s.bd⟩ }) ∨
       ∃ w i, fetch s = .ok w ∧ decode w = .ok i ∧ exec i s = .next t) := by
  unfold step at h
  split at h
  · cases h
  · cases h
  · next ho =>
    refine ⟨ho, ?_⟩
    split at h
    · next a hf => exact .inl (fetch_error_next s t (by rw [hf, h]))
    · next w hf =>
      split at h
      · cases h
      · next i hd => exact .inr ⟨w, i, hf, hd, h⟩

/-- A running machine whose word decodes runs the instruction. -/
theorem step_of_decode {s : State} {w : Word} {i : Instr} (ho : s.outcome = .running)
    (hf : fetch s = .ok w) (hd : decode w = .ok i) : step s = exec i s := by
  simp [step, ho, hf, hd]

/-- Everything an instruction can be refused for (R149, R150, R204). -/
theorem exec_refused {i : Instr} {s : State} {w : Refusal} (h : exec i s = .refused w) :
    (isJump i = true ∧ s.bd = true ∧ w = .jumpInDelaySlot) ∨
    (isJump i = true ∧ s.bd = false ∧ w = .jalrSameRegister ∧ ∃ r, i = .jalr r r) ∨
    (writesHiLo i = true ∧ s.hiloAge < s.hazardDistance ∧ w = .hiLoHazard) := by
  cases i with
  | lb | lbu | lwl | lwr => exact (loadInto_ne_refused _ _ _ _ _ _ h).elim
  | sb | swl | swr => exact (storeFrom_ne_refused _ _ _ _ h).elim
  | lh rt rs imm | lhu rt rs imm | lw rt rs imm =>
    simp only [exec, execLh, execLhu, execLw] at h
    split at h
    · exact (loadInto_ne_refused _ _ _ _ _ _ h).elim
    · exact (raise_ne_refused _ _ _ h).elim
  | sh rt rs imm | sw rt rs imm =>
    simp only [exec, execSh, execSw] at h
    split at h
    · exact (storeFrom_ne_refused _ _ _ _ h).elim
    · exact (raise_ne_refused _ _ _ h).elim
  | add | sub | addi => exact (writeExact_ne_refused _ _ _ _ h).elim
  | tge | tgeu | tlt | tltu | teq | tne | tgei | tgeiu | tlti | tltiu | teqi | tnei => exact
    (trapIf_ne_refused _ _ _ _ h).elim
  | syscall | brk => exact (raise_ne_refused _ _ _ h).elim
  | j | jal | jr =>
    simp only [exec, execJ, execJal, execJr, unlessDelaySlot] at h
    split at h <;> cases h
    exact .inl ⟨rfl, by assumption, rfl⟩
  | jalr rd rs =>
    simp only [exec, execJalr, unlessDelaySlot] at h
    split at h
    · cases h; exact .inl ⟨rfl, by assumption, rfl⟩
    · split at h <;> cases h
      next hb e => subst e; exact .inr (.inl ⟨rfl, by simpa using hb, rfl, _, rfl⟩)
  | mult | multu | mthi | mtlo =>
    simp only [exec, execMult, execMultu, execMthi, execMtlo, unlessHazard] at h
    split at h <;> cases h
    exact .inr (.inr ⟨rfl, by assumption, rfl⟩)
  | div | divu =>
    simp only [exec, execDiv, execDivu, unlessHazard] at h
    split at h
    · cases h; exact .inr (.inr ⟨rfl, by assumption, rfl⟩)
    · split at h <;> cases h
  | _ => cases h

/-- A run of `n + 1` steps that answers a state is a step and a run of `n`. -/
theorem run_succ_next (M : Host.Core) (n : Nat) (s t : M.State) :
    M.run (n + 1) s = .next t ↔ ∃ u, M.step s = .next u ∧ M.run n u = .next t := by
  simp only [Host.Core.run]
  cases M.step s <;> simp

theorem core_run_succ_next (n : Nat) (s t : State) :
    core.run (n + 1) s = .next t ↔ ∃ u, step s = .next u ∧ core.run n u = .next t :=
  run_succ_next core n s t

end Sys2Proof.Machine
end

