-- ==== Sys2Proof/Tests/Slice0.lean ====
section
/-! SUPPORT. Our own tests. Expected results are those of spec/95_test_vectors.md (its tables are named),
none is the model's own answer. Then the witnesses: for every statement with hypotheses, a concrete state
and operands that meet them, one for each clause. -/

set_option Elab.async false -- one theorem at a time: many at once exceed the memory limit of the check

namespace Sys2Proof.Tests

open Sys2Proof.Machine

/-! ## The well-formedness check -/

theorem test_jalr_same_register_ill_formed : Instr.wellFormed (.jalr 9 9) = false := by decide
theorem test_jalr_zero_ill_formed : Instr.wellFormed (.jalr 0 0) = false := by decide
theorem test_jalr_well_formed : Instr.wellFormed (.jalr 10 9) = true := by decide

/-! ## Decoding: Table 2.9, one word per instruction, its bits written out -/

/-- `LB r2, 3(r4)` -/
theorem test_decode_lb : decode 0b10000000100000100000000000000011#32 = .ok (.lb 2 4 0x3#16) := by decide
/-- `LBU r2, 3(r4)` -/
theorem test_decode_lbu : decode 0b10010000100000100000000000000011#32 = .ok (.lbu 2 4 0x3#16) := by decide
/-- `LH r2, 2(r4)` -/
theorem test_decode_lh : decode 0b10000100100000100000000000000010#32 = .ok (.lh 2 4 0x2#16) := by decide
/-- `LHU r2, 2(r4)` -/
theorem test_decode_lhu : decode 0b10010100100000100000000000000010#32 = .ok (.lhu 2 4 0x2#16) := by decide
/-- `LW r2, 4(r4)` -/
theorem test_decode_lw : decode 0b10001100100000100000000000000100#32 = .ok (.lw 2 4 0x4#16) := by decide
/-- `LWL r2, 3(r4)` -/
theorem test_decode_lwl : decode 0b10001000100000100000000000000011#32 = .ok (.lwl 2 4 0x3#16) := by decide
/-- `LWR r2, 0(r4)` -/
theorem test_decode_lwr : decode 0b10011000100000100000000000000000#32 = .ok (.lwr 2 4 0x0#16) := by decide
/-- `SB r3, 1(r4)` -/
theorem test_decode_sb : decode 0b10100000100000110000000000000001#32 = .ok (.sb 3 4 0x1#16) := by decide
/-- `SH r3, 2(r4)` -/
theorem test_decode_sh : decode 0b10100100100000110000000000000010#32 = .ok (.sh 3 4 0x2#16) := by decide
/-- `SW r3, 4(r4)` -/
theorem test_decode_sw : decode 0b10101100100000110000000000000100#32 = .ok (.sw 3 4 0x4#16) := by decide
/-- `SWL r3, 3(r4)` -/
theorem test_decode_swl : decode 0b10101000100000110000000000000011#32 = .ok (.swl 3 4 0x3#16) := by decide
/-- `SWR r3, 0(r4)` -/
theorem test_decode_swr : decode 0b10111000100000110000000000000000#32 = .ok (.swr 3 4 0x0#16) := by decide
/-- `ADD r2, r9, r10` -/
theorem test_decode_add : decode 0b00000001001010100001000000100000#32 = .ok (.add 2 9 10) := by decide
/-- `ADDU r2, r5, r6` -/
theorem test_decode_addu : decode 0b00000000101001100001000000100001#32 = .ok (.addu 2 5 6) := by decide
/-- `SUB r2, r9, r10` -/
theorem test_decode_sub : decode 0b00000001001010100001000000100010#32 = .ok (.sub 2 9 10) := by decide
/-- `SUBU r2, r7, r6` -/
theorem test_decode_subu : decode 0b00000000111001100001000000100011#32 = .ok (.subu 2 7 6) := by decide
/-- `AND r2, r9, r10` -/
theorem test_decode_and : decode 0b00000001001010100001000000100100#32 = .ok (.and 2 9 10) := by decide
/-- `OR r2, r9, r10` -/
theorem test_decode_or : decode 0b00000001001010100001000000100101#32 = .ok (.or 2 9 10) := by decide
/-- `XOR r2, r9, r10` -/
theorem test_decode_xor : decode 0b00000001001010100001000000100110#32 = .ok (.xor 2 9 10) := by decide
/-- `NOR r2, r9, r10` -/
theorem test_decode_nor : decode 0b00000001001010100001000000100111#32 = .ok (.nor 2 9 10) := by decide
/-- `SLT r2, r8, r6` -/
theorem test_decode_slt : decode 0b00000001000001100001000000101010#32 = .ok (.slt 2 8 6) := by decide
/-- `SLTU r2, r8, r6` -/
theorem test_decode_sltu : decode 0b00000001000001100001000000101011#32 = .ok (.sltu 2 8 6) := by decide
/-- `ADDI r2, r5, 0x11` -/
theorem test_decode_addi : decode 0b00100000101000100000000000010001#32 = .ok (.addi 2 5 0x11#16) := by decide
/-- `ADDIU r2, r5, 1` -/
theorem test_decode_addiu : decode 0b00100100101000100000000000000001#32 = .ok (.addiu 2 5 0x1#16) := by decide
/-- `SLTI r2, r8, 0` -/
theorem test_decode_slti : decode 0b00101001000000100000000000000000#32 = .ok (.slti 2 8 0x0#16) := by decide
/-- `SLTIU r2, r6, 0xFFFF` -/
theorem test_decode_sltiu : decode 0b00101100110000101111111111111111#32 = .ok (.sltiu 2 6 0xFFFF#16) := by decide
/-- `ANDI r2, r9, 0xFF00` -/
theorem test_decode_andi : decode 0b00110001001000101111111100000000#32 = .ok (.andi 2 9 0xFF00#16) := by decide
/-- `ORI r2, r9, 0x8001` -/
theorem test_decode_ori : decode 0b00110101001000101000000000000001#32 = .ok (.ori 2 9 0x8001#16) := by decide
/-- `XORI r2, r9, 0xFFFF` -/
theorem test_decode_xori : decode 0b00111001001000101111111111111111#32 = .ok (.xori 2 9 0xFFFF#16) := by decide
/-- `LUI r2, 0x8001` -/
theorem test_decode_lui : decode 0b00111100000000101000000000000001#32 = .ok (.lui 2 0x8001#16) := by decide
/-- `SLL r2, r9, 4` -/
theorem test_decode_sll : decode 0b00000000000010010001000100000000#32 = .ok (.sll 2 9 0x4#5) := by decide
/-- `SRL r2, r9, 4` -/
theorem test_decode_srl : decode 0b00000000000010010001000100000010#32 = .ok (.srl 2 9 0x4#5) := by decide
/-- `SRA r2, r9, 4` -/
theorem test_decode_sra : decode 0b00000000000010010001000100000011#32 = .ok (.sra 2 9 0x4#5) := by decide
/-- `SLLV r2, r9, r11` -/
theorem test_decode_sllv : decode 0b00000001011010010001000000000100#32 = .ok (.sllv 2 9 11) := by decide
/-- `SRLV r2, r9, r11` -/
theorem test_decode_srlv : decode 0b00000001011010010001000000000110#32 = .ok (.srlv 2 9 11) := by decide
/-- `SRAV r2, r9, r11` -/
theorem test_decode_srav : decode 0b00000001011010010001000000000111#32 = .ok (.srav 2 9 11) := by decide
/-- `MULT r4, r5` -/
theorem test_decode_mult : decode 0b00000000100001010000000000011000#32 = .ok (.mult 4 5) := by decide
/-- `MULTU r4, r5` -/
theorem test_decode_multu : decode 0b00000000100001010000000000011001#32 = .ok (.multu 4 5) := by decide
/-- `DIV r4, r6` -/
theorem test_decode_div : decode 0b00000000100001100000000000011010#32 = .ok (.div 4 6) := by decide
/-- `DIVU r8, r4` -/
theorem test_decode_divu : decode 0b00000001000001000000000000011011#32 = .ok (.divu 8 4) := by decide
/-- `MFHI r2` -/
theorem test_decode_mfhi : decode 0b00000000000000000001000000010000#32 = .ok (.mfhi 2) := by decide
/-- `MTHI r9` -/
theorem test_decode_mthi : decode 0b00000001001000000000000000010001#32 = .ok (.mthi 9) := by decide
/-- `MFLO r2` -/
theorem test_decode_mflo : decode 0b00000000000000000001000000010010#32 = .ok (.mflo 2) := by decide
/-- `MTLO r9` -/
theorem test_decode_mtlo : decode 0b00000001001000000000000000010011#32 = .ok (.mtlo 9) := by decide
/-- `J 0x00001020` -/
theorem test_decode_j : decode 0b00001000000000000000010000001000#32 = .ok (.j 0x408#26) := by decide
/-- `JAL 0x00001020` -/
theorem test_decode_jal : decode 0b00001100000000000000010000001000#32 = .ok (.jal 0x408#26) := by decide
/-- `JR r31` -/
theorem test_decode_jr : decode 0b00000011111000000000000000001000#32 = .ok (.jr 31) := by decide
/-- `JALR r31, r9` -/
theorem test_decode_jalr : decode 0b00000001001000001111100000001001#32 = .ok (.jalr 31 9) := by decide
/-- `SYSCALL` -/
theorem test_decode_syscall : decode 0b00000000000000000000000000001100#32 = .ok (.syscall 0x0#20) := by decide
/-- `BREAK` -/
theorem test_decode_brk : decode 0b00000000000000000000000000001101#32 = .ok (.brk 0x0#20) := by decide
/-- `TGE r4, r5` -/
theorem test_decode_tge : decode 0b00000000100001010000000000110000#32 = .ok (.tge 4 5 0x0#10) := by decide
/-- `TGEU r4, r5` -/
theorem test_decode_tgeu : decode 0b00000000100001010000000000110001#32 = .ok (.tgeu 4 5 0x0#10) := by decide
/-- `TLT r5, r4` -/
theorem test_decode_tlt : decode 0b00000000101001000000000000110010#32 = .ok (.tlt 5 4 0x0#10) := by decide
/-- `TLTU r4, r5` -/
theorem test_decode_tltu : decode 0b00000000100001010000000000110011#32 = .ok (.tltu 4 5 0x0#10) := by decide
/-- `TEQ r4, r6` -/
theorem test_decode_teq : decode 0b00000000100001100000000000110100#32 = .ok (.teq 4 6 0x0#10) := by decide
/-- `TNE r4, r5` -/
theorem test_decode_tne : decode 0b00000000100001010000000000110110#32 = .ok (.tne 4 5 0x0#10) := by decide
/-- `TGEI r4, 7` -/
theorem test_decode_tgei : decode 0b00000100100010000000000000000111#32 = .ok (.tgei 4 0x7#16) := by decide
/-- `TGEIU r4, 0xFFFF` -/
theorem test_decode_tgeiu : decode 0b00000100100010011111111111111111#32 = .ok (.tgeiu 4 0xFFFF#16) := by decide
/-- `TLTI r5, 0` -/
theorem test_decode_tlti : decode 0b00000100101010100000000000000000#32 = .ok (.tlti 5 0x0#16) := by decide
/-- `TLTIU r4, 0xFFFF` -/
theorem test_decode_tltiu : decode 0b00000100100010111111111111111111#32 = .ok (.tltiu 4 0xFFFF#16) := by decide
/-- `TEQI r4, 7` -/
theorem test_decode_teqi : decode 0b00000100100011000000000000000111#32 = .ok (.teqi 4 0x7#16) := by decide
/-- `TNEI r4, 8` -/
theorem test_decode_tnei : decode 0b00000100100011100000000000001000#32 = .ok (.tnei 4 0x8#16) := by decide

/-! Words of Tables 2.8a and 2.8b: no row, or a must-be-zero field that is not zero. -/

theorem test_decode_beq : decode 0x10000000#32 = .error (.notInSpec 0x10000000#32) := by decide
theorem test_decode_regimm_gap : decode 0x048D0007#32 = .error (.notInSpec 0x048D0007#32) := by decide
theorem test_decode_funct_gap : decode 0x00850035#32 = .error (.notInSpec 0x00850035#32) := by decide
theorem test_decode_sll_rs : decode 0x00291100#32 = .error (.notInSpec 0x00291100#32) := by decide
theorem test_decode_jr_hint : decode 0x01200408#32 = .error (.notInSpec 0x01200408#32) := by decide
theorem test_decode_lui_rs : decode 0x3C228001#32 = .error (.notInSpec 0x3C228001#32) := by decide

/-- The bytes of `ADDI r2, r5, 0x11` as they stand in memory (section 1). -/
theorem test_decode_bytes : decodeBytes 0x11#8 0x00#8 0xA2#8 0x20#8 = .ok (.addi 2 5 0x11#16) := by decide
theorem test_table_word : decodeTableWord 32 0x20A20011 = some (.addi 2 5 0x11#16) := by decide

/-! ## The states the tests start from (section "How the vectors were made") -/

/-- 0x1000 to 0x2FFF is mapped, code starts at 0x1000, distance 2. -/
def params : Params := ⟨[⟨0x1000, 0x2000⟩], 0x00001000#32, .two⟩

/-- The bytes 01 7F FF 80 DD CC BB AA from 0x2000 on. -/
def data : List Host.Cell := [(0x2000, 0x01#8), (0x2001, 0x7F#8), (0x2002, 0xFF#8), (0x2003, 0x80#8),
  (0x2004, 0xDD#8), (0x2005, 0xCC#8), (0x2006, 0xBB#8), (0x2007, 0xAA#8)]

def start : State := State.launch
  { params := params, image := data, regs := Vector.replicate 32 0#32, hi := 0xDEADBEEF#32,
    lo := 0x01020304#32, draws := 0 }

/-- `start` with some registers set. -/
def withRegs (rs : List (Reg × Word)) : State := rs.foldl (fun s p => s.writeReg p.1 p.2) start

/-- One step of the word `w` at 0x1000. -/
def stepOf (w : Nat) (rs : List (Reg × Word)) : Answer := step ((withRegs rs).withFetchWord 32 w)

def regAfter (a : Answer) (r : Reg) : Option Word :=
  match a with
  | .next t => some (t.readReg r)
  | _ => none

def hiLoAfter (a : Answer) : Option (Word × Word) :=
  match a with
  | .next t => some (t.hi, t.lo)
  | _ => none

def bytesAfter (a : Answer) (addr : Word) (n : Nat) : Option (List Byte) :=
  match a with
  | .next t => some (t.bytesAt addr n)
  | _ => none

def dirtyAfter (a : Answer) : Option (List Nat) :=
  match a with
  | .next t => some t.dirty
  | _ => none

def outcomeAfter (a : Answer) : Option RunOutcome :=
  match a with
  | .next t => some t.outcome
  | _ => none

/-- `pc`, `npc` and `bd` after the step. -/
def sequenceAfter (a : Answer) : Option (Word × Word × Bool) :=
  match a with
  | .next t => some (t.pc, t.npc, t.bd)
  | _ => none

def refusalOf (a : Answer) : Option Refusal :=
  match a with
  | .refused r => some r
  | _ => none

def faultOf (a : Answer) : Option Fault :=
  match a with
  | .fault f => some f
  | _ => none

/-- The outcome of an exception of the instruction at 0x1000, outside a delay slot. -/
def raised (c : Cause) : Option RunOutcome := some (.fault ⟨c, 0x00001000#32, false⟩)

/-! ## One step of each instruction: Tables 2.1 to 2.8 -/

def dataRegs : List (Reg × Word) := [(2, 0x11223344#32), (3, 0xA1B2C3D4#32), (4, 0x00002000#32),
  (5, 0x00002004#32)]
def pairRegs : List (Reg × Word) := [(2, 0x11223344#32), (3, 0xA1B2C3D4#32), (4, 0x00002004#32)]
def arithRegs : List (Reg × Word) := [(2, 0x55#32), (5, 0x7FFFFFFF#32), (6, 1#32), (7, 0x80000000#32),
  (8, 0xFFFFFFFF#32), (9, 0x12345678#32), (10, 0x0F0F0F0F#32)]

def shiftRegs : List (Reg × Word) := [(2, 0x55#32), (9, 0x80000001#32), (10, 0xF0000000#32), (11,
  0x21#32), (12, 0x1F#32), (13, 0x0#32), (14, 0x20#32)]
def mulRegs : List (Reg × Word) := [(2, 0x55#32), (4, 0x7#32), (5, 0xFFFFFFFD#32), (6, 0x2#32), (7,
  0x80000000#32), (8, 0xFFFFFFFF#32), (9, 0x12345678#32), (10, 0x10000#32), (11, 0xFFFFFFF9#32),
  (12, 0xFFFFFFFE#32)]
def trapRegs : List (Reg × Word) := [(4, 0x7#32), (5, 0xFFFFFFFD#32), (6, 0x7#32), (7,
  0x80000000#32), (8, 0xFFFFFFFF#32)]

/-- Table 2.1a: `LB r2, 3(r4)` -/
theorem test_lb_1 : regAfter (stepOf 0x80820003 dataRegs) 2 = some 0xFFFFFF80#32 := by decide
/-- Table 2.1a: `LB r2, -1(r5)` -/
theorem test_lb_2 : regAfter (stepOf 0x80A2FFFF dataRegs) 2 = some 0xFFFFFF80#32 := by decide
/-- Table 2.1a: `LBU r2, 3(r4)` -/
theorem test_lbu_1 : regAfter (stepOf 0x90820003 dataRegs) 2 = some 0x00000080#32 := by decide
/-- Table 2.1a: `LH r2, 2(r4)` -/
theorem test_lh_1 : regAfter (stepOf 0x84820002 dataRegs) 2 = some 0xFFFF80FF#32 := by decide
/-- Table 2.1a: `LH r2, 1(r4)` -/
theorem test_lh_2 : outcomeAfter (stepOf 0x84820001 dataRegs) = raised (.addressError .load
  0x00002001#32) := by decide
/-- Table 2.1a: `LHU r2, 2(r4)` -/
theorem test_lhu_1 : regAfter (stepOf 0x94820002 dataRegs) 2 = some 0x000080FF#32 := by decide
/-- Table 2.1a: `LHU r2, 3(r4)` -/
theorem test_lhu_2 : outcomeAfter (stepOf 0x94820003 dataRegs) = raised (.addressError .load
  0x00002003#32) := by decide
/-- Table 2.1a: `LW r4, 4(r4)` -/
theorem test_lw_1 : regAfter (stepOf 0x8C840004 dataRegs) 4 = some 0xAABBCCDD#32 := by decide
/-- Table 2.1a: `LW r2, 2(r4)` -/
theorem test_lw_2 : outcomeAfter (stepOf 0x8C820002 dataRegs) = raised (.addressError .load
  0x00002002#32) := by decide
/-- Table 2.1b: `LWL r2, 1(r4)` -/
theorem test_lwl_1 : regAfter (stepOf 0x88820001 pairRegs) 2 = some 0xCCDD3344#32 := by decide
/-- Table 2.1b: `LWL r2, 2(r4)` -/
theorem test_lwl_2 : regAfter (stepOf 0x88820002 pairRegs) 2 = some 0xBBCCDD44#32 := by decide
/-- Table 2.1b: `LWR r2, 1(r4)` -/
theorem test_lwr_1 : regAfter (stepOf 0x98820001 pairRegs) 2 = some 0x11AABBCC#32 := by decide
/-- Table 2.1b: `LWR r2, 2(r4)` -/
theorem test_lwr_2 : regAfter (stepOf 0x98820002 pairRegs) 2 = some 0x1122AABB#32 := by decide
/-- Table 2.1c: `SB r3, 1(r4)` -/
theorem test_sb_1 : bytesAfter (stepOf 0xA0830001 dataRegs) 0x00002000#32 8 = some [0x01#8, 0xD4#8,
  0xFF#8, 0x80#8, 0xDD#8, 0xCC#8, 0xBB#8, 0xAA#8] := by decide
/-- Table 2.1c: `SH r3, 2(r4)` -/
theorem test_sh_1 : bytesAfter (stepOf 0xA4830002 dataRegs) 0x00002000#32 8 = some [0x01#8, 0x7F#8,
  0xD4#8, 0xC3#8, 0xDD#8, 0xCC#8, 0xBB#8, 0xAA#8] := by decide
/-- Table 2.1c: `SH r3, 3(r4)` -/
theorem test_sh_2 : outcomeAfter (stepOf 0xA4830003 dataRegs) = raised (.addressError .store
  0x00002003#32) := by decide
/-- Table 2.1c: `SW r3, 4(r4)` -/
theorem test_sw_1 : bytesAfter (stepOf 0xAC830004 dataRegs) 0x00002000#32 8 = some [0x01#8, 0x7F#8,
  0xFF#8, 0x80#8, 0xD4#8, 0xC3#8, 0xB2#8, 0xA1#8] := by decide
/-- Table 2.1c: `SW r3, 1(r4)` -/
theorem test_sw_2 : outcomeAfter (stepOf 0xAC830001 dataRegs) = raised (.addressError .store
  0x00002001#32) := by decide
/-- Table 2.1c: `SWL r3, 1(r4)` -/
theorem test_swl_1 : bytesAfter (stepOf 0xA8830001 pairRegs) 0x00002000#32 8 = some [0x01#8, 0x7F#8,
  0xFF#8, 0x80#8, 0xB2#8, 0xA1#8, 0xBB#8, 0xAA#8] := by decide
/-- Table 2.1c: `SWL r3, 2(r4)` -/
theorem test_swl_2 : bytesAfter (stepOf 0xA8830002 pairRegs) 0x00002000#32 8 = some [0x01#8, 0x7F#8,
  0xFF#8, 0x80#8, 0xC3#8, 0xB2#8, 0xA1#8, 0xAA#8] := by decide
/-- Table 2.1c: `SWR r3, 1(r4)` -/
theorem test_swr_1 : bytesAfter (stepOf 0xB8830001 pairRegs) 0x00002000#32 8 = some [0x01#8, 0x7F#8,
  0xFF#8, 0x80#8, 0xDD#8, 0xD4#8, 0xC3#8, 0xB2#8] := by decide
/-- Table 2.1c: `SWR r3, 2(r4)` -/
theorem test_swr_2 : bytesAfter (stepOf 0xB8830002 pairRegs) 0x00002000#32 8 = some [0x01#8, 0x7F#8,
  0xFF#8, 0x80#8, 0xDD#8, 0xCC#8, 0xD4#8, 0xC3#8] := by decide
/-- Table 2.2a: `ADD r2, r5, r7` -/
theorem test_add_1 : regAfter (stepOf 0x00A71020 arithRegs) 2 = some 0xFFFFFFFF#32 := by decide
/-- Table 2.2a: `ADD r0, r5, r6` -/
theorem test_add_2 : outcomeAfter (stepOf 0x00A60020 arithRegs) = raised (.integerOverflow) := by
  decide
/-- Table 2.2a: `ADDU r2, r8, r8` -/
theorem test_addu_1 : regAfter (stepOf 0x01081021 arithRegs) 2 = some 0xFFFFFFFE#32 := by decide
/-- Table 2.2a: `ADDU r9, r9, r9` -/
theorem test_addu_2 : regAfter (stepOf 0x01294821 arithRegs) 9 = some 0x2468ACF0#32 := by decide
/-- Table 2.2a: `SUB r2, r9, r10` -/
theorem test_sub_1 : regAfter (stepOf 0x012A1022 arithRegs) 2 = some 0x03254769#32 := by decide
/-- Table 2.2a: `SUB r2, r0, r7` -/
theorem test_sub_2 : outcomeAfter (stepOf 0x00071022 arithRegs) = raised (.integerOverflow) := by
  decide
/-- Table 2.2a: `SUBU r2, r0, r6` -/
theorem test_subu_1 : regAfter (stepOf 0x00061023 arithRegs) 2 = some 0xFFFFFFFF#32 := by decide
/-- Table 2.2a: `SUBU r2, r7, r6` -/
theorem test_subu_2 : regAfter (stepOf 0x00E61023 arithRegs) 2 = some 0x7FFFFFFF#32 := by decide
/-- Table 2.2a: `AND r2, r9, r10` -/
theorem test_and_1 : regAfter (stepOf 0x012A1024 arithRegs) 2 = some 0x02040608#32 := by decide
/-- Table 2.2a: `OR r2, r9, r10` -/
theorem test_or_1 : regAfter (stepOf 0x012A1025 arithRegs) 2 = some 0x1F3F5F7F#32 := by decide
/-- Table 2.2a: `XOR r2, r9, r10` -/
theorem test_xor_1 : regAfter (stepOf 0x012A1026 arithRegs) 2 = some 0x1D3B5977#32 := by decide
/-- Table 2.2a: `NOR r2, r9, r10` -/
theorem test_nor_1 : regAfter (stepOf 0x012A1027 arithRegs) 2 = some 0xE0C0A080#32 := by decide
/-- Table 2.2a: `SLT r2, r8, r6` -/
theorem test_slt_1 : regAfter (stepOf 0x0106102A arithRegs) 2 = some 0x00000001#32 := by decide
/-- Table 2.2a: `SLT r2, r6, r8` -/
theorem test_slt_2 : regAfter (stepOf 0x00C8102A arithRegs) 2 = some 0x00000000#32 := by decide
/-- Table 2.2a: `SLTU r2, r8, r6` -/
theorem test_sltu_1 : regAfter (stepOf 0x0106102B arithRegs) 2 = some 0x00000000#32 := by decide
/-- Table 2.2a: `SLTU r2, r6, r8` -/
theorem test_sltu_2 : regAfter (stepOf 0x00C8102B arithRegs) 2 = some 0x00000001#32 := by decide
/-- Table 2.2b: `ADDI r2, r0, -32768` -/
theorem test_addi_1 : regAfter (stepOf 0x20028000 arithRegs) 2 = some 0xFFFF8000#32 := by decide
/-- Table 2.2b: `ADDI r0, r5, 1` -/
theorem test_addi_2 : outcomeAfter (stepOf 0x20A00001 arithRegs) = raised (.integerOverflow) := by
  decide
/-- Table 2.2b: `ADDIU r2, r0, 0x8000` -/
theorem test_addiu_1 : regAfter (stepOf 0x24028000 arithRegs) 2 = some 0xFFFF8000#32 := by decide
/-- Table 2.2b: `ADDIU r2, r8, 1` -/
theorem test_addiu_2 : regAfter (stepOf 0x25020001 arithRegs) 2 = some 0x00000000#32 := by decide
/-- Table 2.2b: `SLTI r2, r8, 0` -/
theorem test_slti_1 : regAfter (stepOf 0x29020000 arithRegs) 2 = some 0x00000001#32 := by decide
/-- Table 2.2b: `SLTI r2, r6, -1` -/
theorem test_slti_2 : regAfter (stepOf 0x28C2FFFF arithRegs) 2 = some 0x00000000#32 := by decide
/-- Table 2.2b: `SLTIU r2, r6, 0xFFFF` -/
theorem test_sltiu_1 : regAfter (stepOf 0x2CC2FFFF arithRegs) 2 = some 0x00000001#32 := by decide
/-- Table 2.2b: `SLTIU r2, r5, 0x8000` -/
theorem test_sltiu_2 : regAfter (stepOf 0x2CA28000 arithRegs) 2 = some 0x00000001#32 := by decide
/-- Table 2.2b: `ANDI r2, r9, 0xFF00` -/
theorem test_andi_1 : regAfter (stepOf 0x3122FF00 arithRegs) 2 = some 0x00005600#32 := by decide
/-- Table 2.2b: `ANDI r2, r8, 0xFFFF` -/
theorem test_andi_2 : regAfter (stepOf 0x3102FFFF arithRegs) 2 = some 0x0000FFFF#32 := by decide
/-- Table 2.2b: `ORI r2, r9, 0x8001` -/
theorem test_ori_1 : regAfter (stepOf 0x35228001 arithRegs) 2 = some 0x1234D679#32 := by decide
/-- Table 2.2b: `XORI r2, r8, 0xFFFF` -/
theorem test_xori_1 : regAfter (stepOf 0x3902FFFF arithRegs) 2 = some 0xFFFF0000#32 := by decide
/-- Table 2.2b: `LUI r2, 0x8001` -/
theorem test_lui_1 : regAfter (stepOf 0x3C028001 arithRegs) 2 = some 0x80010000#32 := by decide
/-- Table 2.3: `SLLV r2, r9, r13` -/
theorem test_sllv_1 : regAfter (stepOf 0x01A91004 shiftRegs) 2 = some 0x80000001#32 := by decide
/-- Table 2.3: `SLLV r2, r9, r11` -/
theorem test_sllv_2 : regAfter (stepOf 0x01691004 shiftRegs) 2 = some 0x00000002#32 := by decide
/-- Table 2.3: `SRLV r2, r9, r13` -/
theorem test_srlv_1 : regAfter (stepOf 0x01A91006 shiftRegs) 2 = some 0x80000001#32 := by decide
/-- Table 2.3: `SRLV r2, r9, r12` -/
theorem test_srlv_2 : regAfter (stepOf 0x01891006 shiftRegs) 2 = some 0x00000001#32 := by decide
/-- Table 2.3: `SRAV r2, r9, r14` -/
theorem test_srav_1 : regAfter (stepOf 0x01C91007 shiftRegs) 2 = some 0x80000001#32 := by decide
/-- Table 2.3: `SRAV r2, r10, r12` -/
theorem test_srav_2 : regAfter (stepOf 0x018A1007 shiftRegs) 2 = some 0xFFFFFFFF#32 := by decide
/-- Table 2.4a: `MULT r4, r5` -/
theorem test_mult_1 : hiLoAfter (stepOf 0x00850018 mulRegs) = some (0xFFFFFFFF#32, 0xFFFFFFEB#32) :=
  by decide
/-- Table 2.4a: `MULT r7, r8` -/
theorem test_mult_2 : hiLoAfter (stepOf 0x00E80018 mulRegs) = some (0x00000000#32, 0x80000000#32) :=
  by decide
/-- Table 2.4a: `MULTU r4, r5` -/
theorem test_multu_1 : hiLoAfter (stepOf 0x00850019 mulRegs) = some (0x00000006#32, 0xFFFFFFEB#32)
  := by decide
/-- Table 2.4a: `MULTU r8, r8` -/
theorem test_multu_2 : hiLoAfter (stepOf 0x01080019 mulRegs) = some (0xFFFFFFFE#32, 0x00000001#32)
  := by decide
/-- Table 2.4a: `DIV r11, r6` -/
theorem test_div_1 : hiLoAfter (stepOf 0x0166001A mulRegs) = some (0xFFFFFFFF#32, 0xFFFFFFFD#32) :=
  by decide
/-- Table 2.4a: `DIV r4, r12` -/
theorem test_div_2 : hiLoAfter (stepOf 0x008C001A mulRegs) = some (0x00000001#32, 0xFFFFFFFD#32) :=
  by decide
/-- Table 2.4a: `DIVU r11, r6` -/
theorem test_divu_1 : hiLoAfter (stepOf 0x0166001B mulRegs) = some (0x00000001#32, 0x7FFFFFFC#32) :=
  by decide
/-- Table 2.4a: `DIVU r7, r8` -/
theorem test_divu_2 : hiLoAfter (stepOf 0x00E8001B mulRegs) = some (0x80000000#32, 0x00000000#32) :=
  by decide
/-- Table 2.4a: `MFHI r2` -/
theorem test_mfhi_1 : regAfter (stepOf 0x00001010 mulRegs) 2 = some 0xDEADBEEF#32 := by decide
/-- Table 2.4a: `MFHI r0` -/
theorem test_mfhi_2 : sequenceAfter (stepOf 0x00000010 mulRegs) = some (0x00001004#32,
  0x00001008#32, false) := by decide
/-- Table 2.4a: `MFLO r2` -/
theorem test_mflo_1 : regAfter (stepOf 0x00001012 mulRegs) 2 = some 0x01020304#32 := by decide
/-- Table 2.4a: `MTHI r9` -/
theorem test_mthi_1 : hiLoAfter (stepOf 0x01200011 mulRegs) = some (0x12345678#32, 0x01020304#32) :=
  by decide
/-- Table 2.4a: `MTLO r9` -/
theorem test_mtlo_1 : hiLoAfter (stepOf 0x01200013 mulRegs) = some (0xDEADBEEF#32, 0x12345678#32) :=
  by decide
/-- Table 2.6: `SYSCALL 0x12345` -/
theorem test_syscall_1 : outcomeAfter (stepOf 0x0048D14C []) = raised (.systemCall 0x12345#20) := by
  decide
/-- Table 2.6: `SYSCALL` -/
theorem test_syscall_2 : outcomeAfter (stepOf 0x0000000C []) = raised (.systemCall 0x0#20) := by
  decide
/-- Table 2.6: `BREAK` -/
theorem test_brk_1 : outcomeAfter (stepOf 0x0000000D []) = raised (.breakpoint 0x0#20) := by decide
/-- Table 2.6: `BREAK 0xFFFFF` -/
theorem test_brk_2 : outcomeAfter (stepOf 0x03FFFFCD []) = raised (.breakpoint 0xFFFFF#20) := by
  decide
/-- Table 2.7: `TGE r4, r6` -/
theorem test_tge_1 : outcomeAfter (stepOf 0x00860030 trapRegs) = raised (.trap (some 0x0#10)) := by
  decide
/-- Table 2.7: `TGE r5, r4` -/
theorem test_tge_2 : sequenceAfter (stepOf 0x00A40030 trapRegs) = some (0x00001004#32,
  0x00001008#32, false) := by decide
/-- Table 2.7: `TGEU r5, r4` -/
theorem test_tgeu_1 : outcomeAfter (stepOf 0x00A40031 trapRegs) = raised (.trap (some 0x0#10)) := by
  decide
/-- Table 2.7: `TGEU r4, r5` -/
theorem test_tgeu_2 : sequenceAfter (stepOf 0x00850031 trapRegs) = some (0x00001004#32,
  0x00001008#32, false) := by decide
/-- Table 2.7: `TLT r5, r4` -/
theorem test_tlt_1 : outcomeAfter (stepOf 0x00A40032 trapRegs) = raised (.trap (some 0x0#10)) := by
  decide
/-- Table 2.7: `TLT r4, r6` -/
theorem test_tlt_2 : sequenceAfter (stepOf 0x00860032 trapRegs) = some (0x00001004#32,
  0x00001008#32, false) := by decide
/-- Table 2.7: `TLTU r7, r8` -/
theorem test_tltu_1 : outcomeAfter (stepOf 0x00E80033 trapRegs) = raised (.trap (some 0x0#10)) := by
  decide
/-- Table 2.7: `TLTU r5, r4` -/
theorem test_tltu_2 : sequenceAfter (stepOf 0x00A40033 trapRegs) = some (0x00001004#32,
  0x00001008#32, false) := by decide
/-- Table 2.7: `TEQ r4, r6, 0x3FF` -/
theorem test_teq_1 : outcomeAfter (stepOf 0x0086FFF4 trapRegs) = raised (.trap (some 0x3FF#10)) :=
  by decide
/-- Table 2.7: `TEQ r4, r5` -/
theorem test_teq_2 : sequenceAfter (stepOf 0x00850034 trapRegs) = some (0x00001004#32,
  0x00001008#32, false) := by decide
/-- Table 2.7: `TNE r4, r5, 1` -/
theorem test_tne_1 : outcomeAfter (stepOf 0x00850076 trapRegs) = raised (.trap (some 0x1#10)) := by
  decide
/-- Table 2.7: `TNE r4, r6` -/
theorem test_tne_2 : sequenceAfter (stepOf 0x00860036 trapRegs) = some (0x00001004#32,
  0x00001008#32, false) := by decide
/-- Table 2.7: `TGEI r5, -3` -/
theorem test_tgei_1 : outcomeAfter (stepOf 0x04A8FFFD trapRegs) = raised (.trap none) := by decide
/-- Table 2.7: `TGEI r4, 8` -/
theorem test_tgei_2 : sequenceAfter (stepOf 0x04880008 trapRegs) = some (0x00001004#32,
  0x00001008#32, false) := by decide
/-- Table 2.7: `TGEIU r8, 0xFFFF` -/
theorem test_tgeiu_1 : outcomeAfter (stepOf 0x0509FFFF trapRegs) = raised (.trap none) := by decide
/-- Table 2.7: `TGEIU r4, 0xFFFF` -/
theorem test_tgeiu_2 : sequenceAfter (stepOf 0x0489FFFF trapRegs) = some (0x00001004#32,
  0x00001008#32, false) := by decide
/-- Table 2.7: `TLTI r7, -32767` -/
theorem test_tlti_1 : outcomeAfter (stepOf 0x04EA8001 trapRegs) = raised (.trap none) := by decide
/-- Table 2.7: `TLTI r4, 7` -/
theorem test_tlti_2 : sequenceAfter (stepOf 0x048A0007 trapRegs) = some (0x00001004#32,
  0x00001008#32, false) := by decide
/-- Table 2.7: `TLTIU r4, 0xFFFF` -/
theorem test_tltiu_1 : outcomeAfter (stepOf 0x048BFFFF trapRegs) = raised (.trap none) := by decide
/-- Table 2.7: `TLTIU r8, 0xFFFF` -/
theorem test_tltiu_2 : sequenceAfter (stepOf 0x050BFFFF trapRegs) = some (0x00001004#32,
  0x00001008#32, false) := by decide
/-- Table 2.7: `TEQI r5, -3` -/
theorem test_teqi_1 : outcomeAfter (stepOf 0x04ACFFFD trapRegs) = raised (.trap none) := by decide
/-- Table 2.7: `TEQI r4, 8` -/
theorem test_teqi_2 : sequenceAfter (stepOf 0x048C0008 trapRegs) = some (0x00001004#32,
  0x00001008#32, false) := by decide
/-- Table 2.7: `TNEI r8, 0x7FFF` -/
theorem test_tnei_1 : outcomeAfter (stepOf 0x050E7FFF trapRegs) = raised (.trap none) := by decide
/-- Table 2.7: `TNEI r8, -1` -/
theorem test_tnei_2 : sequenceAfter (stepOf 0x050EFFFF trapRegs) = some (0x00001004#32,
  0x00001008#32, false) := by decide
/-- Table 2.3: `SLL r2, r9, 1` -/
theorem test_sll_1 : regAfter (stepOf 0x00091040 shiftRegs) 2 = some 0x00000002#32 := by decide
/-- Table 2.3: `SLL r2, r9, 31` -/
theorem test_sll_2 : regAfter (stepOf 0x000917C0 shiftRegs) 2 = some 0x80000000#32 := by decide
/-- Table 2.3: `SRL r2, r9, 1` -/
theorem test_srl_1 : regAfter (stepOf 0x00091042 shiftRegs) 2 = some 0x40000000#32 := by decide
/-- Table 2.3: `SRL r2, r10, 28` -/
theorem test_srl_2 : regAfter (stepOf 0x000A1702 shiftRegs) 2 = some 0x0000000F#32 := by decide
/-- Table 2.3: `SRA r2, r9, 1` -/
theorem test_sra_1 : regAfter (stepOf 0x00091043 shiftRegs) 2 = some 0xC0000000#32 := by decide
/-- Table 2.3: `SRA r2, r10, 28` -/
theorem test_sra_2 : regAfter (stepOf 0x000A1703 shiftRegs) 2 = some 0xFFFFFFFF#32 := by decide
/-- Table 2.5a -/
theorem test_j_1 : sequenceAfter (stepOf 0x08000404 []) = some (0x00001004#32, 0x00001010#32, true) := by
  decide
/-- Table 2.5i: the region is that of the delay slot. -/
theorem test_j_2 : jumpTarget 0x0FFFFFFC#32 0x0000408#26 = 0x10001020#32 := by decide
/-- Table 2.5b -/
theorem test_jal_1 : sequenceAfter (stepOf 0x0C000404 []) = some (0x00001004#32, 0x00001010#32, true) := by
  decide
theorem test_jal_2 : regAfter (stepOf 0x0C000404 []) 31 = some 0x00001008#32 := by decide
/-- Table 2.5d: the jump itself completes. -/
theorem test_jr_1 : sequenceAfter (stepOf 0x01200008 [(9, 0x00001022#32)]) =
  some (0x00001004#32, 0x00001022#32, true) := by decide
/-- Table 2.5c -/
theorem test_jalr_1 : regAfter (stepOf 0x01205009 [(9, 0x00001010#32)]) 10 = some 0x00001008#32 := by
  decide
/-- Table 2.5f -/
theorem test_jalr_2 : refusalOf (stepOf 0x01204809 [(9, 0x00001010#32)]) = some .jalrSameRegister := by
  decide

/-! ## Fetch, mapping, refusals -/

/-- Table 2.8a -/
theorem test_refused_word : refusalOf (stepOf 0x10000000 []) = some (.notInSpec 0x10000000#32) := by decide
/-- Table 2.1d: `LW r2, 0(r4)` with `x[4] = 0x3000`. -/
theorem test_stuck_load : faultOf (stepOf 0x8C820000 [(4, 0x00003000#32)]) =
  some (.stuck 0x00003000#32) := by decide
/-- Table 2.1d: alignment is checked before mapping. -/
theorem test_misaligned_unmapped : outcomeAfter (stepOf 0x8C820002 [(4, 0x00003000#32)]) =
  raised (.addressError .load 0x00003002#32) := by decide
/-- Every stored byte enters `dirty` (Table 2.1c). -/
theorem test_dirty : dirtyAfter (stepOf 0xA4830002 dataRegs) = some [0x2002, 0x2003] := by decide
/-- `DIV r4, r0` (Table 2.4a): HI and LO become `any`, and the machine goes on. -/
theorem test_div_by_zero : sequenceAfter (stepOf 0x0080001A mulRegs) =
  some (0x00001004#32, 0x00001008#32, false) := by decide
/-! ## Assembler text (R64, R65, Table R13) -/

theorem test_text_addi : instrText 0x00001000#32 (.addi 2 5 0x11#16) = "ADDI r2, r5, 0x11" := by decide
theorem test_text_lb : instrText 0x00001000#32 (.lb 2 5 0xFFFF#16) = "LB r2, -1(r5)" := by decide
theorem test_text_j : instrText 0x00001000#32 (.j 0x0000404#26) = "J 0x1010" := by decide
theorem test_nop_word : encode nopInstr = 0x00000000#32 := by decide
theorem test_move_word : encode (moveInstr 16 2) = 0x00408021#32 := by decide
theorem test_usual_names : usualName 16 = "s0" ∧ usualName 31 = "ra" := by decide

/-! ## Witnesses: the hypotheses of the statements can be met

The mapped addresses are 0x1000 to 0x2FFF; the clauses of a statement are met at the boundaries of their
ranges (the last mapped byte, the first unmapped one, the largest and the smallest word, ...). -/

/-- The launch state with some registers set and a word placed at `pc`. -/
def placed (w : Nat) (rs : List (Reg × Word)) : State := (withRegs rs).withFetchWord 32 w

def isNext (a : Answer) : Bool :=
  match a with
  | .next _ => true
  | _ => false

theorem exists_next {a : Answer} (h : isNext a = true) : ∃ t, a = .next t := by
  cases a with
  | next t => exact ⟨t, rfl⟩
  | fault _ => cases h
  | refused _ => cases h

theorem mapped {s : State} {a : Word} {n : Nat} (h : s.firstUnmapped a n = none) : MappedRange s a n :=
  (s.firstUnmapped_eq_none a n).mp h

theorem not_mapped {s : State} {a : Word} {n : Nat} (h : s.firstUnmapped a n ≠ none) :
    ¬ MappedRange s a n := fun hm => h ((s.firstUnmapped_eq_none a n).mpr hm)

theorem clean {s : State} {a : Word} {n : Nat} (h : s.anyDirty a n = false) : ¬ DirtyRange s a n := by
  rw [← s.anyDirty_iff, h]; decide

/-- The state right after an instruction, for chains of two. -/
def afterwards (a : Answer) : State :=
  match a with
  | .next t => t
  | _ => start

theorem afterwards_eq {a : Answer} (h : isNext a = true) : a = .next (afterwards a) := by
  cases a with
  | next t => rfl
  | fault _ => cases h
  | refused _ => cases h

/-! ### Encoding and the step -/

theorem witness_EncodeInvertsDecode : decode 0x00000000#32 = .ok nopInstr := by
  decide

theorem witness_DecodeAnswersTheUniqueRow : decode 0x8C820004#32 = .ok (.lw 2 4 4#16) ∧
    (⟨"LW", .immediate, 0x8C000000#32, 0xFC000000#32⟩ : Row) ∈ opcodeRows ∧
    Row.accepts ⟨"LW", .immediate, 0x8C000000#32, 0xFC000000#32⟩ 0x8C820004#32 = true := by decide

theorem witness_UnlistedWordsAreRefused : (∀ r ∈ opcodeRows, r.accepts 0xFFFFFFFF#32 = false) ∧
    (placed 0xFFFFFFFF []).outcome = .running ∧
    fetch (placed 0xFFFFFFFF []) = .ok 0xFFFFFFFF#32 :=
  ⟨by decide, rfl, rfl⟩

theorem witness_StepRunsTheDecodedInstruction :
    (placed 0x20A20011 []).outcome = .running ∧ (placed 0x20A20011 []).pc.toNat % 4 = 0 ∧
    MappedRange (placed 0x20A20011 []) (placed 0x20A20011 []).pc 4 ∧
    ¬ DirtyRange (placed 0x20A20011 []) (placed 0x20A20011 []).pc 4 ∧
    decode ((placed 0x20A20011 []).wordAt (placed 0x20A20011 []).pc) = .ok (.addi 2 5 0x11#16) :=
  ⟨rfl, by decide, mapped (by decide), clean (by decide), by decide⟩

/-- Clause 1: a misaligned `pc`. -/
theorem witness_StepReportsTheFirstCondition_misaligned :
    ({ start with pc := 0x00001001#32 } : State).pc.toNat % 4 ≠ 0 := by decide
/-- Clause 2: an aligned `pc` at the first unmapped address. -/
theorem witness_StepReportsTheFirstCondition_unmapped :
    ({ start with pc := 0x00003000#32 } : State).pc.toNat % 4 = 0 ∧
    ¬ MappedRange { start with pc := 0x00003000#32 } 0x00003000#32 4 :=
  ⟨by decide, not_mapped (by decide)⟩
/-- Clause 3: the last mapped word, its last byte stored to. -/
theorem witness_StepReportsTheFirstCondition_dirty :
    ({ start with pc := 0x00002FFC#32, dirty := [0x2FFF] } : State).pc.toNat % 4 = 0 ∧
    MappedRange { start with pc := 0x00002FFC#32, dirty := [0x2FFF] } 0x00002FFC#32 4 ∧
    DirtyRange { start with pc := 0x00002FFC#32, dirty := [0x2FFF] } 0x00002FFC#32 4 :=
  ⟨by decide, mapped (by decide), (State.anyDirty_iff ..).mp (by decide)⟩
/-- Clause 4: a word without a row. -/
theorem witness_StepReportsTheFirstCondition_unlisted :
    MappedRange (placed 0x10000000 []) (placed 0x10000000 []).pc 4 ∧
    ¬ DirtyRange (placed 0x10000000 []) (placed 0x10000000 []).pc 4 ∧
    ∀ r ∈ opcodeRows, r.accepts ((placed 0x10000000 []).wordAt (placed 0x10000000 []).pc) = false :=
  ⟨mapped (by decide), clean (by decide), by decide⟩

theorem witness_EndedRunHasNoStep :
    (afterwards (step (placed 0x0000000D []))).outcome ≠ .running := by decide

theorem witness_ExceptionsArePrecise : ∃ t, step (placed 0x0000000D []) = .next t ∧
    t.outcome ≠ .running := ⟨_, rfl, by decide⟩

/-- `SW r3, 0x2000(r0)` as the first instruction. -/
theorem witness_EveryStepKeepsTheInvariant : (placed 0xAC032000 []).Inv ∧
    ∃ t, step (placed 0xAC032000 []) = .next t :=
  ⟨⟨by decide, by decide, by decide, by decide, by decide, fun _ => by decide, fun r h => (by cases h),
    fun w h => (by cases h)⟩, exists_next (by decide)⟩

theorem witness_StepWritesAtMostOneRegister : ∃ t, step (placed 0x0C000408 []) = .next t :=
  exists_next (by decide)

theorem witness_OnlyHiLoWritersWriteHiLo : ∃ t, exec (.mthi 4) (withRegs mulRegs) = .next t ∧
    t.hi ≠ (withRegs mulRegs).hi := ⟨_, rfl, by decide⟩

theorem witness_OnlyStoresWriteMemory : ∃ t, exec (.lw 2 4 0#16) (withRegs dataRegs) = .next t ∧
    isStore (.lw 2 4 0#16) = false := ⟨_, rfl, rfl⟩

/-- One jump, one instruction that is none. -/
theorem witness_OnlyJumpsLeaveTheSequence : start.outcome = .running ∧
    (∃ t, exec (.j 0#26) start = .next t ∧ t.outcome = .running ∧ isJump (.j 0#26) = true) ∧
    (∃ t, exec nopInstr start = .next t ∧ t.outcome = .running ∧ isJump nopInstr = false) :=
  ⟨rfl, ⟨_, rfl, rfl, rfl⟩, ⟨_, rfl, rfl, rfl⟩⟩

/-- One instruction that raises, one that reads HI, one that does neither. -/
theorem witness_HiLoAgeCountsInstructions : start.outcome = .running ∧
    (∃ t, exec (.brk 0#20) start = .next t ∧ t.outcome ≠ .running) ∧
    (∃ t, exec (.mfhi 2) start = .next t ∧ t.outcome = .running ∧ readsHiLo (.mfhi 2) = true) ∧
    (∃ t, exec nopInstr start = .next t ∧ t.outcome = .running ∧ readsHiLo nopInstr = false) :=
  ⟨rfl, ⟨_, rfl, by decide⟩, ⟨_, rfl, rfl, rfl⟩, ⟨_, rfl, rfl, rfl⟩⟩

theorem witness_ParametersNeverChange : ∃ t, step (placed 0x00000000 []) = .next t :=
  exists_next (by decide)

/-- A stored-to byte at either end of the word the run stands at. -/
theorem witness_StoredBytesAreNeverExecuted :
    ∃ s t : State, 0x1007 ∈ s.dirty ∧ 0x1004 ∈ s.dirty ∧ core.run 1 s = .next t ∧
      t.outcome = .running ∧ t.pc.toNat % 4 = 0 ∧ MappedRange t t.pc 4 ∧ t.pc.toNat = 0x1004 :=
  ⟨{ placed 0x00000000 [] with dirty := [0x1004, 0x1007] },
   afterwards (step { placed 0x00000000 [] with dirty := [0x1004, 0x1007] }),
   by decide, by decide, rfl, by decide, by decide, mapped (by decide), by decide⟩

theorem witness_DistanceTwoRunsAgreeWithDistanceZero :
    (placed 0x00001012 []).params.hazard = .two ∧ ∃ t, core.run 1 (placed 0x00001012 []) = .next t :=
  ⟨rfl, _, rfl⟩

/-- The first and the last address of the space, and the highest register. -/
theorem witness_LaunchState :
    List.find? (fun c : Host.Cell => c.1 == (0x00000000#32).toNat) [(0, 1#8)] = some (0, 1#8) ∧
    List.find? (fun c : Host.Cell => c.1 == (0xFFFFFFFF#32).toNat) [(0xFFFFFFFF, 1#8)] =
      some ((0xFFFFFFFF#32).toNat, 1#8) ∧ (31 : Reg) ≠ 0 := by decide

theorem witness_RegisterZeroIsHardwired : (1 : Reg) ≠ 0 ∧ (31 : Reg) ≠ 0 := by decide

/-! ### Memory, loads and stores -/

/-- The last four mapped bytes, and a range that ends one byte past them. -/
theorem witness_MemoryPrimitives : MappedRange start 0x00002FFC#32 4 ∧
    ¬ MappedRange start 0x00002FFD#32 4 ∧ MappedRange start 0x00002FFC#32 [1#8, 2#8, 3#8, 4#8].length ∧
    ¬ MappedRange start 0x00002FFD#32 [1#8, 2#8, 3#8, 4#8].length :=
  ⟨mapped (by decide), not_mapped (by decide), mapped (by decide), not_mapped (by decide)⟩

/-- An odd address; an even address that is no multiple of 4; a byte access at an odd address; a
misaligned `pc`. -/
theorem witness_MisalignedAccessesRaise :
    ((withRegs dataRegs).readReg 4 + (0xFFFF#16).signExtend 32).toNat % 2 ≠ 0 ∧
    ((withRegs dataRegs).readReg 4 + (2#16).signExtend 32).toNat % 4 ≠ 0 ∧
    (∃ t, exec (.swl 3 4 3#16) (withRegs dataRegs) = .next t) ∧
    ({ start with pc := 0x00001003#32 } : State).outcome = .running ∧
    ({ start with pc := 0x00001003#32 } : State).pc.toNat % 4 ≠ 0 :=
  ⟨by decide, by decide, exists_next (by decide), rfl, by decide⟩

/-- LB, LBU and SB: the first and the last mapped byte, and the bytes beside them. -/
theorem witness_LoadByte :
    (withRegs [(4, 0x00001000#32)]).isMapped ((withRegs [(4, 0x00001000#32)]).readReg 4 + (0#16).signExtend 32) = true ∧
    (withRegs [(4, 0x00001000#32)]).isMapped ((withRegs [(4, 0x00001000#32)]).readReg 4 + (0x1FFF#16).signExtend 32) = true ∧
    (withRegs [(4, 0x00001000#32)]).isMapped ((withRegs [(4, 0x00001000#32)]).readReg 4 + (0xFFFF#16).signExtend 32) = false ∧
    (withRegs [(4, 0x00001000#32)]).isMapped ((withRegs [(4, 0x00001000#32)]).readReg 4 + (0x2000#16).signExtend 32) = false := by
  decide

/-- LB, LBU and SB: the first and the last mapped byte, and the bytes beside them. -/
theorem witness_StoreByte :
    (withRegs [(4, 0x00001000#32)]).isMapped ((withRegs [(4, 0x00001000#32)]).readReg 4 + (0#16).signExtend 32) = true ∧
    (withRegs [(4, 0x00001000#32)]).isMapped ((withRegs [(4, 0x00001000#32)]).readReg 4 + (0x1FFF#16).signExtend 32) = true ∧
    (withRegs [(4, 0x00001000#32)]).isMapped ((withRegs [(4, 0x00001000#32)]).readReg 4 + (0xFFFF#16).signExtend 32) = false ∧
    (withRegs [(4, 0x00001000#32)]).isMapped ((withRegs [(4, 0x00001000#32)]).readReg 4 + (0x2000#16).signExtend 32) = false := by
  decide

/-- LH, LHU and SH: the last mapped halfword; an odd address; the first unmapped halfword. -/
theorem witness_LoadHalfword :
    ((withRegs [(4, 0x00002FFE#32)]).readReg 4 + (0#16).signExtend 32).toNat % 2 = 0 ∧
    MappedRange (withRegs [(4, 0x00002FFE#32)]) ((withRegs [(4, 0x00002FFE#32)]).readReg 4 + (0#16).signExtend 32) 2 ∧
    ((withRegs [(4, 0x00002FFE#32)]).readReg 4 + (1#16).signExtend 32).toNat % 2 ≠ 0 ∧
    ((withRegs [(4, 0x00002FFE#32)]).readReg 4 + (2#16).signExtend 32).toNat % 2 = 0 ∧
    ¬ MappedRange (withRegs [(4, 0x00002FFE#32)]) ((withRegs [(4, 0x00002FFE#32)]).readReg 4 + (2#16).signExtend 32) 2 :=
  ⟨by decide, mapped (by decide), by decide, by decide, not_mapped (by decide)⟩

/-- LH, LHU and SH: the last mapped halfword; an odd address; the first unmapped halfword. -/
theorem witness_StoreHalfword :
    ((withRegs [(4, 0x00002FFE#32)]).readReg 4 + (0#16).signExtend 32).toNat % 2 = 0 ∧
    MappedRange (withRegs [(4, 0x00002FFE#32)]) ((withRegs [(4, 0x00002FFE#32)]).readReg 4 + (0#16).signExtend 32) 2 ∧
    ((withRegs [(4, 0x00002FFE#32)]).readReg 4 + (1#16).signExtend 32).toNat % 2 ≠ 0 ∧
    ((withRegs [(4, 0x00002FFE#32)]).readReg 4 + (2#16).signExtend 32).toNat % 2 = 0 ∧
    ¬ MappedRange (withRegs [(4, 0x00002FFE#32)]) ((withRegs [(4, 0x00002FFE#32)]).readReg 4 + (2#16).signExtend 32) 2 :=
  ⟨by decide, mapped (by decide), by decide, by decide, not_mapped (by decide)⟩

/-- LW and SW: the last mapped word; a misaligned address; the first unmapped word. -/
theorem witness_LoadWord :
    ((withRegs [(4, 0x00002FFC#32)]).readReg 4 + (0#16).signExtend 32).toNat % 4 = 0 ∧
    MappedRange (withRegs [(4, 0x00002FFC#32)]) ((withRegs [(4, 0x00002FFC#32)]).readReg 4 + (0#16).signExtend 32) 4 ∧
    ((withRegs [(4, 0x00002FFC#32)]).readReg 4 + (3#16).signExtend 32).toNat % 4 ≠ 0 ∧
    ((withRegs [(4, 0x00002FFC#32)]).readReg 4 + (4#16).signExtend 32).toNat % 4 = 0 ∧
    ¬ MappedRange (withRegs [(4, 0x00002FFC#32)]) ((withRegs [(4, 0x00002FFC#32)]).readReg 4 + (4#16).signExtend 32) 4 :=
  ⟨by decide, mapped (by decide), by decide, by decide, not_mapped (by decide)⟩

/-- LW and SW: the last mapped word; a misaligned address; the first unmapped word. -/
theorem witness_StoreWord :
    ((withRegs [(4, 0x00002FFC#32)]).readReg 4 + (0#16).signExtend 32).toNat % 4 = 0 ∧
    MappedRange (withRegs [(4, 0x00002FFC#32)]) ((withRegs [(4, 0x00002FFC#32)]).readReg 4 + (0#16).signExtend 32) 4 ∧
    ((withRegs [(4, 0x00002FFC#32)]).readReg 4 + (3#16).signExtend 32).toNat % 4 ≠ 0 ∧
    ((withRegs [(4, 0x00002FFC#32)]).readReg 4 + (4#16).signExtend 32).toNat % 4 = 0 ∧
    ¬ MappedRange (withRegs [(4, 0x00002FFC#32)]) ((withRegs [(4, 0x00002FFC#32)]).readReg 4 + (4#16).signExtend 32) 4 :=
  ⟨by decide, mapped (by decide), by decide, by decide, not_mapped (by decide)⟩

/-- LWL and SWL at the last mapped byte (b = 3) and at the first unmapped one (b = 0). -/
theorem witness_LoadWordLeft :
    MappedRange (withRegs [(4, 0x00002FFF#32)])
      (((withRegs [(4, 0x00002FFF#32)]).readReg 4 + (0#16).signExtend 32) &&& 0xFFFFFFFC#32)
      (((withRegs [(4, 0x00002FFF#32)]).readReg 4 + (0#16).signExtend 32).toNat % 4 + 1) ∧
    ¬ MappedRange (withRegs [(4, 0x00002FFF#32)])
      (((withRegs [(4, 0x00002FFF#32)]).readReg 4 + (1#16).signExtend 32) &&& 0xFFFFFFFC#32)
      (((withRegs [(4, 0x00002FFF#32)]).readReg 4 + (1#16).signExtend 32).toNat % 4 + 1) :=
  ⟨mapped (by decide), not_mapped (by decide)⟩

/-- LWL and SWL at the last mapped byte (b = 3) and at the first unmapped one (b = 0). -/
theorem witness_StoreWordLeft :
    MappedRange (withRegs [(4, 0x00002FFF#32)])
      (((withRegs [(4, 0x00002FFF#32)]).readReg 4 + (0#16).signExtend 32) &&& 0xFFFFFFFC#32)
      (((withRegs [(4, 0x00002FFF#32)]).readReg 4 + (0#16).signExtend 32).toNat % 4 + 1) ∧
    ¬ MappedRange (withRegs [(4, 0x00002FFF#32)])
      (((withRegs [(4, 0x00002FFF#32)]).readReg 4 + (1#16).signExtend 32) &&& 0xFFFFFFFC#32)
      (((withRegs [(4, 0x00002FFF#32)]).readReg 4 + (1#16).signExtend 32).toNat % 4 + 1) :=
  ⟨mapped (by decide), not_mapped (by decide)⟩

/-- LWR and SWR at the last mapped byte (b = 3) and at the first unmapped one (b = 0): `A + b` is the
effective address. -/
theorem witness_LoadWordRight :
    MappedRange (withRegs [(4, 0x00002FFF#32)])
      ((((withRegs [(4, 0x00002FFF#32)]).readReg 4 + (0#16).signExtend 32) &&& 0xFFFFFFFC#32) +
        BitVec.ofNat 32 (((withRegs [(4, 0x00002FFF#32)]).readReg 4 + (0#16).signExtend 32).toNat % 4))
      (4 - ((withRegs [(4, 0x00002FFF#32)]).readReg 4 + (0#16).signExtend 32).toNat % 4) ∧
    ¬ MappedRange (withRegs [(4, 0x00002FFF#32)])
      ((((withRegs [(4, 0x00002FFF#32)]).readReg 4 + (1#16).signExtend 32) &&& 0xFFFFFFFC#32) +
        BitVec.ofNat 32 (((withRegs [(4, 0x00002FFF#32)]).readReg 4 + (1#16).signExtend 32).toNat % 4))
      (4 - ((withRegs [(4, 0x00002FFF#32)]).readReg 4 + (1#16).signExtend 32).toNat % 4) :=
  ⟨mapped (by decide), not_mapped (by decide)⟩

/-- LWR and SWR at the last mapped byte (b = 3) and at the first unmapped one (b = 0): `A + b` is the
effective address. -/
theorem witness_StoreWordRight :
    MappedRange (withRegs [(4, 0x00002FFF#32)])
      ((((withRegs [(4, 0x00002FFF#32)]).readReg 4 + (0#16).signExtend 32) &&& 0xFFFFFFFC#32) +
        BitVec.ofNat 32 (((withRegs [(4, 0x00002FFF#32)]).readReg 4 + (0#16).signExtend 32).toNat % 4))
      (4 - ((withRegs [(4, 0x00002FFF#32)]).readReg 4 + (0#16).signExtend 32).toNat % 4) ∧
    ¬ MappedRange (withRegs [(4, 0x00002FFF#32)])
      ((((withRegs [(4, 0x00002FFF#32)]).readReg 4 + (1#16).signExtend 32) &&& 0xFFFFFFFC#32) +
        BitVec.ofNat 32 (((withRegs [(4, 0x00002FFF#32)]).readReg 4 + (1#16).signExtend 32).toNat % 4))
      (4 - ((withRegs [(4, 0x00002FFF#32)]).readReg 4 + (1#16).signExtend 32).toNat % 4) :=
  ⟨mapped (by decide), not_mapped (by decide)⟩

/-- The pairs at an odd address that ends with the last mapped byte's word. -/
theorem witness_LoadPairReadsUnalignedWord : (2 : Reg) ≠ 0 ∧ (2 : Reg) ≠ 4 ∧
    MappedRange (withRegs [(4, 0x00002FF9#32)]) ((withRegs [(4, 0x00002FF9#32)]).readReg 4) 4 :=
  ⟨by decide, by decide, mapped (by decide)⟩

/-- The pairs at an odd address that ends with the last mapped byte's word. -/
theorem witness_StorePairWritesUnalignedWord : (2 : Reg) ≠ 0 ∧ (2 : Reg) ≠ 4 ∧
    MappedRange (withRegs [(4, 0x00002FF9#32)]) ((withRegs [(4, 0x00002FF9#32)]).readReg 4) 4 :=
  ⟨by decide, by decide, mapped (by decide)⟩

/-! ### Arithmetic, multiply and divide -/

/-- x[5] = 2^31 - 1, x[7] = -2^31, x[6] = 1. -/
def edge : State := withRegs [(5, 0x7FFFFFFF#32), (6, 1#32), (7, 0x80000000#32), (8, 0xFFFFFFFF#32)]

/-- The largest and the smallest sums and differences that fit, and the first ones that do not. -/
theorem witness_TrappingArithmetic :
    (-2 ^ 31 ≤ (edge.readReg 5).toInt + (edge.readReg 0).toInt ∧
      (edge.readReg 5).toInt + (edge.readReg 0).toInt ≤ 2 ^ 31 - 1) ∧
    ¬ (-2 ^ 31 ≤ (edge.readReg 5).toInt + (edge.readReg 6).toInt ∧
      (edge.readReg 5).toInt + (edge.readReg 6).toInt ≤ 2 ^ 31 - 1) ∧
    (-2 ^ 31 ≤ (edge.readReg 7).toInt - (edge.readReg 0).toInt ∧
      (edge.readReg 7).toInt - (edge.readReg 0).toInt ≤ 2 ^ 31 - 1) ∧
    ¬ (-2 ^ 31 ≤ (edge.readReg 7).toInt - (edge.readReg 6).toInt ∧
      (edge.readReg 7).toInt - (edge.readReg 6).toInt ≤ 2 ^ 31 - 1) ∧
    (-2 ^ 31 ≤ (edge.readReg 7).toInt + ((0#16).signExtend 32 : Word).toInt ∧
      (edge.readReg 7).toInt + ((0#16).signExtend 32 : Word).toInt ≤ 2 ^ 31 - 1) ∧
    ¬ (-2 ^ 31 ≤ (edge.readReg 7).toInt + ((0xFFFF#16).signExtend 32 : Word).toInt ∧
      (edge.readReg 7).toInt + ((0xFFFF#16).signExtend 32 : Word).toInt ≤ 2 ^ 31 - 1) := by
  decide

theorem witness_MultiplyGivesExactProduct : start.hazardDistance ≤ start.hiloAge := by decide

/-- Defined: -2^31 / 1 and -1 / -2^31. Left open: a zero divisor, and -2^31 / -1. -/
theorem witness_SignedDivide : edge.hazardDistance ≤ edge.hiloAge ∧
    ((edge.readReg 6).toInt ≠ 0 ∧
      ¬ ((edge.readReg 7).toInt = -2 ^ 31 ∧ (edge.readReg 6).toInt = -1)) ∧
    ((edge.readReg 7).toInt ≠ 0 ∧
      ¬ ((edge.readReg 8).toInt = -2 ^ 31 ∧ (edge.readReg 7).toInt = -1)) ∧
    (edge.readReg 0).toInt = 0 ∧
    ((edge.readReg 7).toInt = -2 ^ 31 ∧ (edge.readReg 8).toInt = -1) := by decide

theorem witness_UnsignedDivide : edge.hazardDistance ≤ edge.hiloAge ∧ (edge.readReg 8).toNat ≠ 0 ∧
    (edge.readReg 0).toNat = 0 := by decide

/-- The age at the distance, and one below it. -/
theorem witness_MoveToHiLo : start.hazardDistance ≤ start.hiloAge ∧
    ({ start with hiloAge := 1 } : State).hiloAge < ({ start with hiloAge := 1 } : State).hazardDistance := by
  decide

/-- Under distance 2: MFLO, then one more instruction, then a write of HI and LO; and under 0. -/
theorem witness_HiLoHazard : writesHiLo (.mult 4 6) = true ∧ readsHiLo (.mflo 2) = true ∧
    (∃ t, exec (.mflo 2) start = .next t ∧ ∃ u, exec nopInstr t = .next u) ∧
    start.params.hazard = .two ∧
    ({ start with params := { params with hazard := .none } } : State).params.hazard = .none :=
  ⟨rfl, rfl, ⟨_, rfl, _, rfl⟩, rfl, rfl⟩

/-! ### Jumps and traps -/

theorem witness_JumpAndLink : start.bd = false ∧ ({ start with bd := true } : State).bd = true := ⟨rfl, rfl⟩

/-- Outside and inside a delay slot; different registers and equal ones; a misaligned target. -/
theorem witness_JumpRegister : (withRegs [(9, 0x00001022#32)]).bd = false ∧ (10 : Reg) ≠ 9 ∧
    (0 : Reg) = 0 ∧ ({ start with bd := true } : State).bd = true ∧
    ((withRegs [(9, 0x00001022#32)]).readReg 9).toNat % 4 ≠ 0 ∧
    ∃ t u, exec (.jr 9) (withRegs [(9, 0x00001022#32)]) = .next t ∧ exec nopInstr t = .next u ∧
      u.outcome = .running :=
  ⟨by decide, by decide, rfl, rfl, by decide, _, _, rfl, rfl, rfl⟩

/-- NOP in the delay slot of JR, and a BREAK there. -/
theorem witness_DelaySlotThenTarget :
    (withRegs [(9, 0x00001022#32)]).outcome = .running ∧ isJump (.jr 9) = true ∧
    ∃ t, exec (.jr 9) (withRegs [(9, 0x00001022#32)]) = .next t ∧
      (∃ u, exec nopInstr t = .next u ∧ u.outcome = .running) ∧
      (∃ u, exec (.brk 0#20) t = .next u ∧ u.outcome ≠ .running) :=
  ⟨rfl, rfl, _, rfl, ⟨_, rfl, rfl⟩, ⟨_, rfl, by decide⟩⟩

theorem witness_JumpInDelaySlotIsRefused :
    ({ placed 0x03E00008 [] with bd := true } : State).outcome = .running ∧
    fetch { placed 0x03E00008 [] with bd := true } = .ok 0x03E00008#32 ∧
    decode 0x03E00008#32 = .ok (.jr 31) ∧ ({ placed 0x03E00008 [] with bd := true } : State).bd = true ∧
    isJump (.jr 31) = true := ⟨rfl, rfl, by decide, rfl, rfl⟩

/-- Each condition holds at its boundary and fails just past it: equal operands, and the largest beside
the smallest word, signed and unsigned. -/
theorem witness_RegisterTraps :
    decide ((edge.readReg 5).toInt ≤ (edge.readReg 5).toInt) = true ∧
    decide ((edge.readReg 5).toInt ≤ (edge.readReg 7).toInt) = false ∧
    decide ((edge.readReg 7).toInt < (edge.readReg 5).toInt) = true ∧
    decide ((edge.readReg 5).toInt < (edge.readReg 5).toInt) = false ∧
    decide ((edge.readReg 8).toNat ≤ (edge.readReg 8).toNat) = true ∧
    decide ((edge.readReg 8).toNat ≤ (edge.readReg 0).toNat) = false ∧
    decide ((edge.readReg 0).toNat < (edge.readReg 8).toNat) = true ∧
    decide ((edge.readReg 8).toNat < (edge.readReg 8).toNat) = false ∧
    decide (edge.readReg 5 = edge.readReg 5) = true ∧ decide (edge.readReg 5 = edge.readReg 7) = false ∧
    decide (edge.readReg 5 ≠ edge.readReg 7) = true ∧ decide (edge.readReg 5 ≠ edge.readReg 5) = false := by
  decide

/-- x[4] = -32768, the lowest sign-extended immediate (0x8000). -/
def lowest : State := withRegs [(4, 0xFFFF8000#32)]

theorem witness_ImmediateTraps :
    decide (((0x8000#16).signExtend 32 : Word).toInt ≤ (lowest.readReg 4).toInt) = true ∧
    decide (((0x8001#16).signExtend 32 : Word).toInt ≤ (lowest.readReg 4).toInt) = false ∧
    decide ((lowest.readReg 4).toInt < ((0x8001#16).signExtend 32 : Word).toInt) = true ∧
    decide ((lowest.readReg 4).toInt < ((0x8000#16).signExtend 32 : Word).toInt) = false ∧
    decide (((0x8000#16).signExtend 32 : Word).toNat ≤ (lowest.readReg 4).toNat) = true ∧
    decide (((0x8001#16).signExtend 32 : Word).toNat ≤ (lowest.readReg 4).toNat) = false ∧
    decide ((lowest.readReg 4).toNat < ((0x8001#16).signExtend 32 : Word).toNat) = true ∧
    decide ((lowest.readReg 4).toNat < ((0x8000#16).signExtend 32 : Word).toNat) = false ∧
    decide (lowest.readReg 4 = ((0x8000#16).signExtend 32 : Word)) = true ∧
    decide (lowest.readReg 4 = ((0x7FFF#16).signExtend 32 : Word)) = false ∧
    decide (lowest.readReg 4 ≠ ((0x7FFF#16).signExtend 32 : Word)) = true ∧
    decide (lowest.readReg 4 ≠ ((0x8000#16).signExtend 32 : Word)) = false := by decide

end Sys2Proof.Tests
end

/-! ## Decoding read backwards, and words without a row (R58, R61) -/

namespace Sys2Proof

/-- Table R60b read backwards: what a SPECIAL word decodes to encodes to that word. -/
theorem encode_of_decodeSpecial {w : Word} {i : Instr} (ho : opcodeField w = 0#6)
    (h : decodeSpecial w = some i) : encode i = w := by
  have hzero : regBits 0 = 0#5 := rfl
  unfold decodeSpecial at h
  split at h <;> simp only [whenZero_eq_some, Bool.and_eq_true, beq_iff_eq, Option.some.injEq,
    reduceCtorEq] at h
  -- SYSCALL and BREAK, with a 20-bit code
  case h_9 hf | h_10 hf =>
    subst h
    simpa [encode, hf] using codeFormat_fields w ho
  -- the six register traps, with a 10-bit code
  case h_29 hf | h_30 hf | h_31 hf | h_32 hf | h_33 hf | h_34 hf =>
    subst h
    simpa [encode, hf] using trapFormat_fields w ho
  -- the rows with must-be-zero fields
  all_goals
    rename_i hf
    obtain ⟨hz, rfl⟩ := h
    simpa [encode, hz, hf, hzero] using regFormat_fields w ho

/-- Table R60c read backwards. -/
theorem encode_of_decodeRegimm {w : Word} {i : Instr} (ho : opcodeField w = 1#6)
    (h : decodeRegimm w = some i) : encode i = w := by
  have hrt : regBits (rtField w) = BitVec.ofNat 5 (rtField w).val := by
    simp [regBits]
  unfold decodeRegimm at h
  split at h <;> simp only [Option.some.injEq, reduceCtorEq] at h
  all_goals
    rename_i hv
    subst h
    simpa [encode, ho, hrt, hv] using immFormat_fields w

/-- Table R60a read backwards: each word has one meaning (R58). -/
theorem encode_of_decodeRow {w : Word} {i : Instr} (h : decodeRow w = some i) : encode i = w := by
  have hzero : regBits 0 = 0#5 := rfl
  unfold decodeRow at h
  split at h
  case h_1 ho => exact encode_of_decodeSpecial ho h
  case h_2 ho => exact encode_of_decodeRegimm ho h
  -- J and JAL
  case h_3 ho | h_4 ho =>
    cases h
    simpa [encode, ho] using jumpFormat_fields w
  -- LUI, the one row of this table with a must-be-zero field
  case h_12 ho =>
    obtain ⟨hz, rfl⟩ := (whenZero_eq_some ..).mp h
    simpa [encode, ho, beq_iff_eq.mp hz, hzero] using immFormat_fields w
  case h_25 => cases h
  all_goals
    rename_i ho
    cases h
    simpa [encode, ho] using immFormat_fields w

/-- What a word decodes to encodes to that word. -/
theorem encode_of_decode {w : Word} {i : Instr} (h : decode w = .ok i) : encode i = w :=
  encode_of_decodeRow ((decode_eq_ok w i).mp h)

end Sys2Proof

namespace Sys2Proof.Laws

/-- Every encoded word is accepted by its own row of the opcode table (R58). -/
theorem rowOf_accepts_encode (i : Instr) : RowAccepts.Statement i := by
  cases i with
  | lb => exact RowAccepts.lb ..
  | lbu => exact RowAccepts.lbu ..
  | lh => exact RowAccepts.lh ..
  | lhu => exact RowAccepts.lhu ..
  | lw => exact RowAccepts.lw ..
  | lwl => exact RowAccepts.lwl ..
  | lwr => exact RowAccepts.lwr ..
  | sb => exact RowAccepts.sb ..
  | sh => exact RowAccepts.sh ..
  | sw => exact RowAccepts.sw ..
  | swl => exact RowAccepts.swl ..
  | swr => exact RowAccepts.swr ..
  | add => exact RowAccepts.add ..
  | addu => exact RowAccepts.addu ..
  | sub => exact RowAccepts.sub ..
  | subu => exact RowAccepts.subu ..
  | and => exact RowAccepts.and ..
  | or => exact RowAccepts.or ..
  | xor => exact RowAccepts.xor ..
  | nor => exact RowAccepts.nor ..
  | slt => exact RowAccepts.slt ..
  | sltu => exact RowAccepts.sltu ..
  | addi => exact RowAccepts.addi ..
  | addiu => exact RowAccepts.addiu ..
  | slti => exact RowAccepts.slti ..
  | sltiu => exact RowAccepts.sltiu ..
  | andi => exact RowAccepts.andi ..
  | ori => exact RowAccepts.ori ..
  | xori => exact RowAccepts.xori ..
  | lui => exact RowAccepts.lui ..
  | sll => exact RowAccepts.sll ..
  | srl => exact RowAccepts.srl ..
  | sra => exact RowAccepts.sra ..
  | sllv => exact RowAccepts.sllv ..
  | srlv => exact RowAccepts.srlv ..
  | srav => exact RowAccepts.srav ..
  | mult => exact RowAccepts.mult ..
  | multu => exact RowAccepts.multu ..
  | div => exact RowAccepts.div ..
  | divu => exact RowAccepts.divu ..
  | mfhi => exact RowAccepts.mfhi ..
  | mthi => exact RowAccepts.mthi ..
  | mflo => exact RowAccepts.mflo ..
  | mtlo => exact RowAccepts.mtlo ..
  | j => exact RowAccepts.j ..
  | jal => exact RowAccepts.jal ..
  | jr => exact RowAccepts.jr ..
  | jalr => exact RowAccepts.jalr ..
  | syscall => exact RowAccepts.syscall ..
  | brk => exact RowAccepts.brk ..
  | tge => exact RowAccepts.tge ..
  | tgeu => exact RowAccepts.tgeu ..
  | tlt => exact RowAccepts.tlt ..
  | tltu => exact RowAccepts.tltu ..
  | teq => exact RowAccepts.teq ..
  | tne => exact RowAccepts.tne ..
  | tgei => exact RowAccepts.tgei ..
  | tgeiu => exact RowAccepts.tgeiu ..
  | tlti => exact RowAccepts.tlti ..
  | tltiu => exact RowAccepts.tltiu ..
  | teqi => exact RowAccepts.teqi ..
  | tnei => exact RowAccepts.tnei ..

end Sys2Proof.Laws

namespace Sys2Proof

/-- A word that decodes is accepted by the row of its instruction, which the table lists (R58). -/
theorem row_of_decode {w : Word} {i : Instr} (h : decode w = .ok i) :
    (rowOf i).accepts w = true ∧ rowOf i ∈ opcodeRows :=
  encode_of_decode h ▸ Laws.rowOf_accepts_encode i

/-- A word that no row accepts is refused by name (R61, R62). -/
theorem decode_of_unlisted {w : Word} (h : ∀ r ∈ opcodeRows, r.accepts w = false) :
    decode w = .error (.notInSpec w) := by
  cases hd : decode w with
  | error e => rw [((decode_eq_error w e).mp hd).2]
  | ok i =>
    obtain ⟨hacc, hmem⟩ := row_of_decode hd
    rw [h _ hmem] at hacc
    cases hacc

end Sys2Proof

namespace Sys2Proof.Machine

/-! ## What keeps the invariant: one lemma per update of the state -/

section Invariant

variable {s : State}

theorem State.Inv.writeReg (h : s.Inv) (r : Reg) (v : Word) : (s.writeReg r v).Inv where
  memory := by simpa using h.memory
  dirty := by simpa using h.dirty
  dirtyMapped := by simpa using h.dirtyMapped
  zero := (s.writeReg_slot_zero r v).trans h.zero
  age := by simpa using h.age
  sequential := by simpa using h.sequential
  record := by simpa using h.record
  noRefusal := by simpa using h.noRefusal

theorem State.Inv.writeHiLo (h : s.Inv) (hi lo : Word) : (s.writeHiLo hi lo).Inv :=
  { h with }

theorem State.Inv.drawHiLo (h : s.Inv) : s.drawHiLo.Inv :=
  { h with }

/-- A completed instruction counts in `hilo_age` up to the distance, and the next one follows it. -/
theorem State.Inv.retire (h : s.Inv) (ho : s.outcome = .running) : s.retire.Inv :=
  { h with
    age := Nat.min_le_right _ _
    sequential := fun _ => rfl
    record := by simp [ho] }

theorem State.Inv.retireHiLoRead (h : s.Inv) (ho : s.outcome = .running) : s.retireHiLoRead.Inv :=
  { h.retire ho with age := Nat.zero_le _ }

/-- After a jump the delay slot comes next, of which `sequential` says nothing. -/
theorem State.Inv.retireJump (h : s.Inv) (ho : s.outcome = .running) (target : Word) :
    (s.retireJump target).Inv :=
  { h.retire ho with
    sequential := by simp
    record := by simp [ho] }

/-- A store keeps the canonical forms, and adds only mapped addresses to the stored-to set. -/
theorem State.Inv.storeBytes (h : s.Inv) {a : Word} {vs : List Byte}
    (hm : MappedRange s a vs.length) : (s.storeBytes a vs).Inv where
  memory := (s.wf_storeBytes a vs h.memory h.dirty).1
  dirty := (s.wf_storeBytes a vs h.memory h.dirty).2
  dirtyMapped := by
    intro b hb
    rw [State.storeBytes_params]
    rcases (s.mem_dirty_storeBytes a vs b).mp hb with hb | ⟨k, hk, rfl⟩
    · exact h.dirtyMapped b hb
    · exact hm k hk
  zero := by simpa using h.zero
  age := by simpa using h.age
  sequential := by simpa using h.sequential
  record := by simpa using h.record
  noRefusal := by simpa using h.noRefusal

/-- Raising an exception records the instruction the machine stands at (R181, R183). -/
theorem State.Inv.raised (h : s.Inv) (c : Cause) :
    State.Inv { s with outcome := .fault ⟨c, s.pc, s.bd⟩ } :=
  { h with
    record := fun _ hr => by cases hr; exact ⟨rfl, rfl⟩
    noRefusal := fun _ hr => by cases hr }

/-- Every kind of effect keeps the invariant, in a running machine. -/
theorem Effect.keeps_inv {i : Instr} {t : State} (he : Effect i s t) (h : s.Inv)
    (ho : s.outcome = .running) : t.Inv := by
  cases he with
  | raised c => exact h.raised c
  | reg rd v => exact (h.writeReg rd v).retire (by simpa using ho)
  | hiLo hi lo => exact (h.writeHiLo hi lo).retire ho
  | drawn => exact h.drawHiLo.retire ho
  | moved rd v => exact (h.writeReg rd v).retireHiLoRead (by simpa using ho)
  | jumped rd v target => exact (h.writeReg rd v).retireJump (by simpa using ho) target
  | stored a vs _ _ _ _ hm => exact (h.storeBytes hm).retire (by simpa using ho)

end Invariant

/-- Settles O11: a step raises at the fetch, or has one of the effects of an instruction; each keeps
the invariant. -/
theorem everyStepKeepsTheInvariant : Obligations.EveryStepKeepsTheInvariant := by
  intro s t h hst
  obtain ⟨ho, ⟨-, rfl⟩ | ⟨w, i, -, -, hexec⟩⟩ := step_cases hst
  · exact h.raised _
  · exact (exec_effect hexec).keeps_inv h ho

/-! ## The fetch, condition by condition (R19 steps 1 to 4, R184) -/

section Fetch

variable {s : State}

theorem fetch_of_misaligned (ha : s.pc.toNat % 4 ≠ 0) :
    fetch s = .error (raise (.addressError .fetch s.pc) s) := by
  simp [fetch, alignedTo_eq_false 4 s.pc ha]

/-- A fetch that needs an unmapped byte is stuck at one of the four addresses (R36). -/
theorem fetch_of_unmapped (ha : s.pc.toNat % 4 = 0) (hm : ¬ MappedRange s s.pc 4) :
    ∃ k, k < 4 ∧ s.isMapped (s.pc + BitVec.ofNat 32 k) = false ∧
      fetch s = .error (.fault (.stuck (s.pc + BitVec.ofNat 32 k))) := by
  rw [← s.firstUnmapped_eq_none] at hm
  obtain ⟨u, hu⟩ := Option.ne_none_iff_exists'.mp hm
  obtain ⟨k, hk, rfl, hun⟩ := s.firstUnmapped_eq_some s.pc u 4 hu
  exact ⟨k, hk, hun, by simp [fetch, State.memRead, alignedTo_eq_true 4 s.pc ha, hu]⟩

theorem fetch_of_dirty (ha : s.pc.toNat % 4 = 0) (hm : MappedRange s s.pc 4)
    (hd : DirtyRange s s.pc 4) : fetch s = .error (.refused .fetchAfterStore) := by
  simp [fetch, alignedTo_eq_true 4 s.pc ha, s.memRead_of_mapped s.pc 4 hm,
    (s.anyDirty_iff s.pc 4).mpr hd]

/-- A fetch that no condition stops delivers the little-endian word at `pc` (R33). -/
theorem fetch_of_clean (ha : s.pc.toNat % 4 = 0) (hm : MappedRange s s.pc 4)
    (hd : ¬ DirtyRange s s.pc 4) : fetch s = .ok (s.wordAt s.pc) :=
  (fetch_eq_ok s _).mpr
    ⟨alignedTo_eq_true 4 s.pc ha, hm, hd, (s.leValue_bytesAt_four s.pc).symm⟩

/-- A running machine that cannot fetch answers what the fetch answers. -/
theorem step_of_fetch_error {a : Answer} (ho : s.outcome = .running) (hf : fetch s = .error a) :
    step s = a := by
  simp [step, ho, hf]

/-- A running machine that fetches a word without a row refuses it by name (R61). -/
theorem step_of_decode_error {w v : Word} (ho : s.outcome = .running) (hf : fetch s = .ok w)
    (hd : decode w = .error (.notInSpec v)) : step s = .refused (.notInSpec v) := by
  simp [step, ho, hf, hd]

end Fetch

/-- Settles O6: the fetch delivers the word at `pc`, and `step` runs what it decodes to. -/
theorem stepRunsTheDecodedInstruction : Obligations.StepRunsTheDecodedInstruction := by
  intro s i ho ha hm hd hi
  exact step_of_decode ho (fetch_of_clean ha hm hd) hi

/-- Settles O7: each condition decides the answer of the fetch, or of the decoder behind it. -/
theorem stepReportsTheFirstCondition : Obligations.StepReportsTheFirstCondition := by
  intro s ho
  refine ⟨fun ha => ?misaligned, fun ha hm => ?unmapped, fun ha hm hd => ?dirty,
    fun ha hm hd hrow => ?unlisted⟩
  case misaligned => exact step_of_fetch_error ho (fetch_of_misaligned ha)
  case unmapped =>
    obtain ⟨k, hk, hun, hf⟩ := fetch_of_unmapped ha hm
    exact ⟨k, hk, hun, step_of_fetch_error ho hf⟩
  case dirty => exact step_of_fetch_error ho (fetch_of_dirty ha hm hd)
  case unlisted =>
    exact step_of_decode_error ho (fetch_of_clean ha hm hd) (decode_of_unlisted hrow)

/-! ## What each kind of effect changes and leaves unchanged -/

section Effects

variable {i : Instr} {s t : State}

/-- No effect writes two general registers (R15). -/
theorem Effect.readReg_other (he : Effect i s t) :
    ∃ rd : Reg, ∀ r, r ≠ rd → t.readReg r = s.readReg r := by
  cases he with
  | raised => exact ⟨0, fun _ _ => rfl⟩
  | reg rd v | moved rd v | jumped rd v target =>
    exact ⟨rd, fun r hr => by simpa using (newReg_writeReg s rd v).2 r hr⟩
  | hiLo | drawn | stored => exact ⟨0, fun r _ => by simp⟩

/-- Only the effects of a writer of HI and LO change them (R20). -/
theorem Effect.sameHiLo (he : Effect i s t) (hw : writesHiLo i = false) : SameHiLo s t := by
  cases he with
  | raised => exact ⟨rfl, rfl, rfl⟩
  | reg | moved | jumped | stored => simp [SameHiLo]
  | hiLo _ _ hw' | drawn hw' => rw [hw] at hw'; cases hw'

/-- Only a store changes memory or the stored-to set (R78). -/
theorem Effect.sameMemory (he : Effect i s t) (hs : isStore i = false) : SameMemory s t := by
  cases he with
  | raised => exact ⟨fun _ => rfl, rfl⟩
  | reg | hiLo | drawn | moved | jumped => simp [SameMemory]
  | stored _ _ hs' => rw [hs] at hs'; cases hs'

/-- A completed instruction goes on at the old `npc`; only a jump leaves the sequence (R19, R145). -/
theorem Effect.sequence (he : Effect i s t) (ht : t.outcome = .running) :
    t.pc = s.npc ∧ (isJump i = false → t.npc = s.npc + 4#32 ∧ t.bd = false) ∧
      (isJump i = true → t.bd = true) := by
  cases he with
  | raised => cases ht
  | reg _ _ hj | hiLo _ _ _ hj | drawn _ hj | moved _ _ _ hj | stored _ _ _ hj
  | jumped _ _ _ hj => simp [hj]

/-- An effect that raises leaves `hilo_age`, a move from HI or LO resets it, every other one counts
(R26(c), R183). -/
theorem Effect.hiloAge (he : Effect i s t) (ho : s.outcome = .running) :
    (t.outcome ≠ .running → t.hiloAge = s.hiloAge) ∧
    (t.outcome = .running → readsHiLo i = true → t.hiloAge = 0) ∧
    (t.outcome = .running → readsHiLo i = false →
      t.hiloAge = min (s.hiloAge + 1) s.hazardDistance) := by
  cases he with
  | raised => simp
  | reg _ _ _ _ _ hr | hiLo _ _ _ _ _ hr | drawn _ _ _ hr | jumped _ _ _ _ _ _ hr
  | stored _ _ _ _ _ hr | moved _ _ hr => simp [ho, hr]

end Effects

/-- The six writers of HI and LO, by name (R138). -/
theorem writesHiLo_iff (i : Instr) : writesHiLo i = true ↔
    (∃ rs rt, i = .mult rs rt) ∨ (∃ rs rt, i = .multu rs rt) ∨ (∃ rs rt, i = .div rs rt) ∨
    (∃ rs rt, i = .divu rs rt) ∨ (∃ rs, i = .mthi rs) ∨ (∃ rs, i = .mtlo rs) := by
  cases i <;> simp [writesHiLo]

/-- Settles O12: a fetch that raises writes no register, and an instruction's effect at most one. -/
theorem stepWritesAtMostOneRegister : Obligations.StepWritesAtMostOneRegister := by
  intro s t hst
  obtain ⟨-, ⟨-, rfl⟩ | ⟨w, i, -, -, hexec⟩⟩ := step_cases hst
  · exact ⟨0, fun _ _ => rfl⟩
  · exact (exec_effect hexec).readReg_other

/-- Settles O13: the effect of any other instruction leaves HI and LO as they were. -/
theorem onlyHiLoWritersWriteHiLo : Obligations.OnlyHiLoWritersWriteHiLo := by
  intro i s t hexec hne
  refine (writesHiLo_iff i).mp (Bool.of_not_eq_false fun hw => ?_)
  obtain ⟨hhi, hlo, -⟩ := (exec_effect hexec).sameHiLo hw
  exact hne.elim (· hhi) (· hlo)

/-- Settles O14, by the frame of the effects that are no store. -/
theorem onlyStoresWriteMemory : Obligations.OnlyStoresWriteMemory :=
  fun _ _ _ hexec hs => (exec_effect hexec).sameMemory hs

/-- Settles O15: each effect that does not raise ends in one of the three ways of sequencing. -/
theorem onlyJumpsLeaveTheSequence : Obligations.OnlyJumpsLeaveTheSequence :=
  fun _ _ _ _ hexec ht => (exec_effect hexec).sequence ht

/-- Settles O16: each effect leaves, resets or counts `hilo_age`. -/
theorem hiLoAgeCountsInstructions : Obligations.HiLoAgeCountsInstructions :=
  fun _ _ _ ho hexec => (exec_effect hexec).hiloAge ho

/-! ## Launch (Table R28) and the hard-wired register (R12) -/

/-- Of two pairs with one address the first wins; a pair outside the space is dropped (R30, R201). -/
theorem Memory.get_ofCells_cons (c : Host.Cell) (cs : List Host.Cell) {a : Nat} (ha : a < 2 ^ 32) :
    (Memory.ofCells (c :: cs)).get a = if c.1 = a then c.2 else (Memory.ofCells cs).get a := by
  by_cases hc : c.1 = a
  · subst hc
    rw [Memory.ofCells, if_pos ha, Memory.get_set_same, if_pos rfl]
  · rw [Memory.ofCells, if_neg hc]
    split
    · exact Memory.get_set_other _ _ _ _ (Ne.symm hc)
    · rfl

/-- A launch image reads, at an address of the space, as the first pair of that address. -/
theorem Memory.get_ofCells_of_find (cs : List Host.Cell) {a : Nat} {c : Host.Cell}
    (ha : a < 2 ^ 32) (hfind : cs.find? (fun c => c.1 == a) = some c) :
    (Memory.ofCells cs).get a = c.2 := by
  induction cs with
  | nil => cases hfind
  | cons d cs ih =>
    rw [Memory.get_ofCells_cons d cs ha]
    by_cases hd : d.1 = a
    · rw [List.find?_cons_of_pos (by simpa using hd)] at hfind
      cases hfind
      exact if_pos hd
    · rw [List.find?_cons_of_neg (by simpa using hd)] at hfind
      rw [if_neg hd]
      exact ih hfind

theorem State.launch_slot_zero (l : Launch) : (State.launch l).regs.get 0 = 0#32 :=
  Vector.getElem_set_self _

theorem State.readReg_launch (l : Launch) {r : Reg} (hr : r ≠ 0) :
    (State.launch l).readReg r = l.regs.get r := by
  have hv : 0 ≠ r.val := fun h => hr (Fin.ext h.symm)
  rw [State.readReg, if_neg hr]
  exact Vector.getElem_set_ne (by decide) r.isLt hv

/-- The launched state meets the invariant: nothing is stored to and nothing has been executed. -/
theorem State.launch_inv (l : Launch) : (State.launch l).Inv where
  memory := Memory.wf_ofCells l.image
  dirty := rfl
  dirtyMapped := by simp
  zero := State.launch_slot_zero l
  age := Nat.le_refl _
  sequential := fun _ => rfl
  record := by simp
  noRefusal := by simp

/-- Settles O10: the reset state is one of the launches. -/
theorem invariantHoldsAtLaunch : Obligations.InvariantHoldsAtLaunch :=
  ⟨State.launch_inv, State.launch_inv Launch.atReset⟩

/-- Settles O20, row by row of Table R28. -/
theorem launchState : Obligations.LaunchState := by
  intro l
  refine ⟨State.readReg_zero _, rfl, rfl, rfl, rfl, rfl, rfl,
    fun r hr => State.readReg_launch l hr, rfl, rfl, fun a v hfind => ?image⟩
  case image =>
    rw [State.byteAt, State.launch_mem, Memory.get_ofCells_of_find l.image a.isLt hfind]

/-- Settles O21, by what `readReg` answers after `writeReg`. -/
theorem registerZeroIsHardwired : Obligations.RegisterZeroIsHardwired :=
  ⟨State.readReg_zero, State.writeReg_zero,
    fun s r v hr => by simp [State.readReg_writeReg, hr]⟩

end Sys2Proof.Machine

namespace Sys2Proof.Machine

/-! ## The parameters (log 6) -/

/-- No effect of an instruction touches the parameters. -/
theorem Effect.params {i : Instr} {s t : State} (he : Effect i s t) : t.params = s.params := by
  cases he with
  | raised | hiLo | drawn => rfl
  | reg | moved | jumped | stored => simp

/-- Settles O17: a fetch that raises changes `outcome` only, and no effect of an instruction touches
the parameters. -/
theorem parametersNeverChange : Obligations.ParametersNeverChange := by
  intro s t hst
  obtain ⟨-, ⟨-, rfl⟩ | ⟨w, i, -, -, hexec⟩⟩ := step_cases hst
  · rfl
  · exact (exec_effect hexec).params

/-! ## MemRead and MemWrite (R32, R36) -/

section MemoryAccess

variable {s : State} {a : Word}

/-- A range that is not mapped throughout has a first unmapped address. -/
theorem State.firstUnmapped_of_not_mapped {n : Nat} (h : ¬ MappedRange s a n) :
    ∃ u, s.firstUnmapped a n = some u := by
  rw [← s.firstUnmapped_eq_none] at h
  exact Option.ne_none_iff_exists'.mp h

theorem State.memRead_of_not_mapped {n : Nat} (h : ¬ MappedRange s a n) :
    ∃ u, s.memRead a n = .error (.stuck u) := by
  obtain ⟨u, hu⟩ := State.firstUnmapped_of_not_mapped h
  exact ⟨u, by simp [State.memRead, hu]⟩

theorem State.memWrite_of_not_mapped {vs : List Byte} (h : ¬ MappedRange s a vs.length) :
    ∃ u, s.memWrite a vs = .error (.stuck u) := by
  obtain ⟨u, hu⟩ := State.firstUnmapped_of_not_mapped h
  exact ⟨u, by simp [State.memWrite, hu]⟩

theorem State.memWrite_of_mapped {vs : List Byte} (h : MappedRange s a vs.length) :
    s.memWrite a vs = .ok (s.storeBytes a vs) :=
  (s.memWrite_eq_ok _ a vs).mpr ⟨h, rfl⟩

end MemoryAccess

/-- Settles O22: a mapped read answers `bytesAt`, a mapped write `storeBytes`, whose bytes, stored-to
addresses and frame are known; an unmapped range has a first unmapped address, which both report. -/
theorem memoryPrimitives : Obligations.MemoryPrimitives := by
  intro s a
  refine ⟨fun n hm => ?read, fun n => State.memRead_of_not_mapped, fun vs hl hm => ?write,
    fun vs => State.memWrite_of_not_mapped⟩
  case read =>
    exact ⟨s.bytesAt a n, s.memRead_of_mapped a n hm, s.bytesAt_length a n,
      fun k hk => s.getElem_bytesAt a n k hk⟩
  case write =>
    have hstored : Stored s (s.storeBytes a vs) a vs := stored_storeBytes s a vs (by omega)
    exact ⟨s.storeBytes a vs, State.memWrite_of_mapped hm, hstored,
      by simp [SameRegs, SameHiLo, SameRun]⟩

/-! ## Alignment (R34) -/

section Alignment

variable {s t : State}

/-- R34 of the halfword accesses: the instruction raises before it reads or writes anything. -/
theorem exec_half_of_misaligned (rt rs : Reg) (imm : Half) (h : (s.effAddr rs imm).toNat % 2 ≠ 0) :
    exec (.lh rt rs imm) s = raise (.addressError .load (s.effAddr rs imm)) s ∧
    exec (.lhu rt rs imm) s = raise (.addressError .load (s.effAddr rs imm)) s ∧
    exec (.sh rt rs imm) s = raise (.addressError .store (s.effAddr rs imm)) s := by
  simp [exec, execLh, execLhu, execSh, alignedTo_eq_false 2 _ h]

/-- R34 of the word accesses. -/
theorem exec_word_of_misaligned (rt rs : Reg) (imm : Half) (h : (s.effAddr rs imm).toNat % 4 ≠ 0) :
    exec (.lw rt rs imm) s = raise (.addressError .load (s.effAddr rs imm)) s ∧
    exec (.sw rt rs imm) s = raise (.addressError .store (s.effAddr rs imm)) s := by
  simp [exec, execLw, execSw, alignedTo_eq_false 4 _ h]

/-- A load that completes raises nothing. -/
theorem outcome_of_loadInto {rt : Reg} {a : Word} {n : Nat} {f : List Byte → Word}
    (h : loadInto s rt a n f = .next t) : t.outcome = s.outcome := by
  obtain ⟨-, rfl⟩ := (loadInto_eq_next ..).mp h
  simp

/-- A store that completes raises nothing. -/
theorem outcome_of_storeFrom {a : Word} {vs : List Byte}
    (h : storeFrom s a vs = .next t) : t.outcome = s.outcome := by
  obtain ⟨-, rfl⟩ := (storeFrom_eq_next ..).mp h
  simp

end Alignment

/-- Settles O23: the alignment check stands before the access in the halfword and word instructions
and in the fetch; the other seven are a load or a store without one. -/
theorem misalignedAccessesRaise : Obligations.MisalignedAccessesRaise := by
  intro rt rs imm s ea raised
  refine ⟨exec_half_of_misaligned rt rs imm, exec_word_of_misaligned rt rs imm,
    fun i hi t hexec => ?unchecked, fun ho ha => step_of_fetch_error ho (fetch_of_misaligned ha)⟩
  case unchecked =>
    simp only [List.mem_cons, List.not_mem_nil, or_false] at hi
    rcases hi with rfl | rfl | rfl | rfl | hstore
    -- LB, LBU, LWL, LWR
    iterate 4 exact outcome_of_loadInto hexec
    -- SB, SWL, SWR
    rcases hstore with rfl | rfl | rfl <;> exact outcome_of_storeFrom hexec

end Sys2Proof.Machine

/-! ## Encoding: the round trip and the opcode table (R54 to R62) -/

namespace Sys2Proof

/-- Tables R60a to R60c read forwards: the fields of the encoded word lead back to the instruction. -/
theorem decodeRow_encode (i : Instr) : decodeRow (encode i) = some i := by
  cases i with
  -- Table R60a, with LUI's must-be-zero field
  | lb | lbu | lh | lhu | lw | lwl | lwr | sb | sh | sw | swl | swr | addi | addiu | slti | sltiu
  | andi | ori | xori | lui | j | jal =>
    simp [encode, decodeRow]
  -- Table R60c
  | tgei | tgeiu | tlti | tltiu | teqi | tnei => simp [encode, decodeRow, decodeRegimm]
  -- Table R60b
  | _ => simp [encode, decodeRow, decodeSpecial]

/-! ### What a row that accepts a word says of the word's fields -/

section Accepted

variable {r : Row} {w : Word}

theorem opcodeField_of_accepts (h : r.accepts w = true) (hm : opcodeField r.mask = 63#6) :
    opcodeField w = opcodeField r.value := by
  obtain ⟨hop, -⟩ := (Row.accepts_iff r w).mp h
  rwa [hm, and_ones_six] at hop

theorem functField_of_accepts (h : r.accepts w = true) (hm : functField r.mask = 63#6) :
    functField w = functField r.value := by
  obtain ⟨-, -, -, -, -, hf⟩ := (Row.accepts_iff r w).mp h
  rwa [hm, and_ones_six] at hf

theorem rsField_of_accepts (h : r.accepts w = true) (hm : rsBits r.mask = 31#5) :
    rsField w = rsField r.value := by
  obtain ⟨-, hrs, -⟩ := (Row.accepts_iff r w).mp h
  rw [hm, and_ones_five] at hrs
  rw [rsField_eq, rsField_eq, hrs]

theorem rtField_of_accepts (h : r.accepts w = true) (hm : rtBits r.mask = 31#5) :
    rtField w = rtField r.value := by
  obtain ⟨-, -, hrt, -⟩ := (Row.accepts_iff r w).mp h
  rw [hm, and_ones_five] at hrt
  rw [rtField_eq, rtField_eq, hrt]

theorem rdField_of_accepts (h : r.accepts w = true) (hm : rdBits r.mask = 31#5) :
    rdField w = rdField r.value := by
  obtain ⟨-, -, -, hrd, -⟩ := (Row.accepts_iff r w).mp h
  rw [hm, and_ones_five] at hrd
  rw [rdField_eq, rdField_eq, hrd]

theorem saField_of_accepts (h : r.accepts w = true) (hm : saField r.mask = 31#5) :
    saField w = saField r.value := by
  obtain ⟨-, -, -, -, hsa, -⟩ := (Row.accepts_iff r w).mp h
  rwa [hm, and_ones_five] at hsa

/-- A row of opcode 0 sends its words to Table R60b. -/
theorem decodeRow_of_specialRow (h : r.accepts w = true) (hm : opcodeField r.mask = 63#6)
    (hv : opcodeField r.value = 0#6) : decodeRow w = decodeSpecial w := by
  simp [decodeRow, opcodeField_of_accepts h hm, hv]

/-- A row of opcode 1 sends its words to Table R60c. -/
theorem decodeRow_of_regimmRow (h : r.accepts w = true) (hm : opcodeField r.mask = 63#6)
    (hv : opcodeField r.value = 1#6) : decodeRow w = decodeRegimm w := by
  simp [decodeRow, opcodeField_of_accepts h hm, hv]

/-! ### Every row's words decode to an instruction of the row, list by list -/

/-- The word decodes, to an instruction of the row. -/
def DecodesTo (w : Word) (r : Row) : Prop := ∃ i, decodeRow w = some i ∧ rowOf i = r

/-- The opcode alone selects these rows. -/
theorem decodesTo_loadStoreRows (hr : r ∈ loadStoreRows) (h : r.accepts w = true) :
    DecodesTo w r := by
  simp only [loadStoreRows, List.mem_cons, List.not_mem_nil, or_false] at hr
  unfold DecodesTo decodeRow
  rcases hr with rfl | rfl | rfl | rfl | rfl | rfl | rfl | rfl | rfl | rfl | rfl | rfl
  all_goals
    rw [opcodeField_of_accepts h rfl]
    exact ⟨_, rfl, rfl⟩

/-- Opcode and funct select the register rows, whose sa field is zero; the opcode alone selects the
immediate rows, LUI with its rs field zero. -/
theorem decodesTo_arithRows (hr : r ∈ arithRows) (h : r.accepts w = true) : DecodesTo w r := by
  simp only [arithRows, List.mem_cons, List.not_mem_nil, or_false] at hr
  unfold DecodesTo
  rcases hr with rfl | rfl | rfl | rfl | rfl | rfl | rfl | rfl | rfl | rfl | hr
  -- ADD to SLTU
  iterate 10
    rw [decodeRow_of_specialRow h rfl rfl, decodeSpecial, functField_of_accepts h rfl,
      saField_of_accepts h rfl]
    exact ⟨_, rfl, rfl⟩
  rcases hr with rfl | rfl | rfl | rfl | rfl | rfl | rfl | rfl
  all_goals rw [decodeRow, opcodeField_of_accepts h rfl]
  -- ADDI to XORI
  iterate 7 exact ⟨_, rfl, rfl⟩
  -- LUI
  rw [rsField_of_accepts h rfl]
  exact ⟨_, rfl, rfl⟩

/-- The shifts by a constant have a zero rs field, the variable shifts a zero sa field. -/
theorem decodesTo_shiftRows (hr : r ∈ shiftRows) (h : r.accepts w = true) : DecodesTo w r := by
  simp only [shiftRows, List.mem_cons, List.not_mem_nil, or_false] at hr
  unfold DecodesTo
  rcases hr with rfl | rfl | rfl | rfl | rfl | rfl
  all_goals rw [decodeRow_of_specialRow h rfl rfl, decodeSpecial, functField_of_accepts h rfl]
  -- SLL, SRL, SRA
  iterate 3
    rw [rsField_of_accepts h rfl]
    exact ⟨_, rfl, rfl⟩
  -- SLLV, SRLV, SRAV
  all_goals
    rw [saField_of_accepts h rfl]
    exact ⟨_, rfl, rfl⟩

/-- Of rs, rt and rd, each of these rows leaves zero the fields it does not use. -/
theorem decodesTo_mulDivRows (hr : r ∈ mulDivRows) (h : r.accepts w = true) : DecodesTo w r := by
  simp only [mulDivRows, List.mem_cons, List.not_mem_nil, or_false] at hr
  unfold DecodesTo
  rcases hr with rfl | rfl | rfl | rfl | rfl | rfl | rfl | rfl
  all_goals
    rw [decodeRow_of_specialRow h rfl rfl, decodeSpecial, functField_of_accepts h rfl,
      saField_of_accepts h rfl]
  -- MULT, MULTU, DIV, DIVU
  iterate 4
    rw [rdField_of_accepts h rfl]
    exact ⟨_, rfl, rfl⟩
  all_goals rw [rtField_of_accepts h rfl]
  · rw [rsField_of_accepts h rfl] -- MFHI
    exact ⟨_, rfl, rfl⟩
  · rw [rdField_of_accepts h rfl] -- MTHI
    exact ⟨_, rfl, rfl⟩
  · rw [rsField_of_accepts h rfl] -- MFLO
    exact ⟨_, rfl, rfl⟩
  · rw [rdField_of_accepts h rfl] -- MTLO
    exact ⟨_, rfl, rfl⟩

/-- The opcode alone selects J and JAL; JR and JALR leave zero the fields they do not use. -/
theorem decodesTo_jumpRows (hr : r ∈ jumpRows) (h : r.accepts w = true) : DecodesTo w r := by
  simp only [jumpRows, List.mem_cons, List.not_mem_nil, or_false] at hr
  unfold DecodesTo
  rcases hr with rfl | rfl | rfl | rfl
  -- J, JAL
  iterate 2
    rw [decodeRow, opcodeField_of_accepts h rfl]
    exact ⟨_, rfl, rfl⟩
  all_goals
    rw [decodeRow_of_specialRow h rfl rfl, decodeSpecial, functField_of_accepts h rfl,
      rtField_of_accepts h rfl, saField_of_accepts h rfl]
  · rw [rdField_of_accepts h rfl] -- JR
    exact ⟨_, rfl, rfl⟩
  · exact ⟨_, rfl, rfl⟩ -- JALR

/-- SYSCALL and BREAK have no must-be-zero field. -/
theorem decodesTo_specialRows (hr : r ∈ specialRows) (h : r.accepts w = true) :
    DecodesTo w r := by
  simp only [specialRows, List.mem_cons, List.not_mem_nil, or_false] at hr
  unfold DecodesTo
  rcases hr with rfl | rfl
  all_goals
    rw [decodeRow_of_specialRow h rfl rfl, decodeSpecial, functField_of_accepts h rfl]
    exact ⟨_, rfl, rfl⟩

/-- Opcode and funct select the register traps, opcode and rt the immediate ones. -/
theorem decodesTo_trapRows (hr : r ∈ trapRows) (h : r.accepts w = true) : DecodesTo w r := by
  simp only [trapRows, List.mem_cons, List.not_mem_nil, or_false] at hr
  unfold DecodesTo
  rcases hr with rfl | rfl | rfl | rfl | rfl | rfl | hr
  -- the six register traps
  iterate 6
    rw [decodeRow_of_specialRow h rfl rfl, decodeSpecial, functField_of_accepts h rfl]
    exact ⟨_, rfl, rfl⟩
  -- the six immediate traps
  rcases hr with rfl | rfl | rfl | rfl | rfl | rfl
  all_goals
    rw [decodeRow_of_regimmRow h rfl rfl, decodeRegimm, rtField_of_accepts h rfl]
    exact ⟨_, rfl, rfl⟩

/-- A word that some row accepts decodes to an instruction of that row (R58). -/
theorem decodesTo_of_accepts (hr : r ∈ opcodeRows) (h : r.accepts w = true) : DecodesTo w r := by
  simp only [opcodeRows, List.mem_append] at hr
  obtain (((((hr | hr) | hr) | hr) | hr) | hr) | hr := hr
  · exact decodesTo_loadStoreRows hr h
  · exact decodesTo_arithRows hr h
  · exact decodesTo_shiftRows hr h
  · exact decodesTo_mulDivRows hr h
  · exact decodesTo_jumpRows hr h
  · exact decodesTo_specialRows hr h
  · exact decodesTo_trapRows hr h

theorem decode_of_accepts (hr : r ∈ opcodeRows) (h : r.accepts w = true) :
    ∃ i, decode w = .ok i ∧ rowOf i = r := by
  obtain ⟨i, hi, hrow⟩ := decodesTo_of_accepts hr h
  exact ⟨i, (decode_eq_ok w i).mpr hi, hrow⟩

/-- At most one row accepts a word: its words decode, and to one instruction (R58). -/
theorem eq_rowOf_of_accepts {i : Instr} (hd : decode w = .ok i) (hr : r ∈ opcodeRows)
    (h : r.accepts w = true) : r = rowOf i := by
  obtain ⟨k, hk, hrow⟩ := decode_of_accepts hr h
  cases hd.symm.trans hk
  exact hrow.symm

end Accepted

/-- Settles O1: each table's words lead back to their instruction. -/
theorem decodeInvertsEncode : Obligations.DecodeInvertsEncode := by
  intro i
  exact (decode_eq_ok _ i).mpr (decodeRow_encode i)

/-- Settles O2: the tables read backwards, each field of the word standing in the instruction or
fixed by its row. -/
theorem encodeInvertsDecode : Obligations.EncodeInvertsDecode := by
  intro w i hd
  exact encode_of_decode hd

/-- Settles O3: a word that a row accepts decodes to an instruction of that row, so two rows that
accept it are the row of one instruction. -/
theorem decodeAnswersTheUniqueRow : Obligations.DecodeAnswersTheUniqueRow := by
  refine ⟨fun w i hd => ?unique, fun w r hr h => decode_of_accepts hr h⟩
  case unique =>
    obtain ⟨hacc, hmem⟩ := row_of_decode hd
    exact ⟨hmem, hacc, fun r hr h => eq_rowOf_of_accepts hd hr h⟩

/-- Settles O4: no row means no instruction, and the step refuses what its fetch delivered. -/
theorem unlistedWordsAreRefused : Obligations.UnlistedWordsAreRefused := by
  intro w hrow
  have hd : decode w = .error (.notInSpec w) := decode_of_unlisted hrow
  exact ⟨hd, fun s ho hf => Machine.step_of_decode_error ho hf hd⟩

end Sys2Proof

/-! ## Sample words (R58, R61) -/

namespace Sys2Proof

/-- Settles O5: eleven of the words are the encodings of their instructions, and no row of the table
accepts the twelfth. -/
theorem sampleWordsDecode : Obligations.SampleWordsDecode :=
  ⟨decodeInvertsEncode (.lw 2 4 4#16), decodeInvertsEncode (.swl 3 4 1#16),
    decodeInvertsEncode (.addi 2 5 0x11#16), decodeInvertsEncode (.sub 2 9 10),
    decodeInvertsEncode (.sra 2 9 4#5), decodeInvertsEncode (.mult 4 5),
    decodeInvertsEncode (.jal 0x0000408#26), decodeInvertsEncode (.jalr 10 9),
    decodeInvertsEncode (.syscall 0x12345#20), decodeInvertsEncode (.teq 4 6 0x3FF#10),
    decodeInvertsEncode (.tgei 5 0xFFFD#16), decode_of_unlisted (by decide)⟩

/-! ## Bytes of a word under the operations of R76 and R77 -/

theorem getElem_leBytes (w : Word) (k : Nat) (h : k < (leBytes w).length) :
    (leBytes w)[k] = byteOf w k := by
  have hk : k < 4 := h
  interval_cases k <;> rfl

theorem byteOf_or (v w : Word) (k : Nat) : byteOf (v ||| w) k = byteOf v k ||| byteOf w k :=
  BitVec.extractLsb'_or ..

theorem byteOf_and (v w : Word) (k : Nat) : byteOf (v &&& w) k = byteOf v k &&& byteOf w k :=
  BitVec.extractLsb'_and ..

/-- A shift by whole bytes to the left moves byte `k` to `k + n` and brings zeros in below. -/
theorem byteOf_shiftLeft (w : Word) {n k : Nat} (hk : k < 4) :
    byteOf (w <<< (8 * n)) k = if k < n then 0#8 else byteOf w (k - n) := by
  refine BitVec.eq_of_getLsbD_eq fun i hi => ?_
  split
  · simp [byteOf]
    omega
  · simp [byteOf, hi, show 8 * k + i < 32 by omega, show ¬ 8 * k + i < 8 * n by omega,
      show 8 * k + i - 8 * n = 8 * (k - n) + i by omega]
    rw [BitVec.getLsbD_eq_getElem]

/-- A shift by whole bytes to the right moves byte `n + k` to `k`. -/
theorem byteOf_shiftRight (w : Word) (n k : Nat) : byteOf (w >>> (8 * n)) k = byteOf w (n + k) := by
  ext i hi
  simp [byteOf, show 8 * n + (8 * k + i) = 8 * (n + k) + i by omega]

/-- A word has four bytes. -/
theorem byteOf_of_ge (w : Word) {k : Nat} (hk : 4 ≤ k) : byteOf w k = 0#8 := by
  ext i hi
  rw [byteOf, BitVec.getElem_extractLsb', BitVec.getLsbD_of_ge w _ (by omega), BitVec.getElem_zero]

/-- R76's mask: the three low-order bytes. -/
theorem byteOf_lowMask (k : Nat) (hk : k < 8) :
    byteOf 0x00FFFFFF#32 k = if k < 3 then BitVec.allOnes 8 else 0#8 := by
  revert k
  decide

/-- R77's mask: the three high-order bytes. -/
theorem byteOf_highMask (k : Nat) (hk : k < 4) :
    byteOf 0xFFFFFF00#32 k = if k = 0 then 0#8 else BitVec.allOnes 8 := by
  revert k
  decide

end Sys2Proof

namespace Sys2Proof.Machine

/-! ## Loads and stores: encodings, aligned words and what an access leaves (R35, R70, R78) -/

/-- The word of an instruction is what `encode` says, and decodes to it. -/
theorem encodedAs_encode (i : Instr) : EncodedAs i (encode i) := ⟨rfl, decodeInvertsEncode i⟩

theorem lowBits_lt (ea : Word) : lowBits ea < 4 := Nat.mod_lt _ (by decide)

/-- An address is its aligned word's address and its two low bits (R35). -/
theorem wordBase_add_lowBits (ea : Word) : wordBase ea + BitVec.ofNat 32 (lowBits ea) = ea := by
  have hlow : BitVec.ofNat 32 (lowBits ea) = ea &&& 3#32 := by
    apply BitVec.eq_of_toNat_eq
    rw [BitVec.toNat_and, BitVec.toNat_ofNat, lowBits]
    exact (Nat.mod_eq_of_lt (by omega)).trans (Nat.and_two_pow_sub_one_eq_mod ea.toNat 2).symm
  have hmask : 0xFFFFFFFC#32 = ~~~3#32 := rfl
  rw [hlow, wordBase, hmask, BitVec.add_eq_or_of_and_eq_zero]
  · ext i hi
    simp only [BitVec.getElem_or, BitVec.getElem_and, BitVec.getElem_not]
    cases ea[i] <;> simp
  · ext i hi
    simp only [BitVec.getElem_and, BitVec.getElem_not]
    cases (3#32)[i] <;> simp

section Access

variable {s : State} {a : Word} {n : Nat}

theorem mappedRange_one_iff : MappedRange s a 1 ↔ s.isMapped a = true :=
  ⟨fun h => by simpa using h 0 (by omega), mappedRange_one s a⟩

theorem MappedRange.mono {m : Nat} (h : MappedRange s a n) (hle : m ≤ n) : MappedRange s a m :=
  fun k hk => h k (hk.trans_le hle)

/-- A part of a mapped range is mapped. -/
theorem MappedRange.part {j m : Nat} (h : MappedRange s a n) (hle : j + m ≤ n) :
    MappedRange s (a + BitVec.ofNat 32 j) m := by
  intro k hk
  rw [BitVec.add_assoc, ← BitVec.ofNat_add]
  exact h (j + k) (by omega)

/-- What is mapped depends on the parameters only (R36). -/
theorem MappedRange.of_params {t : State} (h : MappedRange s a n) (hp : t.params = s.params) :
    MappedRange t a n := by
  intro k hk
  rw [State.isMapped, hp]
  exact h k hk

/-- A load of mapped bytes writes the value made of them, and does nothing else. -/
theorem loadInto_onlyReg {rt : Reg} {f : List Byte → Word} {v : Word} (h : MappedRange s a n)
    (hv : f (s.bytesAt a n) = v) : ∃ t, loadInto s rt a n f = .next t ∧ OnlyReg s t rt v :=
  ⟨_, loadInto_of_mapped s rt a n f h, hv ▸ onlyReg_writeReg_retire s rt _⟩

/-- A store to mapped addresses writes the bytes, and does nothing else. -/
theorem storeFrom_onlyStored {vs : List Byte} (h : MappedRange s a vs.length)
    (hl : vs.length ≤ 4) : ∃ t, storeFrom s a vs = .next t ∧ OnlyStored s t a vs :=
  ⟨_, storeFrom_of_mapped s a vs h, onlyStored_storeBytes_retire s a vs (by omega)⟩

theorem State.leValue_bytesAt_one : (leValue (s.bytesAt a 1)).setWidth 8 = s.byteAt a := by
  rw [s.bytesAt_one, leValue_one, BitVec.setWidth_setWidth_of_le _ (by omega), BitVec.setWidth_eq]

theorem State.bytesAt_congr {t : State} (h : ∀ b, t.byteAt b = s.byteAt b) :
    t.bytesAt a n = s.bytesAt a n := by
  refine List.ext_getElem (by simp) fun k hk hk' => ?_
  rw [t.getElem_bytesAt, s.getElem_bytesAt, h]

theorem State.getD_bytesAt {k : Nat} (hk : k < n) :
    (s.bytesAt a n).getD k 0#8 = s.byteAt (a + BitVec.ofNat 32 k) := by
  have hk' : k < (s.bytesAt a n).length := by simpa using hk
  rw [List.getD_eq_getElem _ _ hk', s.getElem_bytesAt a n k hk']

theorem State.byteOf_wordAt {k : Nat} (hk : k < 4) :
    byteOf (s.wordAt a) k = s.byteAt (a + BitVec.ofNat 32 k) := by
  rw [← s.leValue_bytesAt_four, byteOf_leValue _ _ hk, State.getD_bytesAt hk]

/-- The word in memory is the word whose bytes stand there. -/
theorem State.wordAt_eq_of_bytes {w : Word}
    (h : ∀ k, k < 4 → s.byteAt (a + BitVec.ofNat 32 k) = byteOf w k) : s.wordAt a = w :=
  word_ext _ _ fun k hk => (State.byteOf_wordAt hk).trans (h k hk)

/-- A stored word is read back. -/
theorem wordAt_of_stored {t : State} {w : Word} (h : Stored s t a (leBytes w)) :
    t.wordAt a = w := by
  obtain ⟨hbytes, -, -⟩ := h
  exact State.wordAt_eq_of_bytes fun k hk => (hbytes k hk).trans (getElem_leBytes w k hk)

end Access

section Aligned

variable {s : State} (rt rs : Reg) (imm : Half)

theorem exec_half_of_aligned (h : (s.effAddr rs imm).toNat % 2 = 0) :
    exec (.lh rt rs imm) s = loadInto s rt (s.effAddr rs imm) 2
      (fun bs => ((leValue bs).setWidth 16).signExtend 32) ∧
    exec (.lhu rt rs imm) s = loadInto s rt (s.effAddr rs imm) 2
      (fun bs => ((leValue bs).setWidth 16).setWidth 32) ∧
    exec (.sh rt rs imm) s = storeFrom s (s.effAddr rs imm) ((leBytes (s.readReg rt)).take 2) := by
  simp only [exec, execLh, execLhu, execSh, alignedTo_eq_true 2 _ h, if_true, and_self]

theorem exec_word_of_aligned (h : (s.effAddr rs imm).toNat % 4 = 0) :
    exec (.lw rt rs imm) s = loadInto s rt (s.effAddr rs imm) 4 leValue ∧
    exec (.sw rt rs imm) s = storeFrom s (s.effAddr rs imm) (leBytes (s.readReg rt)) := by
  simp only [exec, execLw, execSw, alignedTo_eq_true 4 _ h, if_true, and_self]

end Aligned

/-! ## The loads and stores of a byte, a halfword and a word (R71 to R75, R79 to R81) -/

/-- Settles O24: one byte is read, and sign- or zero-extended. -/
theorem loadByte : Obligations.LoadByte := by
  intro rt rs imm
  refine ⟨encodedAs_encode _, encodedAs_encode _, fun s => ⟨fun hm => ?mapped, fun hm => ?stuck⟩⟩
  case mapped =>
    have hrange := mappedRange_one s _ hm
    exact ⟨loadInto_onlyReg hrange (congrArg _ State.leValue_bytesAt_one),
      loadInto_onlyReg hrange (congrArg _ State.leValue_bytesAt_one)⟩
  case stuck =>
    have hrange := mt mappedRange_one_iff.mp (Bool.eq_false_iff.mp hm)
    exact ⟨loadInto_not_mapped s rt _ 1 _ hrange, loadInto_not_mapped s rt _ 1 _ hrange⟩

/-- Settles O25: an even address is read from, an odd one raises before any mapping check. -/
theorem loadHalfword : Obligations.LoadHalfword := by
  intro rt rs imm
  refine ⟨encodedAs_encode _, encodedAs_encode _,
    fun s => ⟨fun ha hm => ?mapped, fun ha => ?misaligned, fun ha hm => ?stuck⟩⟩
  case mapped =>
    obtain ⟨hlh, hlhu, -⟩ := exec_half_of_aligned rt rs imm ha
    rw [hlh, hlhu]
    exact ⟨loadInto_onlyReg hm (congrArg _ (s.leValue_bytesAt_two _)),
      loadInto_onlyReg hm (congrArg _ (s.leValue_bytesAt_two _))⟩
  case misaligned =>
    obtain ⟨hlh, hlhu, -⟩ := exec_half_of_misaligned rt rs imm ha
    exact ⟨hlh, hlhu⟩
  case stuck =>
    obtain ⟨hlh, hlhu, -⟩ := exec_half_of_aligned rt rs imm ha
    rw [hlh, hlhu]
    exact ⟨loadInto_not_mapped s rt _ 2 _ hm, loadInto_not_mapped s rt _ 2 _ hm⟩

/-- Settles O26: the four bytes read make the little-endian word. -/
theorem loadWord : Obligations.LoadWord := by
  intro rt rs imm
  refine ⟨encodedAs_encode _,
    fun s => ⟨fun ha hm => ?mapped, fun ha => ?misaligned, fun ha hm => ?stuck⟩⟩
  case mapped =>
    rw [(exec_word_of_aligned rt rs imm ha).1]
    exact loadInto_onlyReg hm (s.leValue_bytesAt_four _)
  case misaligned => exact (exec_word_of_misaligned rt rs imm ha).1
  case stuck =>
    rw [(exec_word_of_aligned rt rs imm ha).1]
    exact loadInto_not_mapped s rt _ 4 _ hm

/-- Settles O30: byte 0 of rt is the one byte stored. -/
theorem storeByte : Obligations.StoreByte := by
  intro rt rs imm
  refine ⟨encodedAs_encode _, fun s => ⟨fun hm => ?mapped, fun hm => ?stuck⟩⟩
  case mapped =>
    exact storeFrom_onlyStored (vs := [byteOf (s.readReg rt) 0]) (mappedRange_one s _ hm) (by simp)
  case stuck =>
    exact storeFrom_not_mapped s _ [byteOf (s.readReg rt) 0]
      (mt mappedRange_one_iff.mp (Bool.eq_false_iff.mp hm))

/-- Settles O31: bytes 0 and 1 of rt are stored at an even address; an odd one raises. -/
theorem storeHalfword : Obligations.StoreHalfword := by
  intro rt rs imm
  refine ⟨encodedAs_encode _,
    fun s => ⟨fun ha hm => ?mapped, fun ha => ?misaligned, fun ha hm => ?stuck⟩⟩
  case mapped =>
    obtain ⟨-, -, hsh⟩ := exec_half_of_aligned rt rs imm ha
    rw [hsh]
    exact storeFrom_onlyStored hm (by simp)
  case misaligned =>
    obtain ⟨-, -, hsh⟩ := exec_half_of_misaligned rt rs imm ha
    exact hsh
  case stuck =>
    obtain ⟨-, -, hsh⟩ := exec_half_of_aligned rt rs imm ha
    rw [hsh]
    exact storeFrom_not_mapped s _ _ hm

/-- Settles O32: the four stored bytes are those of rt, so the word read back is rt. -/
theorem storeWord : Obligations.StoreWord := by
  intro rt rs imm
  refine ⟨encodedAs_encode _,
    fun s => ⟨fun ha hm => ?mapped, fun ha => ?misaligned, fun ha hm => ?stuck⟩⟩
  case mapped =>
    obtain ⟨t, hstore, honly⟩ :=
      storeFrom_onlyStored (vs := leBytes (s.readReg rt)) hm (leBytes_length _).le
    exact ⟨t, (exec_word_of_aligned rt rs imm ha).2.trans hstore, wordAt_of_stored honly.1, honly⟩
  case misaligned => exact (exec_word_of_misaligned rt rs imm ha).2
  case stuck =>
    rw [(exec_word_of_aligned rt rs imm ha).2]
    exact storeFrom_not_mapped s _ _ hm

/-! ## LWL and LWR (R76, R77) -/

section Merge

variable (old : Word) {bs : List Byte} {k : Nat}

theorem byteOf_mergeLeft_kept (hk : k < 4 - bs.length) :
    byteOf (mergeLeft old bs) k = byteOf old k := by
  have hlen : k < ((leBytes old).take (4 - bs.length)).length := by simp; omega
  rw [mergeLeft, byteOf_leValue _ _ (by omega), List.getD_append _ _ _ _ hlen,
    List.getD_eq_getElem _ _ hlen, List.getElem_take, getElem_leBytes]

theorem byteOf_mergeLeft_read (hl : bs.length ≤ 4) (hk : k < bs.length) :
    byteOf (mergeLeft old bs) (4 - bs.length + k) = bs.getD k 0#8 := by
  have hlen : ((leBytes old).take (4 - bs.length)).length = 4 - bs.length := by simp
  rw [mergeLeft, byteOf_leValue _ _ (by omega), List.getD_append_right _ _ _ _ (by omega), hlen,
    Nat.add_sub_cancel_left]

theorem byteOf_mergeRight_read (hk : k < bs.length) (hk4 : k < 4) :
    byteOf (mergeRight old bs) k = bs.getD k 0#8 := by
  rw [mergeRight, byteOf_leValue _ _ hk4, List.getD_append _ _ _ _ hk]

theorem byteOf_mergeRight_kept (hk : bs.length ≤ k) (hk4 : k < 4) :
    byteOf (mergeRight old bs) k = byteOf old k := by
  have hlen : k - bs.length < ((leBytes old).drop bs.length).length := by simp; omega
  have hidx : bs.length + (k - bs.length) = k := by omega
  rw [mergeRight, byteOf_leValue _ _ hk4, List.getD_append_right _ _ _ _ hk,
    List.getD_eq_getElem _ _ hlen, List.getElem_drop, getElem_leBytes, hidx]

end Merge

section LeftRight

variable (s : State) (old a : Word) {b k : Nat}

/-- R76: the bytes read stand from byte `3 - b` on. -/
theorem byteOf_lwl_read (hb : b < 4) (hk : k ≤ b) :
    byteOf (mergeLeft old (s.bytesAt a (b + 1))) (3 - b + k) =
      s.byteAt (a + BitVec.ofNat 32 k) := by
  have h := byteOf_mergeLeft_read old (bs := s.bytesAt a (b + 1)) (k := k) (by simp; omega)
    (by simp; omega)
  rw [s.bytesAt_length, State.getD_bytesAt (by omega)] at h
  rwa [show 3 - b = 4 - (b + 1) by omega]

/-- R76: the bytes below stay. -/
theorem byteOf_lwl_kept (hk : k < 3 - b) :
    byteOf (mergeLeft old (s.bytesAt a (b + 1))) k = byteOf old k :=
  byteOf_mergeLeft_kept old (by simp; omega)

/-- R77: the bytes read stand from byte 0 on. -/
theorem byteOf_lwr_read (hk : k < 4 - b) :
    byteOf (mergeRight old (s.bytesAt a (4 - b))) k = s.byteAt (a + BitVec.ofNat 32 k) := by
  rw [byteOf_mergeRight_read old (by simpa using hk) (by omega), State.getD_bytesAt hk]

/-- R77: the bytes above stay. -/
theorem byteOf_lwr_kept (hk : 4 - b ≤ k) (hk4 : k < 4) :
    byteOf (mergeRight old (s.bytesAt a (4 - b))) k = byteOf old k :=
  byteOf_mergeRight_kept old (by simpa using hk) hk4

/-- R76's equivalent with shifts: the aligned word moved up, below it what the mask keeps of rt. -/
theorem mergeLeft_eq_shift (hb : b < 4) :
    mergeLeft old (s.bytesAt a (b + 1)) =
      (s.wordAt a <<< (8 * (3 - b))) ||| (old &&& (0x00FFFFFF#32 >>> (8 * b))) := by
  refine word_ext _ _ fun k hk => ?_
  rw [byteOf_or, byteOf_and, byteOf_shiftLeft _ hk, byteOf_shiftRight, byteOf_lowMask _ (by omega)]
  by_cases hlow : k < 3 - b
  · rw [byteOf_lwl_kept s old a hlow, if_pos hlow, if_pos (by omega), BitVec.and_allOnes,
      BitVec.zero_or]
  · have hread := byteOf_lwl_read s old a hb (k := k - (3 - b)) (by omega)
    rw [show 3 - b + (k - (3 - b)) = k by omega] at hread
    rw [hread, if_neg hlow, if_neg (by omega), State.byteOf_wordAt (by omega), BitVec.and_zero,
      BitVec.or_zero]

/-- R77's equivalent with shifts: the aligned word moved down, above it what the mask
keeps of rt. -/
theorem mergeRight_eq_shift (hb : b < 4) :
    mergeRight old (s.bytesAt (a + BitVec.ofNat 32 b) (4 - b)) =
      (s.wordAt a >>> (8 * b)) ||| (old &&& (0xFFFFFF00#32 <<< (8 * (3 - b)))) := by
  refine word_ext _ _ fun k hk => ?_
  rw [byteOf_or, byteOf_and, byteOf_shiftRight, byteOf_shiftLeft _ hk]
  by_cases hlow : k < 4 - b
  · have hmask : (if k < 3 - b then 0#8 else byteOf 0xFFFFFF00#32 (k - (3 - b))) = 0#8 := by
      split
      · rfl
      · rw [byteOf_highMask _ (by omega), if_pos (by omega)]
    rw [byteOf_lwr_read s old _ hlow, hmask, State.byteOf_wordAt (by omega), BitVec.and_zero,
      BitVec.or_zero, BitVec.add_assoc, ← BitVec.ofNat_add]
  · rw [byteOf_lwr_kept s old _ (by omega) hk, byteOf_of_ge (s.wordAt a) (by omega),
      if_neg (by omega), byteOf_highMask _ (by omega), if_neg (by omega), BitVec.and_allOnes, BitVec.zero_or]

end LeftRight

/-- Settles O27, by the bytes of the merged word. -/
theorem loadWordLeft : Obligations.LoadWordLeft := by
  intro rt rs imm
  refine ⟨encodedAs_encode _, fun s => ?_⟩
  intro ea b A
  have hb : b < 4 := lowBits_lt ea
  refine ⟨fun hm => ?mapped, fun hm => loadInto_not_mapped s rt A (b + 1) _ hm⟩
  case mapped =>
    obtain ⟨t, hload, honly⟩ := loadInto_onlyReg (rt := rt) (f := mergeLeft (s.readReg rt)) hm rfl
    exact ⟨t, _, hload, honly, fun k hk => byteOf_lwl_read s _ A hb hk,
      fun j hj => byteOf_lwl_kept s _ A hj, mergeLeft_eq_shift s _ A hb⟩

/-- Settles O28, by the bytes of the merged word. -/
theorem loadWordRight : Obligations.LoadWordRight := by
  intro rt rs imm
  refine ⟨encodedAs_encode _, fun s => ?_⟩
  intro ea b A
  have hb : b < 4 := lowBits_lt ea
  have hexec : exec (.lwr rt rs imm) s =
      loadInto s rt (A + BitVec.ofNat 32 b) (4 - b) (mergeRight (s.readReg rt)) :=
    congrArg (loadInto s rt · (4 - b) _) (wordBase_add_lowBits ea).symm
  rw [hexec]
  refine ⟨fun hm => ?mapped, fun hm => loadInto_not_mapped s rt _ (4 - b) _ hm⟩
  case mapped =>
    obtain ⟨t, hload, honly⟩ := loadInto_onlyReg (rt := rt) (f := mergeRight (s.readReg rt)) hm rfl
    refine ⟨t, _, hload, honly, fun k hbk hk => ?read, fun j hj hj4 => byteOf_lwr_kept s _ _ hj hj4,
      mergeRight_eq_shift s _ A hb⟩
    case read =>
      rw [byteOf_lwr_read s _ _ (by omega), BitVec.add_assoc, ← BitVec.ofNat_add,
        Nat.add_sub_cancel' hbk]

/-! ## SWL and SWR (R82, R83) -/

/-- Settles O33: the bytes of rt from `3 - b` on, stored from `A` on. -/
theorem storeWordLeft : Obligations.StoreWordLeft := by
  intro rt rs imm
  refine ⟨encodedAs_encode _, fun s => ?_⟩
  intro ea b A
  have hb : b < 4 := lowBits_lt ea
  have hlen : ((leBytes (s.readReg rt)).drop (3 - b)).length = b + 1 := by simp; omega
  have hexec : exec (.swl rt rs imm) s =
      storeFrom s A ((leBytes (s.readReg rt)).drop (3 - b)) := rfl
  rw [hexec]
  refine ⟨fun hm => ?mapped, fun hm => storeFrom_not_mapped s A _ (by rwa [hlen])⟩
  case mapped =>
    obtain ⟨t, hstore, honly⟩ := storeFrom_onlyStored (hlen ▸ hm) (by omega)
    exact ⟨t, _, hstore, hlen, honly, fun k hk => by rw [List.getElem_drop, getElem_leBytes]⟩

/-- Settles O34: the low-order bytes of rt, stored from `A + b` on. -/
theorem storeWordRight : Obligations.StoreWordRight := by
  intro rt rs imm
  refine ⟨encodedAs_encode _, fun s => ?_⟩
  intro ea b A
  have hlen : ((leBytes (s.readReg rt)).take (4 - b)).length = 4 - b := by simp
  have hexec : exec (.swr rt rs imm) s =
      storeFrom s (A + BitVec.ofNat 32 b) ((leBytes (s.readReg rt)).take (4 - b)) :=
    congrArg (storeFrom s · _) (wordBase_add_lowBits ea).symm
  rw [hexec]
  refine ⟨fun hm => ?mapped, fun hm => storeFrom_not_mapped s _ _ (by rwa [hlen])⟩
  case mapped =>
    obtain ⟨t, hstore, honly⟩ := storeFrom_onlyStored (hlen ▸ hm) (by omega)
    exact ⟨t, _, hstore, hlen, honly, fun k hk => by rw [List.getElem_take, getElem_leBytes]⟩

/-! ## The pairs that access an unaligned word (R77, R83) -/

section Unaligned

variable (s : State) (rt rs : Reg) (p : Word)

theorem effAddr_offset_zero : s.effAddr rs 0#16 = s.readReg rs := BitVec.add_zero _

theorem effAddr_offset_three : s.effAddr rs 3#16 = s.readReg rs + 3#32 := rfl

/-- How many bytes of the word at `p` lie below the aligned word that holds `p + 3`: those that LWL
and SWL with offset 3 leave to the other instruction of the pair. -/
def bytesBelow (p : Word) : Nat := 3 - lowBits (p + 3#32)

theorem bytesBelow_le : bytesBelow p ≤ 3 := Nat.sub_le _ _

/-- The aligned word that holds `p + 3` begins behind those bytes. -/
theorem wordBase_add_three : wordBase (p + 3#32) = p + BitVec.ofNat 32 (bytesBelow p) := by
  have hlow := lowBits_lt (p + 3#32)
  refine (BitVec.add_left_inj (BitVec.ofNat 32 (lowBits (p + 3#32)))).mp ?_
  rw [wordBase_add_lowBits, BitVec.add_assoc, ← BitVec.ofNat_add, bytesBelow,
    Nat.sub_add_cancel (by omega)]

/-- LWL and SWL with offset 3 access the bytes from there to `p + 3`. -/
theorem lowBits_add_three : lowBits (p + 3#32) + 1 = 4 - bytesBelow p := by
  have hlow := lowBits_lt (p + 3#32)
  unfold bytesBelow
  omega

/-- LWR and SWR with offset 0 access the bytes below, and no byte behind `p + 3`. -/
theorem bytesBelow_le_right : bytesBelow p ≤ 4 - lowBits p := by
  have hadd : (p + 3#32).toNat = (p.toNat + 3) % 2 ^ 32 := BitVec.toNat_add ..
  unfold bytesBelow lowBits
  omega

variable {s p}

/-- LWR with offset 0 completes if the word at `x[rs]` is mapped. -/
theorem exec_lwr_zero (hp : s.readReg rs = p) (hm : MappedRange s p 4) :
    ∃ t, exec (.lwr rt rs 0#16) s = .next t ∧
      OnlyReg s t rt (mergeRight (s.readReg rt) (s.bytesAt p (4 - lowBits p))) := by
  have hea : s.effAddr rs 0#16 = p := (effAddr_offset_zero s rs).trans hp
  simp only [exec, execLwr, hea]
  exact loadInto_onlyReg (hm.mono (Nat.sub_le _ _)) rfl

/-- LWL with offset 3 completes if the word at `x[rs]` is mapped. -/
theorem exec_lwl_three (hp : s.readReg rs = p) (hm : MappedRange s p 4) :
    ∃ t, exec (.lwl rt rs 3#16) s = .next t ∧
      OnlyReg s t rt (mergeLeft (s.readReg rt)
        (s.bytesAt (p + BitVec.ofNat 32 (bytesBelow p)) (4 - bytesBelow p))) := by
  have hea : s.effAddr rs 3#16 = p + 3#32 := by rw [effAddr_offset_three, hp]
  have hle := bytesBelow_le p
  simp only [exec, execLwl, hea, wordBase_add_three, lowBits_add_three]
  exact loadInto_onlyReg (hm.part (by omega)) rfl

/-- SWR with offset 0 completes if the word at `x[rs]` is mapped. -/
theorem exec_swr_zero (hp : s.readReg rs = p) (hm : MappedRange s p 4) :
    ∃ t, exec (.swr rt rs 0#16) s = .next t ∧
      OnlyStored s t p ((leBytes (s.readReg rt)).take (4 - lowBits p)) := by
  have hea : s.effAddr rs 0#16 = p := (effAddr_offset_zero s rs).trans hp
  simp only [exec, execSwr, hea]
  exact storeFrom_onlyStored (hm.mono (by simp)) (by simp)

/-- SWL with offset 3 completes if the word at `x[rs]` is mapped. -/
theorem exec_swl_three (hp : s.readReg rs = p) (hm : MappedRange s p 4) :
    ∃ t, exec (.swl rt rs 3#16) s = .next t ∧
      OnlyStored s t (p + BitVec.ofNat 32 (bytesBelow p))
        ((leBytes (s.readReg rt)).drop (bytesBelow p)) := by
  have hea : s.effAddr rs 3#16 = p + 3#32 := by rw [effAddr_offset_three, hp]
  have hle := bytesBelow_le p
  simp only [exec, execSwl, hea, wordBase_add_three, ← bytesBelow.eq_def]
  exact storeFrom_onlyStored (hm.part (by simp; omega)) (by simp)

/-- The bytes LWR left below, and those LWL reads behind them, are the bytes of the word at `p`. -/
theorem mergeLeft_mergeRight (s : State) (p old : Word) :
    mergeLeft (mergeRight old (s.bytesAt p (4 - lowBits p)))
      (s.bytesAt (p + BitVec.ofNat 32 (bytesBelow p)) (4 - bytesBelow p)) = s.wordAt p := by
  have hle := bytesBelow_le p
  have hright := bytesBelow_le_right p
  refine word_ext _ _ fun k hk => ?_
  rw [State.byteOf_wordAt hk]
  by_cases hlow : k < bytesBelow p
  · rw [byteOf_mergeLeft_kept _ (by simp; omega), byteOf_lwr_read s old p (by omega)]
  · obtain ⟨j, rfl⟩ := Nat.exists_eq_add_of_le (Nat.not_lt.mp hlow)
    have hread := byteOf_mergeLeft_read (mergeRight old (s.bytesAt p (4 - lowBits p)))
      (bs := s.bytesAt (p + BitVec.ofNat 32 (bytesBelow p)) (4 - bytesBelow p))
      (k := j) (by simp) (by simp; omega)
    rw [s.bytesAt_length, State.getD_bytesAt (by omega), BitVec.add_assoc,
      ← BitVec.ofNat_add] at hread
    rwa [show 4 - (4 - bytesBelow p) = bytesBelow p by omega] at hread

variable {t u : State} {w : Word}

/-- The bytes SWR stored below, and those SWL stored behind them, make up the word. -/
theorem wordAt_of_stored_pair (hright : Stored s t p ((leBytes w).take (4 - lowBits p)))
    (hleft : Stored t u (p + BitVec.ofNat 32 (bytesBelow p)) ((leBytes w).drop (bytesBelow p))) :
    u.wordAt p = w := by
  obtain ⟨hbytes, -, -⟩ := hright
  obtain ⟨hbytes', hkept', -⟩ := hleft
  have hle := bytesBelow_le_right p
  refine State.wordAt_eq_of_bytes fun k hk => ?_
  by_cases hlow : k < bytesBelow p
  · rw [hkept' _ ?notLeft, hbytes k (by simp; omega), List.getElem_take, getElem_leBytes]
    case notLeft =>
      intro j hj heq
      rw [List.length_drop, leBytes_length] at hj
      rw [BitVec.add_assoc, ← BitVec.ofNat_add] at heq
      have := add_ofNat_inj p _ _ (by omega) (by omega) heq
      omega
  · obtain ⟨j, rfl⟩ := Nat.exists_eq_add_of_le (Nat.not_lt.mp hlow)
    rw [BitVec.ofNat_add, ← BitVec.add_assoc, hbytes' j (by simp; omega), List.getElem_drop,
      getElem_leBytes]

/-- Neither store of the pair reaches outside the word at `p`. -/
theorem byteAt_of_stored_pair (hright : Stored s t p ((leBytes w).take (4 - lowBits p)))
    (hleft : Stored t u (p + BitVec.ofNat 32 (bytesBelow p)) ((leBytes w).drop (bytesBelow p)))
    {a : Word} (ha : ∀ k, k < 4 → a ≠ p + BitVec.ofNat 32 k) : u.byteAt a = s.byteAt a := by
  obtain ⟨-, hkept, -⟩ := hright
  obtain ⟨-, hkept', -⟩ := hleft
  rw [hkept' a ?notLeft, hkept a ?notRight]
  case notLeft =>
    intro j hj
    rw [List.length_drop, leBytes_length] at hj
    rw [BitVec.add_assoc, ← BitVec.ofNat_add]
    exact ha _ (by omega)
  case notRight =>
    intro j hj
    rw [List.length_take, leBytes_length] at hj
    exact ha j (by omega)

end Unaligned

/-- Settles O29: LWR reads the bytes of the word below the aligned word that holds `p + 3`, and LWL
the others, from a memory and a base register that LWR left alone. -/
theorem loadPairReadsUnalignedWord : Obligations.LoadPairReadsUnalignedWord := by
  intro rt rs s hrt hne hm
  obtain ⟨t, ht, ⟨hval, hother⟩, -, ⟨hmem, -⟩, -, -, hparams, -⟩ := exec_lwr_zero rt rs rfl hm
  have hbase : t.readReg rs = s.readReg rs := hother rs hne.symm
  obtain ⟨u, hu, ⟨hval', hother'⟩, -, ⟨hmem', -⟩, -⟩ :=
    exec_lwl_three rt rs hbase (hm.of_params hparams)
  refine ⟨t, u, ht, hu, ?value, fun r hr => (hother' r hr).trans (hother r hr),
    fun a => (hmem' a).trans (hmem a)⟩
  case value =>
    rw [hval', hval, if_neg hrt, if_neg hrt, State.bytesAt_congr hmem]
    exact mergeLeft_mergeRight s _ _

/-- Settles O35: SWR stores the bytes of the word below the aligned word that holds `p + 3`, and SWL
the others; no register changes between them. -/
theorem storePairWritesUnalignedWord : Obligations.StorePairWritesUnalignedWord := by
  intro rt rs s hm
  obtain ⟨t, ht, hright, hregs, -, -, -, hparams, -⟩ := exec_swr_zero rt rs rfl hm
  obtain ⟨u, hu, hleft, hregs', -⟩ := exec_swl_three rt rs (hregs rs) (hm.of_params hparams)
  rw [hregs rt] at hleft
  exact ⟨t, u, ht, hu, wordAt_of_stored_pair hright hleft,
    fun a ha => byteAt_of_stored_pair hright hleft ha, fun r => (hregs' r).trans (hregs r)⟩

end Sys2Proof.Machine

namespace Sys2Proof.Machine

/-! ## Immediates, exact results and truth values (R6, R59, R90, R99) -/

/-- The sign-extended immediate keeps the signed value of its field. -/
@[simp] theorem toInt_sextImm (imm : Half) : (sextImm imm).toInt = imm.toInt :=
  BitVec.toInt_signExtend_of_le (by decide)

theorem getLsbD_zextImm (imm : Half) {k : Nat} (hk : k < 32) :
    (zextImm imm).getLsbD k = (decide (k < 16) && imm.getLsbD k) := by
  rw [zextImm, BitVec.getLsbD_setWidth, decide_eq_true hk, Bool.true_and]
  by_cases hfield : k < 16
  · simp [hfield]
  · simp [hfield, BitVec.getLsbD_of_ge imm k (by omega)]

theorem getLsbD_and_zextImm (a : Word) (imm : Half) {k : Nat} (hk : k < 32) :
    (a &&& zextImm imm).getLsbD k = (a.getLsbD k && decide (k < 16) && imm.getLsbD k) := by
  rw [BitVec.getLsbD_and, getLsbD_zextImm imm hk, Bool.and_assoc]

theorem getLsbD_upperImm (imm : Half) (k : Nat) :
    (upperImm imm).getLsbD k = (decide (16 ≤ k) && imm.getLsbD (k - 16)) := by
  rw [upperImm, BitVec.getLsbD_append]
  by_cases hlow : k < 16
  · simp [hlow]
  · simp [hlow, Nat.not_lt.mp hlow]

theorem getLsbD_nor (a b : Word) {k : Nat} (hk : k < 32) :
    (~~~(a ||| b)).getLsbD k = !(a.getLsbD k || b.getLsbD k) := by
  rw [BitVec.getLsbD_not, BitVec.getLsbD_or, decide_eq_true hk, Bool.true_and]

theorem truthWord_decide (p : Prop) [Decidable p] :
    truthWord (decide p) = if p then 1#32 else 0#32 := by
  simp [truthWord]

/-- A 32-bit word is the residue of its signed value. -/
theorem toNat_eq_toInt_emod (a : Word) : (a.toNat : Int) = a.toInt % 2 ^ 32 := by
  rw [BitVec.toInt_eq_toNat_cond]
  omega

theorem toNat_sub_eq_emod (a b : Word) :
    ((a - b).toNat : Int) = ((a.toNat : Int) - b.toNat) % 2 ^ 32 := by
  rw [BitVec.toNat_sub]
  omega

theorem toNat_add_sextImm (a : Word) (imm : Half) :
    ((a + sextImm imm).toNat : Int) = ((a.toNat : Int) + imm.toInt) % 2 ^ 32 := by
  have himm := toNat_eq_toInt_emod (sextImm imm)
  rw [toInt_sextImm] at himm
  rw [BitVec.toNat_add]
  omega

/-- The exact sum fits exactly when signed addition does not overflow. -/
theorem fitsSigned_add (a b : Word) : fitsSigned (a.toInt + b.toInt) = !a.saddOverflow b := by
  rw [Bool.eq_iff_iff, fitsSigned_iff, Bool.not_eq_true', BitVec.saddOverflow, Bool.or_eq_false_iff,
    decide_eq_false_iff_not, decide_eq_false_iff_not]
  omega

/-- The exact difference fits exactly when signed subtraction does not overflow. -/
theorem fitsSigned_sub (a b : Word) : fitsSigned (a.toInt - b.toInt) = !a.ssubOverflow b := by
  rw [Bool.eq_iff_iff, fitsSigned_iff, Bool.not_eq_true', BitVec.ssubOverflow, Bool.or_eq_false_iff,
    decide_eq_false_iff_not, decide_eq_false_iff_not]
  omega

/-- R91's sign condition. -/
theorem fitsSigned_add_eq_false_iff (a b : Word) :
    fitsSigned (a.toInt + b.toInt) = false ↔ a.msb = b.msb ∧ (a + b).msb ≠ a.msb := by
  rw [fitsSigned_add, BitVec.saddOverflow_eq]
  simp

/-- R93's sign condition. -/
theorem fitsSigned_sub_eq_false_iff (a b : Word) :
    fitsSigned (a.toInt - b.toInt) = false ↔ a.msb ≠ b.msb ∧ (a - b).msb = b.msb := by
  rw [fitsSigned_sub, BitVec.ssubOverflow_eq]
  cases a.msb <;> cases b.msb <;> simp

theorem fitsSigned_eq_false_iff (x : Int) :
    fitsSigned x = false ↔ ¬ (-2 ^ 31 ≤ x ∧ x ≤ 2 ^ 31 - 1) := by
  rw [← fitsSigned_iff, Bool.not_eq_true]

/-! ## Arithmetic and logic (R91 to R108) -/

section Results

variable {s : State} {rd : Reg} {x : Int}

theorem writeExact_of_fits (h : -2 ^ 31 ≤ x ∧ x ≤ 2 ^ 31 - 1) :
    ∃ t, writeExact s rd x = .next t ∧ OnlyReg s t rd (BitVec.ofInt 32 x) :=
  ⟨_, (writeExact_eq_next ..).mpr (.inl ⟨(fitsSigned_iff x).mpr h, rfl⟩),
    onlyReg_writeReg_retire s rd _⟩

theorem writeExact_of_not_fits (h : ¬ (-2 ^ 31 ≤ x ∧ x ≤ 2 ^ 31 - 1)) :
    writeExact s rd x = .next { s with outcome := .fault ⟨.integerOverflow, s.pc, s.bd⟩ } :=
  (writeExact_eq_next ..).mpr (.inr ⟨(fitsSigned_eq_false_iff x).mpr h, rfl⟩)

/-- An instruction that writes one register writes the value that is specified for it. -/
theorem exists_onlyReg_of_eq {v w : Word} (hv : v = w) :
    ∃ t, (.next (s.writeReg rd v).retire : Answer) = .next t ∧ OnlyReg s t rd w :=
  ⟨_, rfl, hv ▸ onlyReg_writeReg_retire s rd v⟩

/-- As `exists_onlyReg_of_eq`, for a value that is specified by a property. -/
theorem exists_onlyReg_of {v : Word} {P : Word → Prop} (hv : P v) :
    ∃ t w, (.next (s.writeReg rd v).retire : Answer) = .next t ∧ OnlyReg s t rd w ∧ P w :=
  ⟨_, v, rfl, onlyReg_writeReg_retire s rd v, hv⟩

end Results

/-- Settles O36: the three write their exact result if it fits and raise if not; the sign conditions
are those of the signed overflow of a 32-bit sum and difference. -/
theorem trappingArithmetic : Obligations.TrappingArithmetic := by
  intro rd rs rt imm
  exact ⟨encodedAs_encode _, encodedAs_encode _, encodedAs_encode _, fun s =>
    ⟨writeExact_of_fits, writeExact_of_not_fits,
      (fitsSigned_eq_false_iff _).symm.trans (fitsSigned_add_eq_false_iff _ _),
      writeExact_of_fits, writeExact_of_not_fits,
      (fitsSigned_eq_false_iff _).symm.trans (fitsSigned_sub_eq_false_iff _ _),
      writeExact_of_fits, writeExact_of_not_fits⟩⟩

/-- Settles O37: the results are those of the operations on residues modulo 2^32. -/
theorem wrappingArithmetic : Obligations.WrappingArithmetic := by
  intro rd rs rt imm
  exact ⟨encodedAs_encode _, encodedAs_encode _, encodedAs_encode _, fun s =>
    ⟨exists_onlyReg_of (BitVec.toNat_add _ _),
      exists_onlyReg_of (toNat_sub_eq_emod _ _),
      exists_onlyReg_of (toNat_add_sextImm _ _)⟩⟩

/-- Settles O38: each operation acts on every bit by itself. -/
theorem bitwiseLogic : Obligations.BitwiseLogic := by
  intro rd rs rt
  exact ⟨encodedAs_encode _, encodedAs_encode _, encodedAs_encode _, encodedAs_encode _, fun s =>
    ⟨exists_onlyReg_of fun k _ => BitVec.getLsbD_and,
      exists_onlyReg_of fun k _ => BitVec.getLsbD_or,
      exists_onlyReg_of fun k _ => BitVec.getLsbD_xor,
      exists_onlyReg_of fun k hk => getLsbD_nor _ _ hk⟩⟩

/-- Settles O39: the truth word of a comparison with a register or with the sign-extended
immediate. -/
theorem setOnLessThan : Obligations.SetOnLessThan := by
  intro rd rs rt imm
  refine ⟨encodedAs_encode _, encodedAs_encode _, encodedAs_encode _, encodedAs_encode _,
    fun s => ?_⟩
  have hsigned : truthWord (ltSigned (s.readReg rs) (sextImm imm)) =
      if (s.readReg rs).toInt < imm.toInt then 1#32 else 0#32 := by
    rw [ltSigned, toInt_sextImm, truthWord_decide]
  exact ⟨exists_onlyReg_of_eq (truthWord_decide _), exists_onlyReg_of_eq (truthWord_decide _),
    exists_onlyReg_of_eq hsigned, exists_onlyReg_of_eq (truthWord_decide _)⟩

/-- Settles O40: the immediate's bits stand in the low half for the three operations, in the high
half for LUI, and the other half is zero. -/
theorem immediateLogic : Obligations.ImmediateLogic := by
  intro rt rs imm
  exact ⟨encodedAs_encode _, encodedAs_encode _, encodedAs_encode _, encodedAs_encode _, fun s =>
    ⟨exists_onlyReg_of fun k hk => getLsbD_and_zextImm _ imm hk,
      exists_onlyReg_of fun k hk =>
        BitVec.getLsbD_or.trans (congrArg _ (getLsbD_zextImm imm hk)),
      exists_onlyReg_of fun k hk =>
        BitVec.getLsbD_xor.trans (congrArg _ (getLsbD_zextImm imm hk)),
      exists_onlyReg_of fun k _ => getLsbD_upperImm imm k⟩⟩

end Sys2Proof.Machine

namespace Sys2Proof.Machine

/-! ## Shifts (R120 to R126) -/

section Shifts

variable (x : Word) (n : Nat) {k : Nat}

/-- R121: zeros enter from the right. -/
theorem getLsbD_shiftLeft_word (hk : k < 32) :
    (x <<< n).getLsbD k = (decide (n ≤ k) && x.getLsbD (k - n)) := by
  rw [BitVec.getLsbD_shiftLeft, decide_eq_true hk, Bool.true_and, ← decide_not,
    decide_eq_decide.mpr Nat.not_lt]

/-- R122: zeros enter from the left. -/
theorem getLsbD_ushiftRight_word :
    (x >>> n).getLsbD k = (decide (k + n < 32) && x.getLsbD (k + n)) := by
  rw [BitVec.getLsbD_ushiftRight, Nat.add_comm n k]
  by_cases hin : k + n < 32
  · simp [hin]
  · simp [hin, BitVec.getLsbD_of_ge x (k + n) (Nat.not_lt.mp hin)]

/-- R123: copies of bit 31 enter from the left. -/
theorem getLsbD_sshiftRight_word (hk : k < 32) :
    (x.sshiftRight n).getLsbD k = x.getLsbD (min (k + n) 31) := by
  rw [BitVec.getLsbD_sshiftRight, decide_eq_false (Nat.not_le.mpr hk), Nat.add_comm n k]
  by_cases hin : k + n < 32
  · simp [hin, Nat.min_eq_left (Nat.le_of_lt_succ hin)]
  · simp [hin, Nat.min_eq_right (by omega : 31 ≤ k + n), BitVec.msb_eq_getLsbD_last]

/-- R123: the floor of the signed value divided by the power of two. -/
theorem toInt_sshiftRight_word : (x.sshiftRight n).toInt = x.toInt / 2 ^ n := by
  rw [BitVec.toInt_sshiftRight, Int.shiftRight_eq_div_pow]
  norm_cast

/-- R120: the register amount is taken modulo 32. -/
theorem toNat_shiftAmount : (shiftAmount x).toNat = x.toNat % 32 := by
  rw [shiftAmount, BitVec.extractLsb'_toNat, Nat.shiftRight_zero]

end Shifts

/-- Settles O41: each result bit is the bit of rt that the shift moves there, or the bit that
enters. -/
theorem constantShifts : Obligations.ConstantShifts := by
  intro rd rt sa
  exact ⟨encodedAs_encode _, encodedAs_encode _, encodedAs_encode _, fun s =>
    ⟨exists_onlyReg_of fun k hk => getLsbD_shiftLeft_word _ _ hk,
      exists_onlyReg_of fun k _ => getLsbD_ushiftRight_word _ _,
      exists_onlyReg_of
        ⟨fun k hk => getLsbD_sshiftRight_word _ _ hk, toInt_sshiftRight_word _ _⟩⟩⟩

/-- Settles O42: the three are the constant shifts by `shiftAmount`, which is rs modulo 32. -/
theorem variableShifts : Obligations.VariableShifts := by
  intro rd rt rs
  refine ⟨encodedAs_encode _, encodedAs_encode _, encodedAs_encode _, fun s => ?_⟩
  rw [← toNat_shiftAmount]
  exact ⟨exists_onlyReg_of fun k hk => getLsbD_shiftLeft_word _ _ hk,
    exists_onlyReg_of fun k _ => getLsbD_ushiftRight_word _ _,
    exists_onlyReg_of
      ⟨fun k hk => getLsbD_sshiftRight_word _ _ hk, toInt_sshiftRight_word _ _⟩⟩

end Sys2Proof.Machine

namespace Sys2Proof.Machine

/-! ## Products and quotients (R21, R130 to R133) -/

section Words

variable (n d : Word)

/-- R130: the product of two signed words fits 64 bits two's complement. -/
theorem toInt_ofInt_mul (a b : Word) :
    (BitVec.ofInt 64 (a.toInt * b.toInt)).toInt = a.toInt * b.toInt := by
  have hlow : -2 ^ 62 ≤ a.toInt * b.toInt := BitVec.le_toInt_mul_toInt
  have hhigh : a.toInt * b.toInt ≤ 2 ^ 62 := BitVec.toInt_mul_toInt_le
  exact BitVec.toInt_ofInt_eq_self (by decide) (by omega) (by omega)

/-- R131: the product of two unsigned words fits 64 bits. -/
theorem toNat_ofNat_mul (a b : Word) :
    (BitVec.ofNat 64 (a.toNat * b.toNat)).toNat = a.toNat * b.toNat :=
  Nat.mod_eq_of_lt BitVec.toNat_mul_toNat_lt

/-- R132's open cases, by signed values. -/
theorem divUndefined_iff :
    divUndefined n d = true ↔ d.toInt = 0 ∨ (n.toInt = -2 ^ 31 ∧ d.toInt = -1) := by
  have hz : d.toInt = 0 ↔ d = 0#32 := BitVec.toInt_inj (y := 0#32)
  have hn : n.toInt = -2 ^ 31 ↔ n = 0x80000000#32 := BitVec.toInt_inj (y := 0x80000000#32)
  have hd : d.toInt = -1 ↔ d = 0xFFFFFFFF#32 := BitVec.toInt_inj (y := 0xFFFFFFFF#32)
  rw [hz, hn, hd]
  simp [divUndefined]

variable {n d} in
/-- R132: outside the open cases the truncated quotient fits 32 bits two's complement. -/
theorem toInt_ofInt_tdiv (hdef : divUndefined n d = false) :
    (BitVec.ofInt 32 (n.toInt.tdiv d.toInt)).toInt = n.toInt.tdiv d.toInt := by
  have hfits : n ≠ BitVec.intMin 32 ∨ d ≠ -1#32 := by
    rw [← not_and_or]
    rintro ⟨rfl, rfl⟩
    exact absurd hdef (by decide)
  rw [BitVec.toInt_ofInt, ← BitVec.toInt_sdiv, BitVec.toInt_sdiv_of_ne_or_ne _ _ hfits]

/-- R132: the remainder always fits. -/
theorem toInt_ofInt_tmod :
    (BitVec.ofInt 32 (n.toInt.tmod d.toInt)).toInt = n.toInt.tmod d.toInt := by
  rw [← BitVec.toInt_srem, BitVec.ofInt_toInt]

/-- R133: the quotient fits 32 bits, for every divisor. -/
theorem toNat_ofNat_div :
    (BitVec.ofNat 32 (n.toNat / d.toNat)).toNat = n.toNat / d.toNat := by
  rw [← BitVec.toNat_udiv, BitVec.ofNat_toNat, BitVec.setWidth_eq]

/-- R133: the remainder fits 32 bits, for every divisor. -/
theorem toNat_ofNat_mod :
    (BitVec.ofNat 32 (n.toNat % d.toNat)).toNat = n.toNat % d.toNat := by
  rw [← BitVec.toNat_umod, BitVec.ofNat_toNat, BitVec.setWidth_eq]

/-- R132: what truncation toward zero says of the remainder. -/
theorem tmod_bounds {a b : Int} (hb : b ≠ 0) :
    (a.tmod b).natAbs < b.natAbs ∧ (0 ≤ a → 0 ≤ a.tmod b) ∧ (a ≤ 0 → a.tmod b ≤ 0) := by
  refine ⟨?smaller, Int.tmod_nonneg b, fun ha => ?nonpos⟩
  case smaller =>
    rw [Int.natAbs_tmod]
    exact Nat.mod_lt _ (Int.natAbs_pos.mpr hb)
  case nonpos =>
    have hneg : 0 ≤ (-a).tmod b := Int.tmod_nonneg b (Int.neg_nonneg.mpr ha)
    rwa [Int.neg_tmod, Int.neg_nonneg] at hneg

end Words

/-! ## Writers and readers of HI and LO (R130 to R138, R204) -/

section HiLo

variable {s : State} {a : Answer} {h l : Word}

theorem unlessHazard_of_lt (hage : s.hiloAge < s.hazardDistance) :
    unlessHazard s a = .refused .hiLoHazard :=
  if_pos hage

/-- R21: a product's two halves, put together again. -/
theorem State.hi_append_lo_writeProduct (s : State) (p : BitVec 64) :
    (s.writeProduct p).hi ++ (s.writeProduct p).lo = p :=
  BitVec.extractLsb'_append_extractLsb'

/-- A writer of HI and LO that meets no hazard writes the two and retires. -/
theorem exists_onlyHiLo (hage : s.hazardDistance ≤ s.hiloAge) :
    ∃ t, unlessHazard s (.next (s.writeHiLo h l).retire) = .next t ∧ OnlyHiLo s t h l :=
  ⟨_, (unlessHazard_eq_next ..).mpr ⟨hage, rfl⟩, onlyHiLo_writeHiLo_retire s h l⟩

/-- As `exists_onlyHiLo`, for HI and LO that are specified by a property. -/
theorem exists_onlyHiLo_of {P : State → Prop} (hage : s.hazardDistance ≤ s.hiloAge)
    (ha : a = .next (s.writeHiLo h l).retire) (hP : P (s.writeHiLo h l).retire) :
    ∃ t, unlessHazard s a = .next t ∧ OnlyHiLo s t t.hi t.lo ∧ P t :=
  ⟨_, (unlessHazard_eq_next ..).mpr ⟨hage, ha⟩, onlyHiLo_writeHiLo_retire s h l, hP⟩

/-- A division with open results changes HI and LO only, besides retiring (R132, R133). -/
theorem exists_drawn (hage : s.hazardDistance ≤ s.hiloAge) (ha : a = .next s.drawHiLo.retire) :
    ∃ t, unlessHazard s a = .next t ∧ SameRegs s t ∧ SameMemory s t ∧ Retired s t :=
  ⟨_, (unlessHazard_eq_next ..).mpr ⟨hage, ha⟩, by simp [SameRegs], by simp [SameMemory],
    by simp [Retired, FallsThrough, AgeCounts, SameRun]⟩

/-- A move from HI or LO writes one register and starts `hilo_age` anew (R134, R136). -/
theorem exists_moved (s : State) (rd : Reg) (v : Word) :
    ∃ t, (.next (s.writeReg rd v).retireHiLoRead : Answer) = .next t ∧ NewReg s t rd v ∧
      t.hiloAge = 0 ∧ SameHiLo s t ∧ SameMemory s t ∧ FallsThrough s t ∧ SameRun s t :=
  ⟨_, rfl, newReg_writeReg s rd v, rfl, by simp [SameHiLo], by simp [SameMemory],
    by simp [FallsThrough], by simp [SameRun]⟩

end HiLo

/-- Settles O43: each product fits the 64 bits of which HI and LO are the two halves. -/
theorem multiplyGivesExactProduct : Obligations.MultiplyGivesExactProduct := by
  intro rs rt
  refine ⟨encodedAs_encode _, encodedAs_encode _, fun s hage => ⟨?signed, ?unsigned⟩⟩
  case signed =>
    exact exists_onlyHiLo_of hage rfl <|
      (congrArg BitVec.toInt (State.hi_append_lo_writeProduct s _)).trans (toInt_ofInt_mul _ _)
  case unsigned =>
    exact exists_onlyHiLo_of hage rfl <|
      (congrArg BitVec.toNat (State.hi_append_lo_writeProduct s _)).trans (toNat_ofNat_mul _ _)

/-- Settles O44: outside the open cases quotient and remainder are those of truncated division of
integers; in them the results are drawn. -/
theorem signedDivide : Obligations.SignedDivide := by
  intro rs rt
  refine ⟨encodedAs_encode _, fun s hage => ⟨fun hd hfits => ?defined, fun hopen => ?undefined⟩⟩
  case defined =>
    have hdef : divUndefined (s.readReg rs) (s.readReg rt) = false :=
      Bool.eq_false_iff.mpr fun hu => ((divUndefined_iff _ _).mp hu).elim hd hfits
    refine exists_onlyHiLo_of hage (if_neg (Bool.eq_false_iff.mp hdef)) ?_
    rw [State.retire_lo, State.retire_hi, State.writeHiLo_lo, State.writeHiLo_hi,
      toInt_ofInt_tdiv hdef, toInt_ofInt_tmod]
    exact ⟨(Int.tdiv_mul_add_tmod _ _).symm, tmod_bounds hd⟩
  case undefined => exact exists_drawn hage (if_pos ((divUndefined_iff _ _).mpr hopen))

/-- Settles O45: for a nonzero divisor quotient and remainder are those of natural numbers; for zero
they are drawn. -/
theorem unsignedDivide : Obligations.UnsignedDivide := by
  intro rs rt
  refine ⟨encodedAs_encode _, fun s hage => ⟨fun hd => ?defined, fun hzero => ?undefined⟩⟩
  case defined =>
    refine exists_onlyHiLo_of hage (if_neg fun h => hd (congrArg BitVec.toNat h)) ?_
    rw [State.retire_lo, State.retire_hi, State.writeHiLo_lo, State.writeHiLo_hi,
      toNat_ofNat_div, toNat_ofNat_mod]
    exact ⟨(Nat.div_add_mod' _ _).symm, Nat.mod_lt _ (Nat.pos_of_ne_zero hd)⟩
  case undefined => exact exists_drawn hage (if_pos (BitVec.eq_of_toNat_eq hzero))

/-- Settles O46: both are the one move, of HI and of LO. -/
theorem moveFromHiLo : Obligations.MoveFromHiLo := fun rd =>
  ⟨encodedAs_encode _, encodedAs_encode _, fun s => ⟨exists_moved s rd s.hi, exists_moved s rd s.lo⟩⟩

/-- Settles O47: each writes one of the two and passes the other on, unless the hazard refuses it. -/
theorem moveToHiLo : Obligations.MoveToHiLo := by
  intro rs
  refine ⟨encodedAs_encode _, encodedAs_encode _, fun s =>
    ⟨fun hage => ?written, fun hage => ?refused⟩⟩
  case written => exact ⟨exists_onlyHiLo hage, exists_onlyHiLo hage⟩
  case refused => exact ⟨unlessHazard_of_lt hage, unlessHazard_of_lt hage⟩

end Sys2Proof.Machine

namespace Sys2Proof.Machine

/-! ## Jumps and the delay slot (R145 to R150) -/

section Jumps

variable {i k : Instr} {s t u : State} {T : Word}

/-- R146: the two low bits of a J or JAL target are zero. -/
theorem toNat_jumpTarget_mod_four (pc : Word) (target : BitVec 26) :
    (jumpTarget pc target).toNat % 4 = 0 := by
  rw [jumpTarget, BitVec.toNat_append, Nat.shiftLeft_eq]
  simp

theorem unlessDelaySlot_of_bd (hb : s.bd = true) (a : Answer) :
    unlessDelaySlot s a = .refused .jumpInDelaySlot :=
  if_pos hb

theorem unlessDelaySlot_of_not_bd (hb : s.bd = false) (a : Answer) : unlessDelaySlot s a = a :=
  if_neg (Bool.eq_false_iff.mp hb)

/-- Each of the four jumps checks for the delay slot before everything else it does (R150). -/
theorem exec_eq_unlessDelaySlot (hj : isJump i = true) (s : State) :
    ∃ a, exec i s = unlessDelaySlot s a := by
  cases i with
  | j | jal | jr | jalr => exact ⟨_, rfl⟩
  | _ => cases hj

theorem exec_jump_of_bd (hj : isJump i = true) (hb : s.bd = true) :
    exec i s = .refused .jumpInDelaySlot := by
  obtain ⟨a, ha⟩ := exec_eq_unlessDelaySlot hj s
  rw [ha, unlessDelaySlot_of_bd hb]

/-- What every jump keeps besides the registers: HI and LO, memory and the run; `hilo_age` counts it. -/
theorem linked_frame (s : State) (rd : Reg) (v T : Word) :
    let t := (s.writeReg rd v).retireJump T
    SameHiLo s t ∧ SameMemory s t ∧ AgeCounts s t ∧ SameRun s t := by
  simp [SameHiLo, SameMemory, AgeCounts, SameRun]

/-- The whole effect of a jump without a link. -/
theorem exists_jumped (hb : s.bd = false) (T : Word) :
    ∃ t, unlessDelaySlot s (.next (s.retireJump T)) = .next t ∧ JumpsTo s t T ∧ SameRegs s t ∧
      SameHiLo s t ∧ SameMemory s t ∧ AgeCounts s t ∧ SameRun s t :=
  ⟨_, unlessDelaySlot_of_not_bd hb _, jumpsTo_retireJump s T, fun _ => rfl,
    by simpa using linked_frame s 0 0#32 T⟩

/-- The whole effect of a jump that links in `rd`. -/
theorem exists_linked (hb : s.bd = false) (rd : Reg) (v T : Word) :
    ∃ t, unlessDelaySlot s (.next ((s.writeReg rd v).retireJump T)) = .next t ∧ JumpsTo s t T ∧
      NewReg s t rd v ∧ SameHiLo s t ∧ SameMemory s t ∧ AgeCounts s t ∧ SameRun s t :=
  ⟨_, unlessDelaySlot_of_not_bd hb _, by simp [JumpsTo], newReg_writeReg s rd v,
    linked_frame s rd v T⟩

theorem exec_jalr_of_ne {rd rs : Reg} (hne : rd ≠ rs) (s : State) :
    exec (.jalr rd rs) s =
      unlessDelaySlot s (.next ((s.writeReg rd (s.pc + 8#32)).retireJump (s.readReg rs))) :=
  congrArg (unlessDelaySlot s) (if_neg hne)

theorem exec_jalr_same (r : Reg) (hb : s.bd = false) :
    exec (.jalr r r) s = .refused .jalrSameRegister :=
  (unlessDelaySlot_of_not_bd hb _).trans (if_pos rfl)

/-- A jump that answers a next state goes to its delay slot and raises nothing (R145). -/
theorem Effect.enters_delaySlot (he : Effect i s t) (hj : isJump i = true) :
    t.pc = s.npc ∧ t.bd = true ∧ t.outcome = s.outcome := by
  cases he with
  | jumped => simp
  | raised _ hj' | reg _ _ hj' | hiLo _ _ _ hj' | drawn _ hj' | moved _ _ _ hj'
  | stored _ _ _ hj' => rw [hj] at hj'; cases hj'

/-- No jump answers a next state in a delay slot (R150). -/
theorem Effect.isJump_eq_false_of_bd (he : Effect i s t) (hb : s.bd = true) : isJump i = false := by
  cases he with
  | jumped _ _ _ _ _ _ _ hb' => rw [hb] at hb'; cases hb'
  | raised | reg | hiLo | drawn | moved | stored => assumption

/-- An instruction that completes in a delay slot falls through to the target in `npc` (R145). -/
theorem Effect.leaves_delaySlot (he : Effect k t u) (hb : t.bd = true)
    (hu : u.outcome = .running) : FallsThrough t u := by
  obtain ⟨hpc, hseq, -⟩ := he.sequence hu
  exact ⟨hpc, hseq (he.isJump_eq_false_of_bd hb)⟩

/-- An instruction that ends the run changes nothing but the outcome, which records where the machine
stands (R181, R183). -/
theorem Effect.eq_raised (he : Effect k t u) (ht : t.outcome = .running)
    (hu : u.outcome ≠ .running) : ∃ c, u = { t with outcome := .fault ⟨c, t.pc, t.bd⟩ } := by
  cases he with
  | raised c => exact ⟨c, rfl⟩
  | reg | hiLo | drawn | moved | jumped | stored => exact absurd (by simpa using ht) hu

/-- R148: a misaligned target faults at its own fetch, in the step after the delay slot. -/
theorem step_at_misaligned_target (hto : JumpsTo s t T) (hT : T.toNat % 4 ≠ 0)
    (hexec : exec k t = .next u) (hu : u.outcome = .running) :
    step u = .next { u with outcome := .fault ⟨.addressError .fetch T, T, false⟩ } := by
  obtain ⟨-, hnpc, hb⟩ := hto
  obtain ⟨hpc, -, hub⟩ := (exec_effect hexec).leaves_delaySlot hb hu
  have hpcT : u.pc = T := hpc.trans hnpc
  rw [step_of_fetch_error hu (fetch_of_misaligned (hpcT.symm ▸ hT)), raise, hpcT, hub]

end Jumps

/-- Settles O49: J retires to `jumpTarget`, JAL does so after the link. -/
theorem jumpAndLink : Obligations.JumpAndLink := by
  intro target
  refine ⟨encodedAs_encode _, encodedAs_encode _, fun s => ⟨fun hb => ?jumps, fun hb => ?refused,
    toNat_jumpTarget_mod_four s.pc target⟩⟩
  case jumps => exact ⟨exists_jumped hb _, exists_linked hb 31 _ _⟩
  case refused => exact ⟨exec_jump_of_bd rfl hb, exec_jump_of_bd rfl hb⟩

/-- Settles O50: JR and JALR retire to the register's old value; where that is misaligned, the step
after the delay slot stands at it and fails its fetch. -/
theorem jumpRegister : Obligations.JumpRegister := by
  intro rd rs
  refine ⟨encodedAs_encode _, encodedAs_encode _, fun s => ⟨fun hb => ⟨?jr, fun hne => ?jalr,
    fun heq => ?sameRegister⟩, fun hb => ?refused⟩⟩
  case jr =>
    obtain ⟨t, hexec, hto, hregs, hhilo, hmem, hage, hrun⟩ := exists_jumped hb (s.readReg rs)
    exact ⟨t, hexec, hto, hregs, hhilo, hmem, hage, hrun,
      fun hT _ _ => step_at_misaligned_target hto hT⟩
  case jalr =>
    obtain ⟨t, hexec, hto, hreg, hhilo, hmem, hage, hrun⟩ :=
      exists_linked hb rd (s.pc + 8#32) (s.readReg rs)
    exact ⟨t, (exec_jalr_of_ne hne s).trans hexec, hto, hreg, hhilo, hmem, hage, hrun,
      fun hT _ _ => step_at_misaligned_target hto hT⟩
  case sameRegister => exact heq ▸ exec_jalr_same rd hb
  case refused => exact ⟨exec_jump_of_bd rfl hb, exec_jump_of_bd rfl hb⟩

/-- Settles O51: the jump leaves the machine in the delay slot, where no jump answers a next state; any
other instruction falls through to the target there or raises. -/
theorem delaySlotThenTarget : Obligations.DelaySlotThenTarget := by
  intro i k s t u ho hj hi hk
  have hslot : Effect k t u := exec_effect hk
  obtain ⟨hpc, hb, hout⟩ := (exec_effect hi).enters_delaySlot hj
  refine ⟨hpc, hb, hslot.isJump_eq_false_of_bd hb, hslot.leaves_delaySlot hb, fun hu => ?raises⟩
  case raises =>
    obtain ⟨c, rfl⟩ := hslot.eq_raised (hout.trans ho) hu
    exact ⟨c, by rw [hpc, hb]⟩

/-- Settles O52: the jumps check for the delay slot first, and no other instruction is refused for
it. -/
theorem jumpInDelaySlotIsRefused : Obligations.JumpInDelaySlotIsRefused := by
  refine ⟨fun i s hb => ⟨fun href => ?isJump, fun hj => exec_jump_of_bd hj hb⟩,
    fun i s w ho hf hd hb hj => (step_of_decode ho hf hd).trans (exec_jump_of_bd hj hb)⟩
  case isJump =>
    rcases exec_refused href with ⟨hj, -, -⟩ | ⟨hj, -, -, -⟩ | ⟨-, -, hreason⟩
    · exact hj
    · exact hj
    · cases hreason

end Sys2Proof.Machine

namespace Sys2Proof.Machine

/-! ## System call and breakpoint (R155, R156) -/

theorem exec_syscall (code : BitVec 20) (s : State) :
    exec (.syscall code) s = raise (.systemCall code) s := rfl

theorem exec_brk (code : BitVec 20) (s : State) :
    exec (.brk code) s = raise (.breakpoint code) s := rfl

/-- Settles O53: both raise whatever the code and the state, and raising changes the outcome only. -/
theorem systemCallAndBreakpoint : Obligations.SystemCallAndBreakpoint := by
  intro code
  refine ⟨encodedAs_encode _, encodedAs_encode _, fun s => ⟨?syscall, ?brk⟩⟩
  case syscall => exact (exec_syscall code s).trans ((raise_eq_next ..).mpr rfl)
  case brk => exact (exec_brk code s).trans ((raise_eq_next ..).mpr rfl)

end Sys2Proof.Machine

namespace Sys2Proof.Machine

/-! ## Traps (R160 to R172) -/

section Traps

variable {i : Instr} {s : State} {w : Word} {cond c : Bool} {code : Option (BitVec 10)}

theorem not_ltSigned (a b : Word) : (!ltSigned a b) = decide (b.toInt ≤ a.toInt) := by
  rw [ltSigned, ← decide_not, decide_eq_decide]
  exact Int.not_lt

theorem not_ltUnsigned (a b : Word) : (!ltUnsigned a b) = decide (b.toNat ≤ a.toNat) := by
  rw [ltUnsigned, ← decide_not, decide_eq_decide]
  exact Nat.not_lt

/-- R160: an instruction that executes as `trapIf cond` raises Trap or only retires, as its specified
condition `c` decides. -/
theorem trap_effect (hw : encode i = w) (hcond : cond = c) (hexec : exec i s = trapIf cond code s) :
    EncodedAs i w ∧
    (c = true → exec i s = .next { s with outcome := .fault ⟨.trap code, s.pc, s.bd⟩ }) ∧
    (c = false → ∃ t, exec i s = .next t ∧ OnlyRetired s t) := by
  subst hw hcond
  refine ⟨encodedAs_encode i, fun hc => ?raises, fun hc => ⟨s.retire, ?retires, onlyRetired_retire s⟩⟩
  case raises => exact hexec.trans ((trapIf_eq_next ..).mpr (.inl ⟨hc, rfl⟩))
  case retires => exact hexec.trans ((trapIf_eq_next ..).mpr (.inr ⟨hc, rfl⟩))

end Traps

/-- Settles O54: the six test the two registers, in the words of the statement but for "greater or equal",
which the model writes as "not less". -/
theorem registerTraps : Obligations.RegisterTraps := by
  intro rs rt code s a b
  simp only [List.forall_mem_cons]
  refine ⟨?tge, ?tgeu, ?tlt, ?tltu, ?teq, ?tne, List.forall_mem_nil _⟩
  case tge => exact trap_effect rfl (not_ltSigned a b) rfl
  case tgeu => exact trap_effect rfl (not_ltUnsigned a b) rfl
  case tlt => exact trap_effect rfl rfl rfl
  case tltu => exact trap_effect rfl rfl rfl
  case teq => exact trap_effect rfl (beq_eq_decide a b) rfl
  case tne => exact trap_effect rfl (decide_not ..).symm rfl

/-- Settles O55: as the register traps, against the sign-extended immediate `sextImm imm`, the unsigned
comparisons too, and without a code. -/
theorem immediateTraps : Obligations.ImmediateTraps := by
  intro rs imm s a b
  simp only [List.forall_mem_cons]
  refine ⟨?tgei, ?tgeiu, ?tlti, ?tltiu, ?teqi, ?tnei, List.forall_mem_nil _⟩
  case tgei => exact trap_effect rfl (not_ltSigned a b) rfl
  case tgeiu => exact trap_effect rfl (not_ltUnsigned a b) rfl
  case tlti => exact trap_effect rfl rfl rfl
  case tltiu => exact trap_effect rfl rfl rfl
  case teqi => exact trap_effect rfl (beq_eq_decide a b) rfl
  case tnei => exact trap_effect rfl (decide_not ..).symm rfl

end Sys2Proof.Machine

namespace Sys2Proof.Machine

/-! ## Ended runs and precise exceptions (R181, R182) -/

/-- Settles O8: a step that answers a next state starts from a running machine. -/
theorem endedRunHasNoStep : Obligations.EndedRunHasNoStep := by
  intro s t hended hst
  obtain ⟨hrun, -⟩ := step_cases hst
  exact hended hrun

/-- A step that ends the run changes nothing but the outcome, whether the fetch raises or the
instruction does (R181, R182). -/
theorem step_eq_raised {s t : State} (hst : step s = .next t) (ht : t.outcome ≠ .running) :
    ∃ c, t = { s with outcome := .fault ⟨c, s.pc, s.bd⟩ } := by
  obtain ⟨hrun, ⟨-, rfl⟩ | ⟨w, i, -, -, hexec⟩⟩ := step_cases hst
  · exact ⟨.addressError .fetch s.pc, rfl⟩
  · exact (exec_effect hexec).eq_raised hrun ht

/-- Settles O9: the step raised, and the state it answers has ended. -/
theorem exceptionsArePrecise : Obligations.ExceptionsArePrecise :=
  fun _ t hst ht => ⟨step_eq_raised hst ht, fun u => endedRunHasNoStep t u ht⟩

end Sys2Proof.Machine

namespace Sys2Proof.Machine

/-! ## Stored-to bytes stay stored-to (R43, R203) -/

section StoredTo

variable {i : Instr} {s t : State} {a : Nat}

/-- No effect of an instruction takes an address out of the stored-to set. -/
theorem Effect.mem_dirty (he : Effect i s t) (ha : a ∈ s.dirty) : a ∈ t.dirty := by
  cases he with
  | raised | hiLo | drawn => exact ha
  | reg | moved | jumped => simpa using ha
  | stored b vs => exact (s.mem_dirty_storeBytes b vs a).mpr (.inl ha)

theorem step_mem_dirty (hst : step s = .next t) (ha : a ∈ s.dirty) : a ∈ t.dirty := by
  obtain ⟨-, ⟨-, rfl⟩ | ⟨w, i, -, -, hexec⟩⟩ := step_cases hst
  · exact ha
  · exact (exec_effect hexec).mem_dirty ha

theorem run_mem_dirty {n : Nat} (hrun : core.run n s = .next t) (ha : a ∈ s.dirty) :
    a ∈ t.dirty := by
  induction n generalizing s with
  | zero => cases hrun; exact ha
  | succ n ih =>
    obtain ⟨u, hst, hrest⟩ := (core_run_succ_next n s t).mp hrun
    exact ih hrest (step_mem_dirty hst ha)

/-- An aligned word does not wrap around the address space, so that a stored-to byte between its first
and last address is one of its four bytes. -/
theorem dirtyRange_of_mem {p : Word} (hal : p.toNat % 4 = 0) (hlo : p.toNat ≤ a)
    (hhi : a < p.toNat + 4) (ha : a ∈ s.dirty) : DirtyRange s p 4 := by
  refine ⟨a - p.toNat, by omega, ?_⟩
  have haddr : (p + BitVec.ofNat 32 (a - p.toNat)).toNat = a := by
    have hp := p.isLt
    rw [BitVec.toNat_add, BitVec.toNat_ofNat]
    omega
  rwa [haddr]

end StoredTo

/-- Settles O18: the byte is still in the stored-to set where the run stands, and the fetch that needs
it is refused there. -/
theorem storedBytesAreNeverExecuted : Obligations.StoredBytesAreNeverExecuted := by
  intro n s t a ha hrun ho hal hm hlo hhi
  have hdirty : DirtyRange t t.pc 4 := dirtyRange_of_mem hal hlo hhi (run_mem_dirty hrun ha)
  exact step_of_fetch_error ho (fetch_of_dirty hal hm hdirty)

end Sys2Proof.Machine

namespace Sys2Proof.Machine

/-! ## The HI/LO hazard (R204) -/

section Hazard

variable {i : Instr} {s t : State}

/-- Each of the six writers checks for the hazard before everything else it does (R204). -/
theorem exec_eq_unlessHazard (hw : writesHiLo i = true) (s : State) :
    ∃ a, exec i s = unlessHazard s a := by
  cases i with
  | mult | multu | div | divu | mthi | mtlo => exact ⟨_, rfl⟩
  | _ => cases hw

theorem exec_writer_of_lt (hw : writesHiLo i = true) (hage : s.hiloAge < s.hazardDistance) :
    exec i s = .refused .hiLoHazard := by
  obtain ⟨a, ha⟩ := exec_eq_unlessHazard hw s
  rw [ha, unlessHazard_of_lt hage]

/-- R204's condition is the only one that is refused as the hazard. -/
theorem hiloAge_lt_of_refused (href : exec i s = .refused .hiLoHazard) :
    s.hiloAge < s.hazardDistance := by
  rcases exec_refused href with ⟨-, -, hreason⟩ | ⟨-, -, hreason, -⟩ | ⟨-, hage, -⟩
  · cases hreason
  · cases hreason
  · exact hage

/-- MFHI and MFLO start `hilo_age` anew (R134, R136). -/
theorem Effect.hiloAge_eq_zero (he : Effect i s t) (hread : readsHiLo i = true) :
    t.hiloAge = 0 := by
  cases he with
  | moved => rfl
  | raised _ _ _ hr | reg _ _ _ _ _ hr | hiLo _ _ _ _ _ hr | drawn _ _ _ hr
  | jumped _ _ _ _ _ _ hr | stored _ _ _ _ _ hr => rw [hread] at hr; cases hr

/-- One instruction adds at most 1 to `hilo_age` (R26(c)). -/
theorem Effect.hiloAge_le_succ (he : Effect i s t) : t.hiloAge ≤ s.hiloAge + 1 := by
  cases he with
  | raised => exact Nat.le_succ _
  | moved => exact Nat.zero_le _
  | reg | hiLo | drawn | jumped | stored => simp

theorem Effect.hazardDistance (he : Effect i s t) : t.hazardDistance = s.hazardDistance :=
  congrArg (fun p => p.hazard.toNat) he.params

theorem State.hazardDistance_of_none (h : s.params.hazard = .none) : s.hazardDistance = 0 :=
  congrArg HazardDistance.toNat h

theorem State.hazardDistance_of_two (h : s.params.hazard = .two) : s.hazardDistance = 2 :=
  congrArg HazardDistance.toNat h

end Hazard

/-- Settles O48: MFHI and MFLO leave the age 0 and the next instruction at most 1, both below 2; no age
is below 0. -/
theorem hiLoHazard : Obligations.HiLoHazard := by
  refine ⟨fun i s hw => ⟨hiloAge_lt_of_refused, exec_writer_of_lt hw⟩,
    fun i k s t hread hi htwo hk => ?two, fun i s hnone href => ?none⟩
  case two =>
    have hread_t := (exec_effect hi).hiloAge_eq_zero hread
    have hdist_t : t.hazardDistance = 2 :=
      (exec_effect hi).hazardDistance.trans (State.hazardDistance_of_two htwo)
    refine ⟨exec_writer_of_lt hk (by omega), fun m u hm => exec_writer_of_lt hk ?_⟩
    have hage_u := (exec_effect hm).hiloAge_le_succ
    have hdist_u := (exec_effect hm).hazardDistance
    omega
  case none =>
    have hage := hiloAge_lt_of_refused href
    rw [State.hazardDistance_of_none hnone] at hage
    exact Nat.not_lt_zero _ hage

end Sys2Proof.Machine

namespace Sys2Proof.Machine

/-! ## Distance 0 simulates every distance (R204) -/

/-- The same state under distance 0, where `hilo_age` saturates at 0 (R26(c)). -/
def State.hazardFree (s : State) : State :=
  { s with params := { s.params with hazard := .none }, hiloAge := 0 }

/-- `b` answers the hazard-free form of every state that `a` answers; where `a` answers none, a refusal
for the hazard above all, nothing is asked of `b`. -/
def FollowedBy (a b : Answer) : Prop := ∀ t, a = .next t → b = .next t.hazardFree

section HazardFree

variable (s : State)

/-! ### The operations on a hazard-free state -/

theorem State.hazardFree_retire : s.hazardFree.retire = s.retire.hazardFree := rfl

theorem State.hazardFree_retireHiLoRead :
    s.hazardFree.retireHiLoRead = s.retireHiLoRead.hazardFree := rfl

theorem State.hazardFree_retireJump (target : Word) :
    s.hazardFree.retireJump target = (s.retireJump target).hazardFree := rfl

theorem State.hazardFree_writeReg (r : Reg) (v : Word) :
    s.hazardFree.writeReg r v = (s.writeReg r v).hazardFree := by
  unfold State.writeReg
  split <;> rfl

theorem State.hazardFree_bytesAt (a : Word) (n : Nat) :
    s.hazardFree.bytesAt a n = s.bytesAt a n :=
  State.bytesAt_congr fun _ => rfl

theorem State.hazardFree_storeBytes (a : Word) (vs : List Byte) :
    s.hazardFree.storeBytes a vs = (s.storeBytes a vs).hazardFree := by
  induction vs generalizing s a with
  | nil => rfl
  | cons v vs ih => exact ih (s.storeByte a v) (a + 1#32)

/-! ### What the shared operations answer on it -/

variable {s} {a b c d : Answer} {r : Reg} {v target addr : Word} {n : Nat}

theorem FollowedBy.next {t u : State} (h : u = t.hazardFree) : FollowedBy (.next t) (.next u) := by
  rintro _ ⟨⟩
  rw [h]

theorem FollowedBy.refused {why : Refusal} : FollowedBy (.refused why) b := by
  rintro _ ⟨⟩

theorem FollowedBy.ite {p : Prop} [Decidable p] (hac : FollowedBy a c) (hbd : FollowedBy b d) :
    FollowedBy (if p then a else b) (if p then c else d) := by
  split
  · exact hac
  · exact hbd

/-- The one place where the two runs differ: under distance 0 there is no hazard. -/
theorem FollowedBy.unlessHazard (h : FollowedBy a b) :
    FollowedBy (unlessHazard s a) (unlessHazard s.hazardFree b) := by
  intro t ht
  obtain ⟨-, ha⟩ := (unlessHazard_eq_next ..).mp ht
  exact (unlessHazard_eq_next ..).mpr ⟨Nat.le_refl 0, h t ha⟩

theorem FollowedBy.unlessDelaySlot (h : FollowedBy a b) :
    FollowedBy (unlessDelaySlot s a) (unlessDelaySlot s.hazardFree b) :=
  .ite .refused h

theorem followedBy_raise {cause : Cause} : FollowedBy (raise cause s) (raise cause s.hazardFree) :=
  .next rfl

theorem followedBy_writeReg :
    FollowedBy (.next (s.writeReg r v).retire) (.next (s.hazardFree.writeReg r v).retire) :=
  .next (by rw [s.hazardFree_writeReg, State.hazardFree_retire])

theorem followedBy_moved :
    FollowedBy (.next (s.writeReg r v).retireHiLoRead)
      (.next (s.hazardFree.writeReg r v).retireHiLoRead) :=
  .next (by rw [s.hazardFree_writeReg, State.hazardFree_retireHiLoRead])

theorem followedBy_linked :
    FollowedBy (.next ((s.writeReg r v).retireJump target))
      (.next ((s.hazardFree.writeReg r v).retireJump target)) :=
  .next (by rw [s.hazardFree_writeReg, State.hazardFree_retireJump])

theorem followedBy_writeHiLo {h l : Word} :
    FollowedBy (.next (s.writeHiLo h l).retire) (.next (s.hazardFree.writeHiLo h l).retire) :=
  .next rfl

theorem followedBy_drawHiLo :
    FollowedBy (.next s.drawHiLo.retire) (.next s.hazardFree.drawHiLo.retire) :=
  .next rfl

theorem followedBy_writeExact {x : Int} :
    FollowedBy (writeExact s r x) (writeExact s.hazardFree r x) :=
  .ite followedBy_writeReg followedBy_raise

theorem followedBy_trapIf {cond : Bool} {code : Option (BitVec 10)} :
    FollowedBy (trapIf cond code s) (trapIf cond code s.hazardFree) :=
  .ite followedBy_raise (.next s.hazardFree_retire)

theorem followedBy_loadInto {f : List Byte → Word} :
    FollowedBy (loadInto s r addr n f) (loadInto s.hazardFree r addr n f) := by
  intro t ht
  obtain ⟨hm, rfl⟩ := (loadInto_eq_next ..).mp ht
  refine (loadInto_eq_next ..).mpr ⟨hm, ?_⟩
  rw [s.hazardFree_bytesAt, s.hazardFree_writeReg, State.hazardFree_retire]

theorem followedBy_storeFrom {vs : List Byte} :
    FollowedBy (storeFrom s addr vs) (storeFrom s.hazardFree addr vs) := by
  intro t ht
  obtain ⟨hm, rfl⟩ := (storeFrom_eq_next ..).mp ht
  refine (storeFrom_eq_next ..).mpr ⟨hm, ?_⟩
  rw [s.hazardFree_storeBytes, State.hazardFree_retire]

/-! ### Instructions, steps and runs -/

/-- An instruction reads neither the distance nor `hilo_age`, but for the check of R204. -/
theorem exec_followedBy (i : Instr) (s : State) : FollowedBy (exec i s) (exec i s.hazardFree) := by
  cases i with
  | lb | lbu | lwl | lwr => exact followedBy_loadInto
  | lh | lhu | lw => exact .ite followedBy_loadInto followedBy_raise
  | sb | swl | swr => exact followedBy_storeFrom
  | sh | sw => exact .ite followedBy_storeFrom followedBy_raise
  | add | sub | addi => exact followedBy_writeExact
  | addu | subu | and | or | xor | nor | slt | sltu | addiu | slti | sltiu | andi | ori | xori | lui
  | sll | srl | sra | sllv | srlv | srav => exact followedBy_writeReg
  | mult | multu | mthi | mtlo => exact .unlessHazard followedBy_writeHiLo
  | div | divu => exact .unlessHazard (.ite followedBy_drawHiLo followedBy_writeHiLo)
  | mfhi | mflo => exact followedBy_moved
  | j | jr => exact .unlessDelaySlot (.next (s.hazardFree_retireJump _))
  | jal => exact .unlessDelaySlot followedBy_linked
  | jalr => exact .unlessDelaySlot (.ite .refused followedBy_linked)
  | syscall | brk => exact followedBy_raise
  | tge | tgeu | tlt | tltu | teq | tne | tgei | tgeiu | tlti | tltiu | teqi | tnei =>
    exact followedBy_trapIf

theorem fetch_hazardFree {w : Word} (hf : fetch s = .ok w) : fetch s.hazardFree = .ok w := by
  obtain ⟨hal, hm, hd, rfl⟩ := (fetch_eq_ok ..).mp hf
  exact (fetch_eq_ok ..).mpr ⟨hal, hm, hd, congrArg leValue (s.hazardFree_bytesAt s.pc 4).symm⟩

theorem step_followedBy (s : State) : FollowedBy (step s) (step s.hazardFree) := by
  intro t hst
  obtain ⟨ho, ⟨hal, rfl⟩ | ⟨w, i, hf, hd, hexec⟩⟩ := step_cases hst
  · have hmis : s.pc.toNat % 4 ≠ 0 := by simpa [alignedTo] using hal
    exact step_of_fetch_error (s := s.hazardFree) ho (fetch_of_misaligned hmis)
  · exact (step_of_decode (s := s.hazardFree) ho (fetch_hazardFree hf) hd).trans
      (exec_followedBy i s t hexec)

theorem run_followedBy (n : Nat) (s : State) :
    FollowedBy (core.run n s) (core.run n s.hazardFree) := by
  induction n generalizing s with
  | zero => exact .next rfl
  | succ n ih =>
    intro t hrun
    obtain ⟨u, hst, hrest⟩ := (core_run_succ_next n s t).mp hrun
    exact (core_run_succ_next ..).mpr ⟨u.hazardFree, step_followedBy s u hst, ih u t hrest⟩

end HazardFree

/-- Settles O19: `hazardFree` is the state of the statement, and each step of the run is followed. -/
theorem distanceTwoRunsAgreeWithDistanceZero : Obligations.DistanceTwoRunsAgreeWithDistanceZero :=
  run_followedBy

end Sys2Proof.Machine
